-- ==== Sys2Proof/Word.lean ====
section
/-! DEFINITION. The plain data types of the core: bytes, code words, phrases, code pairs, palette entries.
Widths are those of 10_state.md (R22 to R36) and 30_encoding.md (R90, R100, R119). -/

namespace Sys2Proof

/-- A `u8`: a symbol of the IndexStream or a container byte (00_scope.md R9, R17). -/
abbrev Byte := BitVec 8

/-- A code word zero-extended to 12 bits (30_encoding.md R91). -/
abbrev Code := BitVec 12

/-- A code width operand or register, 4 bits (00_scope.md R8, `WIDTH_BITS`). -/
abbrev Width := BitVec 4

/-- The value held by `E_NEXT` and `D_NEXT`, 13 bits (00_scope.md R8, `NEXT_BITS`). -/
abbrev NextCode := BitVec 13

/-- A packer or unpacker accumulator, 19 bits (00_scope.md R8, `ACC_BITS`). -/
abbrev Acc := BitVec 19

/-- A bit counter, 5 bits (00_scope.md R8, `CNT_BITS`). -/
abbrev Cnt := BitVec 5

/-- A 16-bit dimension field (00_scope.md R8, `DIM_BITS`). -/
abbrev Dim := BitVec 16

/-- A phrase: a finite sequence of symbols (00_scope.md R10). -/
abbrev Phrase := List Byte

/-- An item of `ENC_OUT` and `PCK_IN`: a code with the width it was produced at (10_state.md R50). -/
structure Pair where
  code  : Code
  width : Width
  deriving DecidableEq, Repr, Inhabited

/-- A palette entry, components in the order R, G, B (20_memory.md R63). -/
structure RGB where
  r : Byte
  g : Byte
  b : Byte
  deriving DecidableEq, Repr, Inhabited

/-- The colour of an entry beyond the supplied palette (44_serializer.md R220). -/
def RGB.black : RGB := ⟨0, 0, 0⟩

/-- The palette store `PAL`: 256 entries indexed by a `u8` (10_state.md R35). -/
abbrev Palette := Vector RGB 256

/-- The dynamic entries of `E_DICT`, newest first; the 256 roots are implicit (10_state.md R23). -/
abbrev EncDict := List (Phrase × Code)

/-- The dynamic entries of `D_DICT`, newest first; the 256 roots are implicit (10_state.md R26). -/
abbrev DecDict := List (Code × Phrase)

end Sys2Proof
end

