-- ==== Sys2Proof/Config.lean ====
section
/-! DEFINITION. The constants the spec fixes (00_scope.md R7) and the values it leaves open, as constants with no body. -/

namespace Sys2Proof.Config

/-- `CLEAR` (R7). -/
def clear : Code := 256
/-- `END` (R7). -/
def endCode : Code := 257
/-- `FIRST_DYN` (R7). -/
def firstDyn : NextCode := 258
/-- `DICT_MAX` (R7). -/
def dictMax : Nat := 4096
/-- `W_MIN` (R7). -/
def wMin : Width := 9
/-- `W_MAX` (R7). -/
def wMax : Nat := 12
/-- `MIN_CODE_SIZE` (R7). -/
def minCodeSize : Byte := 8
/-- `SUBBLOCK_MAX` (R7). -/
def subblockMax : Nat := 255
/-- `GCT_ENTRIES` (R7). -/
def gctEntries : Nat := 256
/-- `PAL_MAX` (R7). -/
def palMax : Nat := 256

/-- The registers that 46_pipeline_control.md R278 and 70_reset_and_hazards.md R330 leave unspecified. -/
structure Unspecified where
  eNext  : NextCode
  eWidth : Width
  eW     : Phrase
  eDict  : EncDict
  dNext  : NextCode
  dWidth : Width
  dPrev  : Phrase
  dDict  : DecDict
  pAcc   : Acc
  pCnt   : Cnt
  uAcc   : Acc
  uCnt   : Cnt
  rPos   : Nat
  iw     : Dim
  ih     : Dim
  lsw    : Dim
  lsh    : Dim
  plen   : Nat
  pal    : Palette
  pbuf   : List Byte
  deriving Inhabited

/-- FREE VALUE: what the unspecified registers hold after the n-th cancel or reset input (93 U3, U5; log 6). -/
opaque unspecified : Nat → Unspecified

/-- FREE VALUE: the code of a phrase that is no key of `E_DICT`; the rules never meet one (40_encoder.md R141; log 13). -/
opaque absentCode : Phrase → Code

/-- FREE VALUE: the phrase of a code that is present by number but has no entry; never met (10_state.md R41; log 13). -/
opaque absentPhrase : Code → Phrase

/-- FREE VALUE: `p[0]` of the empty phrase, which the spec does not define (00_scope.md R10; log 13). -/
opaque firstOfEmpty : Byte

end Sys2Proof.Config
end

