-- ==== Sys2Proof/Syntax.lean ====
section
/-! DEFINITION. The instructions: one constructor per row of spec/opcode_table.json, and the words they are written in. -/

namespace Sys2Proof

/-- The place a container field stands at (20_memory.md R69); `blocks` is any offset where the next sub-block's
length byte or the terminator stands, `trailer` the offset after the terminator. -/
inductive ContField where
  | sig | lsw | lsh | sflags | bg | aspect | gct | sep | left | top | iw | ih | iflags | mincode | blocks | trailer
  deriving DecidableEq, Repr, Inhabited

/-- The rows of the table: operations (30_encoding.md R118), code classes (R91), container fields (R96). -/
inductive Instr where
  -- control, 46_pipeline_control.md R276 to R278
  | ctlPause
  | ctlResume
  | ctlCancel
  -- encoder, 40_encoder.md R131 to R138
  | encInit
  | encSym (k : Byte)
  | encEnd
  -- decoder, 41_decoder.md R151 to R167
  | decInit
  | decCode (c : Code)
  | decEos
  -- packer, 42_bitpacker.md R181 to R183
  | pckInit
  | pckPush (c : Code) (w : Width)
  | pckFlush
  -- unpacker, 43_bitunpacker.md R201 to R203
  | unpInit
  | unpFeed (b : Byte)
  | unpPull (w : Width)
  -- serializer and parser, 44_serializer.md R216, 45_parser.md R236
  | serRun
  | parRun (cont : List Byte)
  -- composites, 46_pipeline_control.md R260, R265
  | runEncode (iw ih : Dim) (pal : List RGB) (x : List Byte)
  | runDecode (cont : List Byte)
  -- code words of the decoder's input stream, 30_encoding.md R91
  | codeClear
  | codeEnd
  | codeRoot (s : Byte)
  | codeDyn (c : Code)
  -- container fields, 20_memory.md R69
  | contSig
  | contLsw (v : Dim)
  | contLsh (v : Dim)
  | contSflags
  | contBg
  | contAspect
  | contGct (pal : List RGB)
  | contSep
  | contLeft
  | contTop
  | contIw (v : Dim)
  | contIh (v : Dim)
  | contIflags
  | contMincode
  | contSubblock (data : List Byte)
  | contTerm
  | contTrailer
  deriving DecidableEq, Repr

/-- Where a word enters the core: the operation-select port with its operand ports (30_encoding.md R118, R119),
`CODE_IN`, or `CONT_IN` with the field position the parser stands at (10_state.md R21, R50). -/
inductive Port where
  | op
  | codeIn
  | contIn (at_ : ContField)
  deriving DecidableEq, Repr

/-- Why bytes are no instruction. -/
inductive Reject where
  /-- The select code is none of 30_encoding.md R118's. -/
  | noSuchOperation (op : Byte)
  /-- The operand bytes, or the container, end inside the word (45_parser.md R237). -/
  | truncated
  /-- An operand does not fit its width, or a sequence marker is none (log 2, log 3). -/
  | operandOutOfRange
  /-- A fixed container field has another value (30_encoding.md R105). -/
  | illegalField
  deriving DecidableEq, Repr

end Sys2Proof
end

