-- ==== Sys2Proof/WellFormed.lean ====
section
/-! DEFINITION. The checks on an instruction's fields that its types do not already make. -/

namespace Sys2Proof

/-- `CODE.DYN` holds 258 to 4095 (30_encoding.md R91), the colour table 256 entries (R99), a data sub-block 1 to 255
bytes (R101). Every other operand's range is its type's (R119); a width outside 9..12 is well formed and not
enabled (42_bitpacker.md R185). -/
def Instr.wellFormed : Instr → Bool
  | .codeDyn c => 258 ≤ c.toNat
  | .contGct pal => pal.length == Config.gctEntries
  | .contSubblock data => 1 ≤ data.length && data.length ≤ Config.subblockMax
  | .ctlPause | .ctlResume | .ctlCancel | .encInit | .encSym _ | .encEnd | .decInit | .decCode _ | .decEos
  | .pckInit | .pckPush _ _ | .pckFlush | .unpInit | .unpFeed _ | .unpPull _ | .serRun | .parRun _
  | .runEncode _ _ _ _ | .runDecode _ | .codeClear | .codeEnd | .codeRoot _ | .contSig | .contLsw _ | .contLsh _
  | .contSflags | .contBg | .contAspect | .contSep | .contLeft | .contTop | .contIw _ | .contIh _ | .contIflags
  | .contMincode | .contTerm | .contTrailer => true

end Sys2Proof
end

