-- ==== Sys2Proof/Decode.lean ====
section
/-! DEFINITION. From words to instructions and back: the select codes of 30_encoding.md R118, the code classes of R91, the
container fields of 20_memory.md R69. The operand layout behind a select code is the model's own (R119 fixes none). -/

namespace Sys2Proof

/-! ### Byte order (00_scope.md R12, 20_memory.md R61) -/

/-- `lo8(v)`. -/
def lo8 (v : Dim) : Byte := v.setWidth 8
/-- `hi8(v)`. -/
def hi8 (v : Dim) : Byte := (v >>> 8).setWidth 8
/-- `le16(b0, b1)`. -/
def le16 (b0 b1 : Byte) : Dim := b1 ++ b0

/-- The three bytes of a palette entry, R, G, B (20_memory.md R63). -/
def RGB.bytes (c : RGB) : List Byte := [c.r, c.g, c.b]

/-- The entries of a colour table from its bytes, three at a time. -/
def triples : List Byte → List RGB
  | r :: g :: b :: rest => ⟨r, g, b⟩ :: triples rest
  | _ => []

/-! ### Operands behind a select code (DESIGN CHOICE, log 2): little-endian bytes, high bits zero -/

/-- What a decoding step answers: a value and the bytes behind it, or why there is none. -/
abbrev Take (α : Type) := Except Reject (α × List Byte)

/-- A `u8` operand. -/
def take8 : List Byte → Take Byte
  | b :: rest => .ok (b, rest)
  | [] => .error .truncated

/-- A `u4` operand: one byte, high nibble zero. -/
def take4 : List Byte → Take Width
  | b :: rest => if b.toNat < 16 then .ok (b.setWidth 4, rest) else .error .operandOutOfRange
  | [] => .error .truncated

/-- A `u12` operand: two bytes, low byte first, the top nibble zero. -/
def take12 : List Byte → Take Code
  | lo :: hi :: rest =>
    if hi.toNat < 16 then .ok ((le16 lo hi).setWidth 12, rest) else .error .operandOutOfRange
  | _ => .error .truncated

/-- A `u16` operand or field, low byte first. -/
def take16 : List Byte → Take Dim
  | lo :: hi :: rest => .ok (le16 lo hi, rest)
  | _ => .error .truncated

/-- A sequence of bytes (`SEQ_IF`, log 3): `01 b` for each item, `00` at the end. -/
def takeBytes : List Byte → Take (List Byte)
  | [] => .error .truncated
  | m :: rest =>
    if m = 0 then .ok ([], rest)
    else if m = 1 then
      match rest with
      | b :: more =>
        match takeBytes more with
        | .ok (bs, r) => .ok (b :: bs, r)
        | .error e => .error e
      | [] => .error .truncated
    else .error .operandOutOfRange

/-- A sequence of RGB triples (`SEQ_IF`, log 3): `01 r g b` for each item, `00` at the end. -/
def takeRgbs : List Byte → Take (List RGB)
  | [] => .error .truncated
  | m :: rest =>
    if m = 0 then .ok ([], rest)
    else if m = 1 then
      match rest with
      | r :: g :: b :: more =>
        match takeRgbs more with
        | .ok (cs, r') => .ok (⟨r, g, b⟩ :: cs, r')
        | .error e => .error e
      | _ => .error .truncated
    else .error .operandOutOfRange

/-- An operation with one operand. -/
def operand {α : Type} (take : List Byte → Take α) (mk : α → Instr) (bs : List Byte) : Take Instr :=
  match take bs with
  | .ok (a, rest) => .ok (mk a, rest)
  | .error e => .error e

/-- An operation with two operands. -/
def operand2 {α β : Type} (takeA : List Byte → Take α) (takeB : List Byte → Take β) (mk : α → β → Instr)
    (bs : List Byte) : Take Instr :=
  match takeA bs with
  | .ok (a, rest) => operand takeB (mk a) rest
  | .error e => .error e

/-- The operation a select code names, with its operands (30_encoding.md R118); bytes beyond them are not read. -/
def decodeOp : List Byte → Take Instr
  | [] => .error .truncated
  | op :: rest =>
    match op.toNat with
    | 0x02 => .ok (.ctlPause, rest)
    | 0x03 => .ok (.ctlResume, rest)
    | 0x04 => .ok (.ctlCancel, rest)
    | 0x10 => .ok (.encInit, rest)
    | 0x11 => operand take8 .encSym rest
    | 0x12 => .ok (.encEnd, rest)
    | 0x20 => .ok (.decInit, rest)
    | 0x21 => operand take12 .decCode rest
    | 0x22 => .ok (.decEos, rest)
    | 0x30 => .ok (.pckInit, rest)
    | 0x31 => operand2 take12 take4 .pckPush rest
    | 0x32 => .ok (.pckFlush, rest)
    | 0x40 => .ok (.unpInit, rest)
    | 0x41 => operand take8 .unpFeed rest
    | 0x42 => operand take4 .unpPull rest
    | 0x50 => .ok (.serRun, rest)
    | 0x60 => operand takeBytes .parRun rest
    | 0x70 =>
      match take16 rest with
      | .ok (iw, r1) =>
        match take16 r1 with
        | .ok (ih, r2) => operand2 takeRgbs takeBytes (.runEncode iw ih) r2
        | .error e => .error e
      | .error e => .error e
    | 0x71 => operand takeBytes .runDecode rest
    | _ => .error (.noSuchOperation op)

/-- The class of a code word, tested in the order CLEAR, END, ROOT, DYN (30_encoding.md R91). -/
def decodeCode (c : Code) : Instr :=
  if c = Config.clear then .codeClear
  else if c = Config.endCode then .codeEnd
  else if c.toNat < 256 then .codeRoot (c.setWidth 8)
  else .codeDyn c

/-- The signature `GIF89a` (44_serializer.md R217). -/
def signature : List Byte := [0x47, 0x49, 0x46, 0x38, 0x39, 0x61]

/-- A fixed field: its bytes stand there, or it is illegal (30_encoding.md R105); truncation is tested before the
value (60_exceptions.md R310). -/
def fixedField (want : List Byte) (i : Instr) (bs : List Byte) : Take Instr :=
  if bs.length < want.length then .error .truncated
  else if bs.take want.length = want then .ok (i, bs.drop want.length)
  else .error .illegalField

/-- A number of bytes of the container. -/
def takeN (n : Nat) (mk : List Byte → Instr) (bs : List Byte) : Take Instr :=
  if bs.length < n then .error .truncated else .ok (mk (bs.take n), bs.drop n)

/-- The field that stands at a position of the container (20_memory.md R69, 45_parser.md R236). -/
def decodeField : ContField → List Byte → Take Instr
  | .sig => fixedField signature .contSig
  | .lsw => operand take16 .contLsw
  | .lsh => operand take16 .contLsh
  | .sflags => fixedField [0xF7] .contSflags
  | .bg => fixedField [0x00] .contBg
  | .aspect => fixedField [0x00] .contAspect
  | .gct => takeN 768 (fun bs => .contGct (triples bs))
  | .sep => fixedField [0x2C] .contSep
  | .left => fixedField [0x00, 0x00] .contLeft
  | .top => fixedField [0x00, 0x00] .contTop
  | .iw => operand take16 .contIw
  | .ih => operand take16 .contIh
  | .iflags => fixedField [0x00] .contIflags
  | .mincode => fixedField [0x08] .contMincode
  | .blocks => fun bs =>
    match bs with
    | [] => .error .truncated
    | n :: rest => if n = 0 then .ok (.contTerm, rest) else takeN n.toNat .contSubblock rest
  | .trailer => fixedField [0x3B] .contTrailer

/-- The decoder: total on any bytes of any port. -/
def decode : Port → List Byte → Take Instr
  | .op => decodeOp
  | .codeIn => operand take12 decodeCode
  | .contIn f => decodeField f

/-! ### The encoder, from the same tables -/

/-- The bytes of a `u12` operand. -/
def code12 (c : Code) : List Byte := [c.setWidth 8, (c >>> 8).setWidth 8]
/-- The bytes of a `u16` operand or field. -/
def dim16 (v : Dim) : List Byte := [lo8 v, hi8 v]
/-- The byte of a `u4` operand. -/
def width4 (w : Width) : List Byte := [w.setWidth 8]
/-- The bytes of a byte sequence operand. -/
def bytesSeq (bs : List Byte) : List Byte := bs.flatMap (fun b => [1, b]) ++ [0]
/-- The bytes of a palette operand. -/
def rgbSeq (cs : List RGB) : List Byte := cs.flatMap (fun c => 1 :: c.bytes) ++ [0]

/-- The word of an instruction: its port and its bytes (30_encoding.md R118, R91, R96). -/
def encode : Instr → Port × List Byte
  | .ctlPause => (.op, [0x02])
  | .ctlResume => (.op, [0x03])
  | .ctlCancel => (.op, [0x04])
  | .encInit => (.op, [0x10])
  | .encSym k => (.op, [0x11, k])
  | .encEnd => (.op, [0x12])
  | .decInit => (.op, [0x20])
  | .decCode c => (.op, 0x21 :: code12 c)
  | .decEos => (.op, [0x22])
  | .pckInit => (.op, [0x30])
  | .pckPush c w => (.op, 0x31 :: (code12 c ++ width4 w))
  | .pckFlush => (.op, [0x32])
  | .unpInit => (.op, [0x40])
  | .unpFeed b => (.op, [0x41, b])
  | .unpPull w => (.op, 0x42 :: width4 w)
  | .serRun => (.op, [0x50])
  | .parRun cont => (.op, 0x60 :: bytesSeq cont)
  | .runEncode iw ih pal x => (.op, 0x70 :: (dim16 iw ++ dim16 ih ++ rgbSeq pal ++ bytesSeq x))
  | .runDecode cont => (.op, 0x71 :: bytesSeq cont)
  | .codeClear => (.codeIn, code12 256)
  | .codeEnd => (.codeIn, code12 257)
  | .codeRoot s => (.codeIn, code12 (s.setWidth 12))
  | .codeDyn c => (.codeIn, code12 c)
  | .contSig => (.contIn .sig, signature)
  | .contLsw v => (.contIn .lsw, dim16 v)
  | .contLsh v => (.contIn .lsh, dim16 v)
  | .contSflags => (.contIn .sflags, [0xF7])
  | .contBg => (.contIn .bg, [0x00])
  | .contAspect => (.contIn .aspect, [0x00])
  | .contGct pal => (.contIn .gct, pal.flatMap RGB.bytes)
  | .contSep => (.contIn .sep, [0x2C])
  | .contLeft => (.contIn .left, [0x00, 0x00])
  | .contTop => (.contIn .top, [0x00, 0x00])
  | .contIw v => (.contIn .iw, dim16 v)
  | .contIh v => (.contIn .ih, dim16 v)
  | .contIflags => (.contIn .iflags, [0x00])
  | .contMincode => (.contIn .mincode, [0x08])
  | .contSubblock data => (.contIn .blocks, BitVec.ofNat 8 data.length :: data)
  | .contTerm => (.contIn .blocks, [0x00])
  | .contTrailer => (.contIn .trailer, [0x3B])

/-! ### The words of spec/opcode_table.json -/

/-- The first `n` bytes of a word, the least significant first. -/
def bytesLE : Nat → Nat → List Byte
  | 0, _ => []
  | n + 1, w => BitVec.ofNat 8 w :: bytesLE n (w / 256)

/-- The port a one-byte table word enters by: a select code of R118, else the fixed field with that value. The value 00
is four rows' (CONT.BG, CONT.ASPECT, CONT.IFLAGS, CONT.TERM); it is read as CONT.BG (DESIGN CHOICE, log 10). -/
def portOfByte (w : Nat) : Port :=
  if w = 0xF7 then .contIn .sflags
  else if w = 0x00 then .contIn .bg
  else if w = 0x2C then .contIn .sep
  else if w = 0x08 then .contIn .mincode
  else if w = 0x3B then .contIn .trailer
  else .op

/-- The port a table word enters by, from its length and value (DESIGN CHOICE, log 10). -/
def portOfWord (nbits w : Nat) : Port :=
  if nbits ≤ 8 then portOfByte w
  else if nbits ≤ 16 then (if w < 4096 then .codeIn else .contIn .lsw)
  else if nbits = 48 then .contIn .sig
  else if nbits = 6144 then .contIn .gct
  else .contIn .blocks

/-- The bytes of a table word. CONT.SIG's number is written in container order, its first byte the most significant. -/
def tableBytes (nbits w : Nat) : List Byte :=
  if nbits = 48 then (if w % 256 = 0x47 then bytesLE 6 w else (bytesLE 6 w).reverse)
  else bytesLE ((nbits + 7) / 8) w

/-- Operand bytes the table gives no bits: zeros, as many as the longest operation needs. -/
def operandZeros : List Byte := List.replicate 8 0

/-- A table word as the bytes of the port it enters by. -/
def tableWord (nbits w : Nat) : Port × List Byte :=
  match portOfWord nbits w with
  | .op => (.op, tableBytes nbits w ++ operandZeros)
  | p => (p, tableBytes nbits w)

/-- The instruction the decoder reads from a word of spec/opcode_table.json. -/
def decodeTableWord (nbits w : Nat) : Option Instr :=
  match decode (tableWord nbits w).1 (tableWord nbits w).2 with
  | .ok (i, _) => some i
  | .error _ => none

end Sys2Proof
end

