-- ==== Sys2Proof/Machine/State.lean ====
section
/-! DEFINITION. The state of one instance of the core (10_state.md), the driver's queue, why a step stops, and reset. -/

namespace Sys2Proof.Machine

/-- The error kinds with "none" (60_exceptions.md R291); their numbers are in Flags.lean. -/
inductive Err where
  | none | invalidInput | paletteOverflow | dictionaryOverflow | decodeError
  deriving DecidableEq, Repr, Inhabited

/-- What has an `ERR` and a `PHASE` register with `FAIL`. -/
inductive UnitId where
  | enc | dec | ser | par | comp
  deriving DecidableEq, Repr

/-- `E_PHASE` (10_state.md R22). -/
inductive EncPhase where
  | idle | first | run | done | fail
  deriving DecidableEq, Repr, Inhabited

/-- `D_PHASE` (10_state.md R25). -/
inductive DecPhase where
  | idle | start | first | run | done | fail
  deriving DecidableEq, Repr, Inhabited

/-- `P_PHASE` (10_state.md R28). -/
inductive PckPhase where
  | idle | run | done
  deriving DecidableEq, Repr, Inhabited

/-- `U_PHASE` (10_state.md R30). -/
inductive UnpPhase where
  | idle | run
  deriving DecidableEq, Repr, Inhabited

/-- `S_PHASE`, `R_PHASE`, `T_PHASE` (10_state.md R32, R33, R37). -/
inductive RunPhase where
  | idle | done | fail
  deriving DecidableEq, Repr, Inhabited

/-- Unit ENC (10_state.md R22, R23) and its port `ENC_OUT` (R50). -/
structure Enc where
  phase : EncPhase := .idle
  err   : Err := .none
  next  : NextCode := 0
  width : Width := 0
  w     : Phrase := []
  dict  : EncDict := []
  out   : List Pair := []
  deriving DecidableEq, Repr

/-- Unit DEC (10_state.md R25, R26) and its ports `IDX_OUT`, `TRACE_OUT` (R50). -/
structure Dec where
  phase : DecPhase := .idle
  err   : Err := .none
  next  : NextCode := 0
  width : Width := 0
  prev  : Phrase := []
  dict  : DecDict := []
  idx   : List Byte := []
  trace : List (Code × Phrase) := []
  deriving DecidableEq, Repr

/-- Unit PCK (10_state.md R28) and its port `BYTE_OUT` (R50). -/
structure Pck where
  phase : PckPhase := .idle
  acc   : Acc := 0
  cnt   : Cnt := 0
  out   : List Byte := []
  deriving DecidableEq, Repr

/-- Unit UNP (10_state.md R30) and its port `UNP_OUT` (R50). -/
structure Unp where
  phase : UnpPhase := .idle
  acc   : Acc := 0
  cnt   : Cnt := 0
  out   : List Code := []
  deriving DecidableEq, Repr

/-- Unit SER (10_state.md R32) and its port `CONT_OUT` (R50). -/
structure Ser where
  phase : RunPhase := .idle
  err   : Err := .none
  out   : List Byte := []
  deriving DecidableEq, Repr

/-- The locals of `PAR.RUN` (45_parser.md R236), kept in State for a parse done field by field (R252; log 9). -/
structure ParLocals where
  lsw : Dim := 0
  lsh : Dim := 0
  iw  : Dim := 0
  ih  : Dim := 0
  pal : List RGB := []
  buf : List Byte := []
  deriving DecidableEq, Repr

/-- Unit PAR (10_state.md R33). `next` and `loc` are the model's own: which field a field-by-field parse stands at and
what it has read; at the signature no such parse is in progress (log 9). -/
structure Par where
  phase : RunPhase := .idle
  err   : Err := .none
  pos   : Nat := 0
  next  : ContField := .sig
  loc   : ParLocals := {}
  deriving DecidableEq, Repr

/-- Status of the last composite, `T_PHASE` and `T_ERR` (10_state.md R37). -/
structure Comp where
  phase : RunPhase := .idle
  err   : Err := .none
  deriving DecidableEq, Repr

/-- Which of the registers `SER.RUN` reads have been written since hardware reset (44_serializer.md R216). It enables
`SER.RUN` and does nothing else; the registers hold values whether written or not (log 4, log 5). -/
structure Written where
  iw   : Bool := false
  ih   : Bool := false
  plen : Bool := false
  pbuf : Bool := false
  pal  : BitVec 256 := 0
  deriving DecidableEq, Repr

/-- The shared registers: `C_IW`, `C_IH`, `C_LSW`, `C_LSH`, `C_PLEN`, `PAL`, `PBUF` (10_state.md R34 to R36). -/
structure Shared where
  iw      : Dim := 0
  ih      : Dim := 0
  lsw     : Dim := 0
  lsh     : Dim := 0
  plen    : Nat := 0
  pal     : Palette := Vector.replicate 256 RGB.black
  pbuf    : List Byte := []
  written : Written := {}
  deriving DecidableEq, Repr

/-- A write of the driver to a shared register (10_state.md R34, R35, R39; `PBUF`: 70_reset_and_hazards.md R332, R334). -/
inductive DriverWrite where
  | iw (v : Dim)
  | ih (v : Dim)
  | plen (n : Nat)
  | pal (i : Byte) (c : RGB)
  | pbufClear
  | pbufAppend (b : Byte)
  deriving DecidableEq, Repr

/-- What the driver presents to the core, one item a step (log 1). -/
inductive Item where
  /-- An operation: its select code, then the bytes of its operand ports. -/
  | op (bytes : List Byte)
  /-- A code word on `CODE_IN` for the decoder. -/
  | code (c : Code)
  /-- The bytes of a container on `CONT_IN`, parsed one field a step. -/
  | cont (bytes : List Byte)
  /-- A register write. -/
  | write (w : DriverWrite)
  /-- The hardware reset input. -/
  | resetInput
  deriving DecidableEq, Repr

/-- The state of one instance. -/
structure State where
  enc       : Enc := {}
  dec       : Dec := {}
  pck       : Pck := {}
  unp       : Unp := {}
  ser       : Ser := {}
  par       : Par := {}
  comp      : Comp := {}
  shared    : Shared := {}
  /-- `CTL_PAUSED` (10_state.md R37). -/
  paused    : Bool := false
  /-- What the driver has issued and the core has not taken, oldest first (log 1). -/
  inq       : List Item := []
  /-- How many times unspecified values were taken: the model's own counter (log 6). -/
  freeCount : Nat := 0
  deriving DecidableEq, Repr

/-- Why the machine stops with a fault. The spec's errors are NEXT states (60_exceptions.md R300), not these. -/
inductive Fault where
  /-- Raised by `DECODE` when the model's bound on its pull loop runs out. Safe: never reached, since each round of the
  loop takes at least 9 bits or ends the run (46_pipeline_control.md R267; log 16). -/
  | decodeLoopBound
  deriving DecidableEq, Repr

/-- Why there is no transition: the operation is not enabled (00_scope.md R15, 60_exceptions.md R312), or the word is no
operation (30_encoding.md R118). All are safe: the model stops where the spec has the model refuse (log 7). -/
inductive Refusal where
  /-- No meaning yet; raised by the arms of `exec` only. Safe. -/
  | notModelled (mnemonic : String)
  /-- Raised by every operation but `CTL.RESUME` and `CTL.CANCEL` while `CTL_PAUSED = 1` (10_state.md R37). Safe. -/
  | paused
  /-- Raised by `CTL.RESUME` while `CTL_PAUSED = 0` (46_pipeline_control.md R277). Safe. -/
  | notPaused
  /-- Raised by a data operation in a phase that does not enable it (10_state.md R24, R27, R29, R31). Safe. -/
  | wrongPhase
  /-- Raised by `PCK.PUSH` and `UNP.PULL` with a width outside 9..12 (42_bitpacker.md R185, 43_bitunpacker.md R204). Safe. -/
  | widthOutOfRange
  /-- Raised by `UNP.FEED` with `U_CNT > 11` (43_bitunpacker.md R204). Safe. -/
  | tooManyBits
  /-- Raised by `UNP.PULL` with `U_CNT < width` (43_bitunpacker.md R204). Safe. -/
  | tooFewBits
  /-- Raised by `SER.RUN` when the condition that enables it fails, "the registers it reads written since hardware reset"
  (44_serializer.md R216); a model must refuse it then (00_scope.md R15, 10_state.md R52). Safe. -/
  | notWritten
  /-- Raised by a container field row when the parse does not stand at that field (log 9). Safe. -/
  | notAtField
  /-- Raised by `step` when the bytes of an operation select none (30_encoding.md R118) or lack an operand. Safe. -/
  | noOperation (why : Reject)
  deriving DecidableEq, Repr

/-- What a step of this machine answers. -/
abbrev Result := Host.Outcome State Fault Refusal

/-- The state after hardware reset: every phase `IDLE`, every error 0, not paused (70_reset_and_hazards.md R330). The other
registers are unspecified there; the defaults above are DESIGN CHOICE values (log 4). -/
def State.reset : State := {}

end Sys2Proof.Machine
end

