-- ==== Sys2Proof/Machine/Operands.lean ====
section
/-! DEFINITION. The access primitives of 20_memory.md R78 to R82: dictionaries, palette, packed-byte buffer. -/

namespace Sys2Proof.Machine

/-! ### Encoder dictionary (20_memory.md R78, R80) -/

/-- The code of a key among the dynamic entries. -/
def encFind : EncDict → Phrase → Option Code
  | [], _ => none
  | (q, c) :: rest, p => if q = p then some c else encFind rest p

/-- `EncLookup(p)`: a root for a one-symbol phrase, else a dynamic entry; `none` is the spec's `absent`. -/
def encLookup (d : EncDict) : Phrase → Option Code
  | [k] => some (k.setWidth 12)
  | p => encFind d p

/-- `EncHas(p)`. -/
def encHas (d : EncDict) (p : Phrase) : Bool := (encLookup d p).isSome

/-- `code(W)`: `EncLookup(W)`, which is always defined where it is used (40_encoder.md R141); else a free value (log 13). -/
def encCode (d : EncDict) (p : Phrase) : Code := (encLookup d p).getD (Config.absentCode p)

/-- `EncInsert(p, c)`; used with `c = E_NEXT` below 4096, so 12 bits hold it. -/
def encInsert (d : EncDict) (p : Phrase) (c : NextCode) : EncDict := (p, c.setWidth 12) :: d

/-- `Roots` for the encoder: no dynamic entry (R80). -/
def encRoots : EncDict := []

/-! ### Decoder dictionary (20_memory.md R79, R80) -/

/-- `DecHas(c)`: `c < 256 or (258 <= c and c < D_NEXT)`. -/
def decHas (next : NextCode) (c : Code) : Bool :=
  c.toNat < 256 || (258 ≤ c.toNat && c.toNat < next.toNat)

/-- The phrase of a code among the dynamic entries. -/
def decFind : DecDict → Code → Option Phrase
  | [], _ => none
  | (q, p) :: rest, c => if q = c then some p else decFind rest c

/-- `DecLookup(c)`: `[c]` for a root, the inserted phrase otherwise; a code with no entry is never looked up, its phrase
is a free value (log 13). -/
def decLookup (d : DecDict) (c : Code) : Phrase :=
  if c.toNat < 256 then [c.setWidth 8] else (decFind d c).getD (Config.absentPhrase c)

/-- `DecInsert(c, p)`; used with `c = D_NEXT` below 4096. -/
def decInsert (d : DecDict) (c : NextCode) (p : Phrase) : DecDict := (c.setWidth 12, p) :: d

/-- `Roots` for the decoder: no dynamic entry (R80). -/
def decRoots : DecDict := []

/-- `p[0]`; a free value for the empty phrase, for which the spec defines none (00_scope.md R10; log 13). -/
def firstSymbol : Phrase → Byte
  | [] => Config.firstOfEmpty
  | k :: _ => k

/-! ### Palette (20_memory.md R81) -/

/-- `PAL[i] <- c` for `i` in order from the given index; there are 256 entries and no other index is written. -/
def palWrite : Palette → Nat → List RGB → Palette
  | pal, _, [] => pal
  | pal, i, c :: rest => palWrite (pal.setIfInBounds i c) (i + 1) rest

/-- The set of palette indices below `n`, as the written bits of the first `n` entries. -/
def firstEntries (n : Nat) : BitVec 256 := BitVec.ofNat 256 (2 ^ n - 1)

/-- Every entry a `SER.RUN` with this `C_PLEN` reads has been written (44_serializer.md R216). -/
def palWritten (w : Written) (plen : Nat) : Bool := w.pal &&& firstEntries plen == firstEntries plen

/-! ### Driver writes (10_state.md R34, R35, R39) -/

/-- The effect of one driver write. Appending to a `PBUF` that nothing has written leaves it unwritten: what precedes the
byte is unspecified (log 11). -/
def Shared.write (r : Shared) : DriverWrite → Shared
  | .iw v => { r with iw := v, written := { r.written with iw := true } }
  | .ih v => { r with ih := v, written := { r.written with ih := true } }
  | .plen n => { r with plen := n, written := { r.written with plen := true } }
  | .pal i c =>
    { r with pal := r.pal.setIfInBounds i.toNat c
             written := { r.written with pal := r.written.pal ||| BitVec.ofNat 256 (2 ^ i.toNat) } }
  | .pbufClear => { r with pbuf := [], written := { r.written with pbuf := true } }
  | .pbufAppend b => { r with pbuf := r.pbuf ++ [b] }

end Sys2Proof.Machine
end

