-- ==== Sys2Proof/Machine/Flags.lean ====
section
/-! DEFINITION. Status: the numbers of phases and errors, and the width tests. The core has no condition codes (10_state.md
R38): its flags are the phases `DONE` and `FAIL` and the error code of each unit. -/

namespace Sys2Proof.Machine

/-- The number an `ERR` register holds (60_exceptions.md R291). -/
def Err.code : Err → BitVec 3
  | .none => 0
  | .invalidInput => 1
  | .paletteOverflow => 2
  | .dictionaryOverflow => 3
  | .decodeError => 4

/-- The value of `E_PHASE` as the driver reads it (10_state.md R22). -/
def EncPhase.code : EncPhase → BitVec 3
  | .idle => 0
  | .first => 1
  | .run => 2
  | .done => 3
  | .fail => 4

/-- The value of `D_PHASE` as the driver reads it (10_state.md R25). -/
def DecPhase.code : DecPhase → BitVec 3
  | .idle => 0
  | .start => 1
  | .first => 2
  | .run => 3
  | .done => 4
  | .fail => 5

/-- The value of `P_PHASE` as the driver reads it (10_state.md R28). -/
def PckPhase.code : PckPhase → BitVec 2
  | .idle => 0
  | .run => 1
  | .done => 2

/-- The value of `U_PHASE` as the driver reads it (10_state.md R30). -/
def UnpPhase.code : UnpPhase → BitVec 1
  | .idle => 0
  | .run => 1

/-- The value of `S_PHASE`, `R_PHASE`, `T_PHASE` as the driver reads it (10_state.md R32, R33, R37). -/
def RunPhase.code : RunPhase → BitVec 2
  | .idle => 0
  | .done => 1
  | .fail => 2

/-- A width operand is 9, 10, 11 or 12 (30_encoding.md R119). -/
def legalWidth (w : Width) : Bool := 9 ≤ w.toNat && w.toNat ≤ 12

/-- One step of width growth: `if n > 2^width and width < 12: width + 1` (40_encoder.md R135, 41_decoder.md R166). -/
def growWidth (n : Nat) (w : Width) : Width := if 2 ^ w.toNat < n ∧ w.toNat < Config.wMax then w + 1 else w

/-- The insertion that must not happen: `nextCode >= 4096` (40_encoder.md R140, 41_decoder.md R161). -/
def dictFull (next : NextCode) : Bool := Config.dictMax ≤ next.toNat

end Sys2Proof.Machine
end

