-- ==== Sys2Proof/Machine/Ops.lean ====
section
/-! DEFINITION. Operations over the state that every family uses: one setter per field, the enabling test, raising an error
(this hardware's exception), and the values nothing specifies. -/

namespace Sys2Proof.Machine

/-! ### Setters -/

def State.setEnc (s : State) (e : Enc) : State := { s with enc := e }
def State.setDec (s : State) (d : Dec) : State := { s with dec := d }
def State.setPck (s : State) (p : Pck) : State := { s with pck := p }
def State.setUnp (s : State) (u : Unp) : State := { s with unp := u }
def State.setSer (s : State) (e : Ser) : State := { s with ser := e }
def State.setPar (s : State) (p : Par) : State := { s with par := p }
def State.setComp (s : State) (c : Comp) : State := { s with comp := c }
def State.setShared (s : State) (r : Shared) : State := { s with shared := r }
def State.setPaused (s : State) (b : Bool) : State := { s with paused := b }
def State.setInq (s : State) (q : List Item) : State := { s with inq := q }

/-! ### Enabling (00_scope.md R15) -/

/-- The operation takes its transition when every condition holds; else it is refused for the first that fails. -/
def whenEnabled : List (Bool × Refusal) → State → Result
  | [], t => .next t
  | (ok, why) :: rest, t => if ok then whenEnabled rest t else .refused why

/-- The condition common to all operations but the control ones (10_state.md R37). -/
def running (s : State) : Bool × Refusal := (!s.paused, .paused)

/-! ### Raising an error and after (60_exceptions.md R300, R301) -/

/-- `raise E` in a unit, this hardware's trap entry (60_exceptions.md R300): `X_ERR <- code(E)`, `X_PHASE <- FAIL`, nothing
else. It is applied to the state BEFORE the operation, which drops the operation's writes and emits. For `PAR` it also
ends the model's field-by-field parse (log 9); `fail e` of a composite (46_pipeline_control.md R260) is the unit `comp`.
There is no return: a unit's `INIT` or next run, a cancel or reset are the only ways out (R301). -/
def raise (u : UnitId) (e : Err) (s : State) : State :=
  match u with
  | .enc => s.setEnc { s.enc with err := e, phase := .fail }
  | .dec => s.setDec { s.dec with err := e, phase := .fail }
  | .ser => s.setSer { s.ser with err := e, phase := .fail }
  | .par => s.setPar { s.par with err := e, phase := .fail, next := .sig, loc := {} }
  | .comp => s.setComp { err := e, phase := .fail }

/-! ### Unspecified values (46_pipeline_control.md R278, 70_reset_and_hazards.md R330) -/

/-- Every phase `IDLE`, every error 0, not paused, nothing emitted, no parse in progress, nothing written; every other
register holds a free value (log 6). The driver's queue is the driver's and stays. -/
def clearAll (s : State) : State :=
  let u := Config.unspecified s.freeCount
  { enc := { next := u.eNext, width := u.eWidth, w := u.eW, dict := u.eDict }
    dec := { next := u.dNext, width := u.dWidth, prev := u.dPrev, dict := u.dDict }
    pck := { acc := u.pAcc, cnt := u.pCnt }
    unp := { acc := u.uAcc, cnt := u.uCnt }
    par := { pos := u.rPos }
    shared := { iw := u.iw, ih := u.ih, lsw := u.lsw, lsh := u.lsh, plen := u.plen, pal := u.pal, pbuf := u.pbuf }
    inq := s.inq
    freeCount := s.freeCount + 1 }

end Sys2Proof.Machine
end

