-- ==== Sys2Proof/Machine/Dec.lean ====
section
/-! DEFINITION. Unit DEC: `DEC.INIT`, `DEC.CODE`, `DEC.EOS` (41_decoder.md). A unit operation answers the unit's new state,
its ports included, or the error it raises, in which case the state is not used (60_exceptions.md R300). -/

namespace Sys2Proof.Machine

/-- What an operation of DEC does. -/
abbrev DecEffect := Except Err Dec

/-- The unit after `DEC.INIT` (R151). Its ports start a new run with nothing emitted (00_scope.md R13; log 12). -/
def decStart : Dec :=
  { phase := .start, err := .none, next := Config.firstDyn, width := Config.wMin, prev := [], dict := decRoots
    idx := [], trace := [] }

/-- A CLEAR, leading or in mid-stream (R152, R157): a new segment. -/
def decClear (d : Dec) : DecEffect :=
  .ok { d with dict := decRoots, next := Config.firstDyn, width := Config.wMin, prev := [], phase := .first }

/-- END, where a first data code is expected or after one (R153, R156). -/
def decEnd (d : Dec) : DecEffect := .ok { d with phase := .done }

/-- The first data code of a segment, a root (R154). -/
def decFirst (k : Byte) (d : Dec) : DecEffect :=
  .ok { d with idx := d.idx ++ [k], prev := [k], phase := .run }

/-- The entry of the common tail, its trace item, the increment and the width test on `D_NEXT + 1` (R161, R162, R166). -/
def decAssign (entry : Phrase) (d : Dec) : Dec :=
  { d with
    dict := decInsert d.dict d.next entry
    trace := d.trace ++ [(d.next.setWidth 12, entry)]
    next := d.next + 1
    width := growWidth ((d.next + 1).toNat + 1) d.width }

/-- `if D_NEXT == 4096`: the decoder's own bound (R165). -/
def decReset (d : Dec) : Dec :=
  if d.next.toNat = Config.dictMax then
    { d with dict := decRoots, next := Config.firstDyn, width := Config.wMin }
  else d

/-- The common tail of R158 and R159 with `current` found (R164). -/
def decTail (current : Phrase) (d : Dec) : DecEffect :=
  if dictFull d.next then .error .dictionaryOverflow
  else
    let r := decReset (decAssign (d.prev ++ [firstSymbol current]) d)
    .ok { r with idx := r.idx ++ current, prev := current }

/-- A data code in `RUN`: present (R158), the KwKwK case (R159), or above `D_NEXT` (R160). -/
def decData (c : Code) (d : Dec) : DecEffect :=
  if decHas d.next c then decTail (decLookup d.dict c) d
  else if c.toNat = d.next.toNat then decTail (d.prev ++ [firstSymbol d.prev]) d
  else .error .decodeError

/-- A ROOT code: first data code (R154) or present (R158). -/
def decRoot (k : Byte) (d : Dec) : DecEffect :=
  match d.phase with
  | .start | .first => decFirst k d
  | .run => decData (k.setWidth 12) d
  | .idle | .done | .fail => .ok d

/-- A DYN code: illegal as first data code (R155), else R158 to R160. -/
def decDyn (c : Code) (d : Dec) : DecEffect :=
  match d.phase with
  | .start | .first => .error .decodeError
  | .run => decData c d
  | .idle | .done | .fail => .ok d

/-- A code of the CodeStream by its class, tested in the order CLEAR, END, ROOT, DYN (30_encoding.md R91). -/
def decCode (c : Code) (d : Dec) : DecEffect :=
  if c = Config.clear then decClear d
  else if c = Config.endCode then decEnd d
  else if c.toNat < 256 then decRoot (c.setWidth 8) d
  else decDyn c d

/-- `DEC.EOS`: the code source is exhausted with no END (R167). -/
def decEos (d : Dec) : DecEffect :=
  match d.phase with
  | .start => .error .invalidInput
  | .first | .run => .error .decodeError
  | .idle | .done | .fail => .ok d

/-- The effect on the state: the unit's new state, or the error is raised. -/
def decEffect (r : DecEffect) (s : State) : State :=
  match r with
  | .ok d => s.setDec d
  | .error x => raise .dec x s

/-- The phases that enable `DEC.CODE` and `DEC.EOS` (10_state.md R27). -/
def decOpen (s : State) : Bool × Refusal :=
  (s.dec.phase = .start || s.dec.phase = .first || s.dec.phase = .run, .wrongPhase)

/-- `DEC.INIT` (R151). -/
def execDecInit (s : State) : Result := whenEnabled [running s] (s.setDec decStart)

/-- `DEC.CODE c` (R152 to R166). -/
def execDecCode (c : Code) (s : State) : Result :=
  whenEnabled [running s, decOpen s] (decEffect (decCode c s.dec) s)

/-- `DEC.EOS` (R167). -/
def execDecEos (s : State) : Result :=
  whenEnabled [running s, decOpen s] (decEffect (decEos s.dec) s)

end Sys2Proof.Machine
end

