-- ==== Sys2Proof/Machine/CodeWords.lean ====
section
/-! DEFINITION. The code classes of the decoder's input stream (30_encoding.md R91) as instructions: the code word arrives on
`CODE_IN` and the decoder does with it what `DEC.CODE` does with its value (log 8). -/

namespace Sys2Proof.Machine

/-- `CODE.CLEAR`: leading (41_decoder.md R152) or in mid-stream (R157). -/
def execCodeClear (s : State) : Result := whenEnabled [running s, decOpen s] (decEffect (decClear s.dec) s)

/-- `CODE.END` (41_decoder.md R153, R156). -/
def execCodeEnd (s : State) : Result := whenEnabled [running s, decOpen s] (decEffect (decEnd s.dec) s)

/-- `CODE.ROOT` (41_decoder.md R154, R158). -/
def execCodeRoot (k : Byte) (s : State) : Result := whenEnabled [running s, decOpen s] (decEffect (decRoot k s.dec) s)

/-- `CODE.DYN` (41_decoder.md R155, R158 to R160). -/
def execCodeDyn (c : Code) (s : State) : Result := whenEnabled [running s, decOpen s] (decEffect (decDyn c s.dec) s)

end Sys2Proof.Machine
end

