-- ==== Sys2Proof/Machine/Par.lean ====
section
/-! DEFINITION. Unit PAR: `PAR.RUN` (45_parser.md R236). The parse runs over a cursor, the position `R_POS` and the bytes from
there on; a failing check answers the offset of the failing field (R246). -/

namespace Sys2Proof.Machine

/-- `R_POS` and the container's bytes from there on. -/
structure Cursor where
  pos  : Nat
  rest : List Byte
  deriving DecidableEq, Repr

/-- `take(n)` (R236). -/
def parTake (n : Nat) (c : Cursor) : Except Nat (List Byte × Cursor) :=
  if c.rest.length < n then .error c.pos else .ok (c.rest.take n, ⟨c.pos + n, c.rest.drop n⟩)

/-- `expect(bytes)` (R236). -/
def parExpect (want : List Byte) (c : Cursor) : Except Nat Cursor := do
  let (v, c') ← parTake want.length c
  if v = want then .ok c' else .error c.pos

/-- A 16-bit little-endian field (R239, R241). -/
def parDim (c : Cursor) : Except Nat (Dim × Cursor) := do
  let (v, c') ← parTake 2 c
  .ok (le16 (v.getD 0 0) (v.getD 1 0), c')

/-- `n` entries of the colour table (R240). -/
def parTable : Nat → Cursor → Except Nat (List RGB × Cursor)
  | 0, c => .ok ([], c)
  | n + 1, c => do
    let (v, c') ← parTake 3 c
    let (more, c'') ← parTable n c'
    .ok (⟨v.getD 0 0, v.getD 1 0, v.getD 2 0⟩ :: more, c'')

/-- The data sub-blocks and the terminator (R243). The first argument bounds the number of length bytes read; each
sub-block takes at least one byte, so the number of bytes left and one more is enough (log 16). -/
def parBlocks : Nat → Cursor → Except Nat (List Byte × Cursor)
  | 0, c => .error c.pos
  | n + 1, c => do
    let (v, c') ← parTake 1 c
    let len := (v.getD 0 0).toNat
    if len = 0 then .ok ([], c')
    else if c'.rest.length < len then .error c.pos
    else
      let (more, c'') ← parBlocks n ⟨c'.pos + len, c'.rest.drop len⟩
      .ok (c'.rest.take len ++ more, c'')

/-- The parse of a container, check by check in byte order: the locals and the offset behind the trailer (R236). -/
def parParse (cont : List Byte) : Except Nat (ParLocals × Nat) := do
  let c ← parExpect signature ⟨0, cont⟩
  let (lsw, c) ← parDim c
  let (lsh, c) ← parDim c
  let c ← parExpect [0xF7] c
  let c ← parExpect [0x00] c
  let c ← parExpect [0x00] c
  let (pal, c) ← parTable Config.gctEntries c
  let c ← parExpect [0x2C] c
  let c ← parExpect [0x00, 0x00] c
  let c ← parExpect [0x00, 0x00] c
  let (iw, c) ← parDim c
  let (ih, c) ← parDim c
  let c ← parExpect [0x00] c
  let c ← parExpect [Config.minCodeSize] c
  let (buf, c) ← parBlocks (c.rest.length + 1) c
  let c ← parExpect [0x3B] c
  .ok ({ lsw := lsw, lsh := lsh, iw := iw, ih := ih, pal := pal, buf := buf }, c.pos)

/-- The writes of a completed parse: the shared registers from the locals, `R_POS`, `DONE` (R236, R240). -/
def parCommit (l : ParLocals) (pos : Nat) (s : State) : State :=
  (s.setPar { phase := .done, err := .none, pos := pos }).setShared
    { iw := l.iw, ih := l.ih, lsw := l.lsw, lsh := l.lsh, plen := Config.gctEntries
      pal := palWrite s.shared.pal 0 l.pal, pbuf := l.buf
      written := { iw := true, ih := true, plen := true, pbuf := true, pal := s.shared.written.pal ||| firstEntries 256 } }

/-- A failed parse: `R_POS` is the failing field's offset, `DecodeError` is raised, nothing else changes (R236, R246). -/
def parFail (pos : Nat) (s : State) : State := raise .par .decodeError (s.setPar { s.par with pos := pos })

/-- `PAR.RUN cont` (R236). -/
def parRun (cont : List Byte) (s : State) : State :=
  match parParse cont with
  | .ok (l, pos) => parCommit l pos s
  | .error pos => parFail pos s

/-- `PAR.RUN cont` (R236). -/
def execParRun (cont : List Byte) (s : State) : Result := whenEnabled [running s] (parRun cont s)

end Sys2Proof.Machine
end

