-- ==== Sys2Proof/Machine/Container.lean ====
section
/-! DEFINITION. The container's fields (20_memory.md R69) as instructions: a parse done field by field, as 45_parser.md R252
allows, with `R_POS` in the place of a program counter (10_state.md R21). The locals of R236 stand in `par.loc`, the field
the parse stands at in `par.next` (log 9). -/

namespace Sys2Proof.Machine

/-- The offset of a field (20_memory.md R69); of the sub-blocks and the trailer, the least they can have. -/
def fieldOffset : ContField → Nat
  | .sig => 0
  | .lsw => 6
  | .lsh => 8
  | .sflags => 10
  | .bg => 11
  | .aspect => 12
  | .gct => 13
  | .sep => 781
  | .left => 782
  | .top => 784
  | .iw => 786
  | .ih => 788
  | .iflags => 790
  | .mincode => 791
  | .blocks => 792
  | .trailer => 793

/-- The parse stands at this field. -/
def atField (f : ContField) (s : State) : Bool × Refusal := (s.par.next = f, .notAtField)

/-- A field of `n` bytes is read: `R_POS` moves past it, the parse stands at the next field, the locals take its value. -/
def fieldRead (n : Nat) (nxt : ContField) (l : ParLocals) (s : State) : State :=
  s.setPar { s.par with pos := s.par.pos + n, next := nxt, loc := l }

/-- The signature starts a parse: `R_POS <- 0; R_ERR <- 0` come before it (R236, R238). -/
def fieldSig (s : State) : State :=
  s.setPar { s.par with pos := signature.length, err := .none, next := .lsw, loc := {} }

/-- Where a field starts: at 0 for the signature, which begins a parse, else at `R_POS`. -/
def fieldStart (s : State) : Nat := if s.par.next = .sig then 0 else s.par.pos

/-- The bytes at the parse's position are no legal field (30_encoding.md R105): `DecodeError`, with `R_POS` at the failing
field; in the colour table that is the entry the container ends in (R240, R246). -/
def fieldIllegal (bytes : List Byte) (s : State) : State :=
  parFail (if s.par.next = .gct then fieldStart s + 3 * (bytes.length / 3) else fieldStart s) s

/-- `CONT.SIG` (R238). -/
def execContSig (s : State) : Result := whenEnabled [running s, atField .sig s] (fieldSig s)

/-- `CONT.LSW` (R239). -/
def execContLsw (v : Dim) (s : State) : Result :=
  whenEnabled [running s, atField .lsw s] (fieldRead 2 .lsh { s.par.loc with lsw := v } s)

/-- `CONT.LSH` (R239). -/
def execContLsh (v : Dim) (s : State) : Result :=
  whenEnabled [running s, atField .lsh s] (fieldRead 2 .sflags { s.par.loc with lsh := v } s)

/-- `CONT.SFLAGS` (R239). -/
def execContSflags (s : State) : Result :=
  whenEnabled [running s, atField .sflags s] (fieldRead 1 .bg s.par.loc s)

/-- `CONT.BG` (R239). -/
def execContBg (s : State) : Result := whenEnabled [running s, atField .bg s] (fieldRead 1 .aspect s.par.loc s)

/-- `CONT.ASPECT` (R239). -/
def execContAspect (s : State) : Result := whenEnabled [running s, atField .aspect s] (fieldRead 1 .gct s.par.loc s)

/-- `CONT.GCT` (R240). -/
def execContGct (pal : List RGB) (s : State) : Result :=
  whenEnabled [running s, atField .gct s] (fieldRead (3 * pal.length) .sep { s.par.loc with pal := pal } s)

/-- `CONT.SEP` (R241). -/
def execContSep (s : State) : Result := whenEnabled [running s, atField .sep s] (fieldRead 1 .left s.par.loc s)

/-- `CONT.LEFT` (R241). -/
def execContLeft (s : State) : Result := whenEnabled [running s, atField .left s] (fieldRead 2 .top s.par.loc s)

/-- `CONT.TOP` (R241). -/
def execContTop (s : State) : Result := whenEnabled [running s, atField .top s] (fieldRead 2 .iw s.par.loc s)

/-- `CONT.IW` (R241). -/
def execContIw (v : Dim) (s : State) : Result :=
  whenEnabled [running s, atField .iw s] (fieldRead 2 .ih { s.par.loc with iw := v } s)

/-- `CONT.IH` (R241). -/
def execContIh (v : Dim) (s : State) : Result :=
  whenEnabled [running s, atField .ih s] (fieldRead 2 .iflags { s.par.loc with ih := v } s)

/-- `CONT.IFLAGS` (R241). -/
def execContIflags (s : State) : Result :=
  whenEnabled [running s, atField .iflags s] (fieldRead 1 .mincode s.par.loc s)

/-- `CONT.MINCODE` (R242). -/
def execContMincode (s : State) : Result :=
  whenEnabled [running s, atField .mincode s] (fieldRead 1 .blocks s.par.loc s)

/-- `CONT.SUBBLOCK`: the length byte and the data, which join the packed bytes (R243). -/
def execContSubblock (data : List Byte) (s : State) : Result :=
  whenEnabled [running s, atField .blocks s]
    (fieldRead (1 + data.length) .blocks { s.par.loc with buf := s.par.loc.buf ++ data } s)

/-- `CONT.TERM`: the zero length byte that closes the sub-blocks (R243). -/
def execContTerm (s : State) : Result := whenEnabled [running s, atField .blocks s] (fieldRead 1 .trailer s.par.loc s)

/-- `CONT.TRAILER`: every check has passed, the shared registers are written (R236, R244). -/
def execContTrailer (s : State) : Result :=
  whenEnabled [running s, atField .trailer s] (parCommit s.par.loc (s.par.pos + 1) s)

end Sys2Proof.Machine
end

