-- ==== Sys2Proof/Machine/Ctl.lean ====
section
/-! DEFINITION. Control: `CTL.PAUSE`, `CTL.RESUME`, `CTL.CANCEL` (46_pipeline_control.md R276 to R278). -/

namespace Sys2Proof.Machine

/-- `CTL.PAUSE` (R276). -/
def execCtlPause (s : State) : Result := whenEnabled [running s] (s.setPaused true)

/-- `CTL.RESUME` (R277). -/
def execCtlResume (s : State) : Result := whenEnabled [(s.paused, .notPaused)] (s.setPaused false)

/-- `CTL.CANCEL` (R278): always enabled; the state of hardware reset, in which everything else is unspecified. -/
def execCtlCancel (s : State) : Result := whenEnabled [] (clearAll s)

end Sys2Proof.Machine
end

