-- ==== Sys2Proof/Machine/Enc.lean ====
section
/-! DEFINITION. Unit ENC: `ENC.INIT`, `ENC.SYM`, `ENC.END` (40_encoder.md). A unit operation answers the unit's new state and
the pairs it emits, or the error it raises, in which case neither is used (60_exceptions.md R300). -/

namespace Sys2Proof.Machine

/-- What an operation of ENC does: the unit after it and the pairs for `ENC_OUT`, or an error. -/
abbrev EncEffect := Except Err (Enc × List Pair)

/-- The unit after `ENC.INIT` (R131). Its port starts a new run with nothing emitted (00_scope.md R13; log 12). -/
def encStart : Enc :=
  { phase := .first, err := .none, next := Config.firstDyn, width := Config.wMin, w := [], dict := encRoots, out := [] }

/-- `if E_NEXT == 4096`: emit CLEAR at the width in force and start a new dictionary (R136). -/
def encReset (e : Enc) : Enc × List Pair :=
  if e.next.toNat = Config.dictMax then
    ({ e with dict := encRoots, next := Config.firstDyn, width := Config.wMin }, [⟨Config.clear, e.width⟩])
  else (e, [])

/-- The insertion of a miss step, with the width test behind the increment (R134, R135). -/
def encAssign (k : Byte) (e : Enc) : Enc :=
  { e with
    dict := encInsert e.dict (e.w ++ [k]) e.next
    next := e.next + 1
    width := growWidth (e.next + 1).toNat e.width }

/-- `ENC.SYM K` in `RUN`, miss (R134). -/
def encMiss (k : Byte) (e : Enc) : EncEffect :=
  if dictFull e.next then .error .dictionaryOverflow
  else
    let r := encReset (encAssign k e)
    .ok ({ r.1 with w := [k] }, ⟨encCode e.dict e.w, e.width⟩ :: r.2)

/-- `ENC.SYM K`: first symbol (R132), hit (R133) or miss (R134); nothing in the phases that do not enable it. -/
def encSymbol (k : Byte) (e : Enc) : EncEffect :=
  match e.phase with
  | .first => .ok ({ e with w := [k], phase := .run }, [⟨Config.clear, e.width⟩])
  | .run => if encHas e.dict (e.w ++ [k]) then .ok ({ e with w := e.w ++ [k] }, []) else encMiss k e
  | .idle | .done | .fail => .ok (e, [])

/-- `ENC.END`: the pending phrase and END (R137), or an empty IndexStream (R138). -/
def encFinish (e : Enc) : EncEffect :=
  match e.phase with
  | .run => .ok ({ e with phase := .done }, [⟨encCode e.dict e.w, e.width⟩, ⟨Config.endCode, e.width⟩])
  | .first => .error .invalidInput
  | .idle | .done | .fail => .ok (e, [])

/-- The effect on the state, with the pairs just emitted: they go to `ENC_OUT`, or the error is raised. -/
def encEffect (r : EncEffect) (s : State) : State × List Pair :=
  match r with
  | .ok (e, ps) => (s.setEnc { e with out := s.enc.out ++ ps }, ps)
  | .error x => (raise .enc x s, [])

/-- The phases that enable `ENC.SYM` and `ENC.END` (10_state.md R24). -/
def encOpen (s : State) : Bool × Refusal := (s.enc.phase = .first || s.enc.phase = .run, .wrongPhase)

/-- `ENC.INIT` (R131). -/
def execEncInit (s : State) : Result := whenEnabled [running s] (s.setEnc encStart)

/-- `ENC.SYM K` (R132 to R136). -/
def execEncSym (k : Byte) (s : State) : Result :=
  whenEnabled [running s, encOpen s] (encEffect (encSymbol k s.enc) s).1

/-- `ENC.END` (R137, R138). -/
def execEncEnd (s : State) : Result :=
  whenEnabled [running s, encOpen s] (encEffect (encFinish s.enc) s).1

end Sys2Proof.Machine
end

