-- ==== Sys2Proof/Machine/Pck.lean ====
section
/-! DEFINITION. Unit PCK: `PCK.INIT`, `PCK.PUSH`, `PCK.FLUSH` (42_bitpacker.md). A unit operation answers the unit's new state
and the bytes it emits. -/

namespace Sys2Proof.Machine

/-- The unit after `PCK.INIT` (R181). Its port starts a new run with nothing emitted (00_scope.md R13; log 12). -/
def pckStart : Pck := { phase := .run, acc := 0, cnt := 0, out := [] }

/-- `while P_CNT >= 8: emit the low 8 bits; shift; subtract` (R182). The counter is below 32, so four rounds are enough. -/
def pckDrain : Nat → Pck → Pck × List Byte
  | 0, p => (p, [])
  | n + 1, p =>
    if 8 ≤ p.cnt.toNat then
      let r := pckDrain n { p with acc := p.acc >>> 8, cnt := p.cnt - 8 }
      (r.1, p.acc.setWidth 8 :: r.2)
    else (p, [])

/-- `PCK.PUSH code, width`: the whole code is ORed in, not masked (R182, R184). -/
def pckPush (c : Code) (w : Width) (p : Pck) : Pck × List Byte :=
  pckDrain 4 { p with acc := p.acc ||| (c.setWidth 19 <<< p.cnt.toNat), cnt := p.cnt + w.setWidth 5 }

/-- `PCK.FLUSH`: the remaining bits as one byte, if any (R183). -/
def pckFlush (p : Pck) : Pck × List Byte :=
  if 0 < p.cnt.toNat then ({ p with acc := 0, cnt := 0, phase := .done }, [p.acc.setWidth 8])
  else ({ p with phase := .done }, [])

/-- The effect on the state: the bytes go to `BYTE_OUT`. -/
def pckEffect (r : Pck × List Byte) (s : State) : State := s.setPck { r.1 with out := s.pck.out ++ r.2 }

/-- The phase that enables `PCK.PUSH` and `PCK.FLUSH` (10_state.md R29). -/
def pckOpen (s : State) : Bool × Refusal := (s.pck.phase = .run, .wrongPhase)

/-- `PCK.INIT` (R181). -/
def execPckInit (s : State) : Result := whenEnabled [running s] (s.setPck pckStart)

/-- `PCK.PUSH code, width` (R182, R185). -/
def execPckPush (c : Code) (w : Width) (s : State) : Result :=
  whenEnabled [running s, pckOpen s, (legalWidth w, .widthOutOfRange)] (pckEffect (pckPush c w s.pck) s)

/-- `PCK.FLUSH` (R183). -/
def execPckFlush (s : State) : Result := whenEnabled [running s, pckOpen s] (pckEffect (pckFlush s.pck) s)

end Sys2Proof.Machine
end

