-- ==== Sys2Proof/Machine/Ser.lean ====
section
/-! DEFINITION. Unit SER: `SER.RUN` and the container's bytes (44_serializer.md). -/

namespace Sys2Proof.Machine

/-- Items 1 to 3: signature and logical screen descriptor, 13 bytes (R217 to R219). -/
def serScreen (r : Shared) : List Byte := signature ++ dim16 r.iw ++ dim16 r.ih ++ [0xF7, 0x00, 0x00]

/-- Item 4: the colour table, `PAL[i]` for `i < C_PLEN`, else black (R220). -/
def serTable (r : Shared) : List Byte :=
  (r.pal.toList.take r.plen ++ List.replicate (Config.gctEntries - r.plen) RGB.black).flatMap RGB.bytes

/-- Items 5 and 6: image descriptor and minimum code size, 11 bytes (R221, R222). -/
def serImage (r : Shared) : List Byte :=
  [0x2C, 0x00, 0x00, 0x00, 0x00] ++ dim16 r.iw ++ dim16 r.ih ++ [0x00, Config.minCodeSize]

/-- Item 7's data sub-blocks: each of 255 bytes but the last (R223). The first argument bounds the number of chunks. -/
def serChunks : Nat → List Byte → List Byte
  | 0, _ => []
  | n + 1, bs =>
    if bs = [] then []
    else BitVec.ofNat 8 (bs.take Config.subblockMax).length
      :: (bs.take Config.subblockMax ++ serChunks n (bs.drop Config.subblockMax))

/-- The container `SER.RUN` emits (R216), closed by the block terminator and the trailer (R224). -/
def serContainer (r : Shared) : List Byte :=
  serScreen r ++ serTable r ++ serImage r ++ serChunks r.pbuf.length r.pbuf ++ [0x00, 0x3B]

/-- `SER.RUN` (R216, R225): the palette test, then the container, which is all its run emits (R231; log 12). -/
def serRun (s : State) : State :=
  if Config.palMax < s.shared.plen then raise .ser .paletteOverflow s
  else s.setSer { phase := .done, err := .none, out := serContainer s.shared }

/-- `SER.RUN`'s enabling condition, "the registers it reads written since hardware reset" (R216; refused otherwise:
00_scope.md R15, 10_state.md R52): `C_PLEN`; and unless it is too large, `C_IW`, `C_IH`, `PBUF` and the palette entries
below it (log 5). -/
def serEnabled (s : State) : Bool × Refusal :=
  let w := s.shared.written
  (w.plen && (Config.palMax < s.shared.plen || (w.iw && w.ih && w.pbuf && palWritten w s.shared.plen)), .notWritten)

/-- `SER.RUN` (R216). -/
def execSerRun (s : State) : Result := whenEnabled [running s, serEnabled s] (serRun s)

end Sys2Proof.Machine
end

