-- ==== Sys2Proof/Machine/Unp.lean ====
section
/-! DEFINITION. Unit UNP: `UNP.INIT`, `UNP.FEED`, `UNP.PULL` (43_bitunpacker.md). -/

namespace Sys2Proof.Machine

/-- The unit after `UNP.INIT` (R201). Its port starts a new run with nothing emitted (00_scope.md R13; log 12). -/
def unpStart : Unp := { phase := .run, acc := 0, cnt := 0, out := [] }

/-- `UNP.FEED b` (R202). -/
def unpFeed (b : Byte) (u : Unp) : Unp :=
  { u with acc := u.acc ||| (b.setWidth 19 <<< u.cnt.toNat), cnt := u.cnt + 8 }

/-- The code `UNP.PULL width` extracts: `U_ACC & (2^width - 1)` (R203). -/
def unpCode (w : Width) (u : Unp) : Code := (u.acc &&& BitVec.ofNat 19 (2 ^ w.toNat - 1)).setWidth 12

/-- `UNP.PULL width` (R203). -/
def unpPull (w : Width) (u : Unp) : Unp :=
  { u with acc := u.acc >>> w.toNat, cnt := u.cnt - w.setWidth 5, out := u.out ++ [unpCode w u] }

/-- The phase that enables `UNP.FEED` and `UNP.PULL` (10_state.md R31). -/
def unpOpen (s : State) : Bool × Refusal := (s.unp.phase = .run, .wrongPhase)

/-- `UNP.INIT` (R201). -/
def execUnpInit (s : State) : Result := whenEnabled [running s] (s.setUnp unpStart)

/-- `UNP.FEED b` (R202, R204). -/
def execUnpFeed (b : Byte) (s : State) : Result :=
  whenEnabled [running s, unpOpen s, (s.unp.cnt.toNat ≤ 11, .tooManyBits)] (s.setUnp (unpFeed b s.unp))

/-- `UNP.PULL width` (R203, R204). -/
def execUnpPull (w : Width) (s : State) : Result :=
  whenEnabled [running s, unpOpen s, (legalWidth w, .widthOutOfRange), (w.toNat ≤ s.unp.cnt.toNat, .tooFewBits)]
    (s.setUnp (unpPull w s.unp))

end Sys2Proof.Machine
end

