-- ==== Sys2Proof/Machine/Pipeline.lean ====
section
/-! DEFINITION. The composites `ENCODE` and `DECODE` (46_pipeline_control.md): the unit operations in the order of R260 and
R265, each as its own rule gives it. -/

namespace Sys2Proof.Machine

/-- The status a composite begins with. -/
def compStart (s : State) : State := s.setComp { phase := .idle, err := .none }

/-- `T_PHASE <- DONE`; `T_ERR` is 0 since the composite's start. -/
def compDone (s : State) : State := s.setComp { s.comp with phase := .done }

/-! ### ENCODE (R260) -/

/-- The registers and palette from the operands, and an empty `PBUF`. -/
def encodeSetup (iw ih : Dim) (pal : List RGB) (s : State) : State :=
  s.setShared
    { s.shared with
      iw := iw, ih := ih, plen := pal.length, pal := palWrite s.shared.pal 0 pal, pbuf := []
      written := { iw := true, ih := true, plen := true, pbuf := true
                   pal := s.shared.written.pal ||| firstEntries pal.length } }

/-- Bytes just emitted by the packer: to `BYTE_OUT` and appended to `PBUF`. -/
def packedOut (r : Pck × List Byte) (s : State) : State :=
  (pckEffect r s).setShared { s.shared with pbuf := s.shared.pbuf ++ r.2 }

/-- `for (c, w) in the pairs just emitted: PCK.PUSH c, w`. -/
def pushPairs : List Pair → State → State
  | [], s => s
  | p :: ps, s => pushPairs ps (packedOut (pckPush p.code p.width s.pck) s)

/-- `for K in x: ENC.SYM K; push its pairs; stop if E_PHASE == FAIL`. -/
def encodeSymbols : List Byte → State → State
  | [], s => s
  | k :: ks, s =>
    let r := encEffect (encSymbol k s.enc) s
    let s' := pushPairs r.2 r.1
    if s'.enc.phase = .fail then s' else encodeSymbols ks s'

/-- `PCK.FLUSH` and `SER.RUN`, with the composite's outcome. -/
def encodeFinish (s : State) : State :=
  let t := serRun (packedOut (pckFlush s.pck) s)
  if t.ser.phase = .fail then raise .comp t.ser.err t else compDone t

/-- `ENCODE iw, ih, pal, x` (R260, R261). -/
def encodeRun (iw ih : Dim) (pal : List RGB) (x : List Byte) (s : State) : State :=
  let s0 := compStart s
  if Config.palMax < pal.length then raise .comp .paletteOverflow s0
  else
    let s1 := ((encodeSetup iw ih pal s0).setEnc encStart).setPck pckStart
    let s2 := encodeSymbols x s1
    if s2.enc.phase = .fail then raise .comp s2.enc.err s2
    else
      let r := encEffect (encFinish s2.enc) s2
      if r.1.enc.phase = .fail then raise .comp r.1.enc.err r.1
      else encodeFinish (pushPairs r.2 r.1)

/-- `ENCODE iw, ih, pal, x` (R260). -/
def execRunEncode (iw ih : Dim) (pal : List RGB) (x : List Byte) (s : State) : Result :=
  whenEnabled [running s] (encodeRun iw ih pal x s)

/-! ### DECODE (R265) -/

/-- `while U_CNT < D_WIDTH and a < len(PBUF): UNP.FEED`; the bytes are those of `PBUF` from offset `a` on. -/
def feedBytes : List Byte → State → State × List Byte
  | [], s => (s, [])
  | b :: rest, s =>
    if s.unp.cnt.toNat < s.dec.width.toNat then feedBytes rest (s.setUnp (unpFeed b s.unp)) else (s, b :: rest)

/-- The pull loop (R266): feed, then `DEC.EOS` at exhaustion, else `UNP.PULL D_WIDTH` and `DEC.CODE`. The first argument
bounds the rounds; `none` when it runs out, which does not happen (R267; log 16). -/
def decodeLoop : Nat → List Byte → State → Option State
  | 0, _, _ => none
  | n + 1, rest, s =>
    let f := feedBytes rest s
    let s1 := f.1
    if s1.unp.cnt.toNat < s1.dec.width.toNat then
      let s2 := decEffect (decEos s1.dec) s1
      some (raise .comp s2.dec.err s2)
    else
      let c := unpCode s1.dec.width s1.unp
      let s2 := s1.setUnp (unpPull s1.dec.width s1.unp)
      let s3 := decEffect (decCode c s2.dec) s2
      if s3.dec.phase = .fail then some (raise .comp s3.dec.err s3)
      else if s3.dec.phase = .done then some (compDone s3)
      else decodeLoop n f.2 s3

/-- `DECODE cont` (R265). -/
def decodeRun (cont : List Byte) (s : State) : Option State :=
  let s1 := parRun cont (compStart s)
  if s1.par.phase = .fail then some (raise .comp s1.par.err s1)
  else
    let s2 := (s1.setUnp unpStart).setDec decStart
    decodeLoop (s2.shared.pbuf.length + 1) s2.shared.pbuf s2

/-- `DECODE cont` (R265). -/
def execRunDecode (cont : List Byte) (s : State) : Result :=
  if s.paused then .refused .paused
  else
    match decodeRun cont s with
    | some t => .next t
    | none => .fault .decodeLoopBound

end Sys2Proof.Machine
end

