-- ==== Sys2Proof/Machine/Dispatch.lean ====
section
/-! DEFINITION. The meaning of each instruction, one arm per constructor. -/

namespace Sys2Proof.Machine

def exec (i : Instr) (s : State) : Host.Outcome State Fault Refusal :=
  match i with
  -- control
  | .ctlPause => Sys2Proof.Machine.execCtlPause s
  | .ctlResume => Sys2Proof.Machine.execCtlResume s
  | .ctlCancel => Sys2Proof.Machine.execCtlCancel s
  -- encoder
  | .encInit => Sys2Proof.Machine.execEncInit s
  | .encSym k => Sys2Proof.Machine.execEncSym k s
  | .encEnd => Sys2Proof.Machine.execEncEnd s
  -- decoder
  | .decInit => Sys2Proof.Machine.execDecInit s
  | .decCode c => Sys2Proof.Machine.execDecCode c s
  | .decEos => Sys2Proof.Machine.execDecEos s
  -- packer
  | .pckInit => Sys2Proof.Machine.execPckInit s
  | .pckPush c w => Sys2Proof.Machine.execPckPush c w s
  | .pckFlush => Sys2Proof.Machine.execPckFlush s
  -- unpacker
  | .unpInit => Sys2Proof.Machine.execUnpInit s
  | .unpFeed b => Sys2Proof.Machine.execUnpFeed b s
  | .unpPull w => Sys2Proof.Machine.execUnpPull w s
  -- serializer and parser
  | .serRun => Sys2Proof.Machine.execSerRun s
  | .parRun cont => Sys2Proof.Machine.execParRun cont s
  -- composites
  | .runEncode iw ih pal x => Sys2Proof.Machine.execRunEncode iw ih pal x s
  | .runDecode cont => Sys2Proof.Machine.execRunDecode cont s
  -- code words
  | .codeClear => Sys2Proof.Machine.execCodeClear s
  | .codeEnd => Sys2Proof.Machine.execCodeEnd s
  | .codeRoot k => Sys2Proof.Machine.execCodeRoot k s
  | .codeDyn c => Sys2Proof.Machine.execCodeDyn c s
  -- container fields
  | .contSig => Sys2Proof.Machine.execContSig s
  | .contLsw v => Sys2Proof.Machine.execContLsw v s
  | .contLsh v => Sys2Proof.Machine.execContLsh v s
  | .contSflags => Sys2Proof.Machine.execContSflags s
  | .contBg => Sys2Proof.Machine.execContBg s
  | .contAspect => Sys2Proof.Machine.execContAspect s
  | .contGct pal => Sys2Proof.Machine.execContGct pal s
  | .contSep => Sys2Proof.Machine.execContSep s
  | .contLeft => Sys2Proof.Machine.execContLeft s
  | .contTop => Sys2Proof.Machine.execContTop s
  | .contIw v => Sys2Proof.Machine.execContIw v s
  | .contIh v => Sys2Proof.Machine.execContIh v s
  | .contIflags => Sys2Proof.Machine.execContIflags s
  | .contMincode => Sys2Proof.Machine.execContMincode s
  | .contSubblock data => Sys2Proof.Machine.execContSubblock data s
  | .contTerm => Sys2Proof.Machine.execContTerm s
  | .contTrailer => Sys2Proof.Machine.execContTrailer s

end Sys2Proof.Machine
end

