-- ==== Sys2Proof/Machine/Fetch.lean ====
section
/-! DEFINITION. What one item of the driver does: an operation, a code word or a container field is decoded and run, a register
write or the reset input takes effect (log 1). -/

namespace Sys2Proof.Machine

/-- An operation on the operation-select port: decoded and run, or no operation (30_encoding.md R118). -/
def stepOp (bytes : List Byte) (s : State) : Host.Outcome State Fault Refusal :=
  match decode .op bytes with
  | .ok (i, _) => exec i s
  | .error why => .refused (.noOperation why)

/-- What the driver's queue holds after a field of a container was read: the rest of the container, so that its end is
seen, and nothing of it after the trailer (45_parser.md R245). -/
def afterField (i : Instr) (rest : List Byte) (q : List Item) : List Item :=
  if i = .contTrailer then q else .cont rest :: q

/-- One field of a container on `CONT_IN`: decoded at the parse's position and run; bytes that are no legal field there
raise `DecodeError` and end the parse (30_encoding.md R105, 45_parser.md R246). -/
def stepCont (bytes : List Byte) (s : State) : Host.Outcome State Fault Refusal :=
  match decode (.contIn s.par.next) bytes with
  | .ok (i, rest) => exec i (s.setInq (afterField i rest s.inq))
  | .error _ => whenEnabled [running s] (fieldIllegal bytes s)

/-- One item of the driver, taken off the queue. -/
def stepItem (it : Item) (s : State) : Host.Outcome State Fault Refusal :=
  match it with
  | .op bytes => stepOp bytes s
  | .code c => exec (decodeCode c) s
  | .cont bytes => stepCont bytes s
  | .write w => .next (s.setShared (s.shared.write w))
  | .resetInput => .next (clearAll s)

end Sys2Proof.Machine
end

