-- ==== Sys2Proof/Machine/Step.lean ====
section
/-! DEFINITION. One step: the driver's oldest item is taken (20_memory.md R71, 00_scope.md R15). -/

namespace Sys2Proof.Machine

/-- One step of the machine. With nothing issued the core holds its state (60_exceptions.md R320). -/
def step (s : State) : Host.Outcome State Fault Refusal :=
  match s.inq with
  | [] => .next s
  | it :: q => stepItem it (s.setInq q)

/-- The state with a word of spec/opcode_table.json issued as the next item (log 1, log 10). For a container field the
parse stands at that field, which is where the parser fetches it. -/
def State.withFetchWord (s : State) (nbits w : Nat) : State :=
  match tableWord nbits w with
  | (.op, bytes) => s.setInq (.op bytes :: s.inq)
  | (.codeIn, bytes) =>
    match take12 bytes with
    | .ok (c, _) => s.setInq (.code c :: s.inq)
    | .error _ => s
  | (.contIn f, bytes) =>
    (s.setInq (.cont bytes :: s.inq)).setPar { s.par with next := f, pos := fieldOffset f }

end Sys2Proof.Machine
end

