-- ==== Sys2Proof/Laws/Decode.lean ====
section
/-! SUPPORT. One lemma per reader of operand bytes: what it answers on the bytes the encoder writes. -/

namespace Sys2Proof

@[simp] theorem take8_cons (b : Byte) (rest : List Byte) : take8 (b :: rest) = .ok (b, rest) := rfl

theorem le16_lo8_hi8 (v : Dim) : le16 (lo8 v) (hi8 v) = v := by
  simp only [le16, lo8, hi8]
  ext i hi
  simp only [BitVec.getElem_append, BitVec.getElem_setWidth, BitVec.getLsbD_ushiftRight]
  split
  · rw [BitVec.getLsbD_eq_getElem]
  · rw [← BitVec.getLsbD_eq_getElem]
    congr 1
    omega

@[simp] theorem take16_dim16 (v : Dim) (rest : List Byte) : take16 (dim16 v ++ rest) = .ok (v, rest) := by
  simp [take16, dim16, le16_lo8_hi8]

theorem code12_joined (c : Code) :
    (le16 (c.setWidth 8) ((c >>> 8).setWidth 8)).setWidth 12 = c := by
  simp only [le16]
  ext i hi
  simp only [BitVec.getElem_setWidth, BitVec.getLsbD_append, BitVec.getLsbD_setWidth, BitVec.getLsbD_ushiftRight]
  split
  · rw [BitVec.getLsbD_eq_getElem (by omega)]
    simp_all
  · rw [show 8 + (i - 8) = i by omega, BitVec.getLsbD_eq_getElem (by omega)]
    simp
    omega

theorem code12_high (c : Code) : ((c >>> 8).setWidth 8).toNat < 16 := by
  have := c.isLt
  simp only [BitVec.toNat_setWidth, BitVec.toNat_ushiftRight, Nat.shiftRight_eq_div_pow]
  omega

@[simp] theorem take12_code12 (c : Code) (rest : List Byte) : take12 (code12 c ++ rest) = .ok (c, rest) := by
  simp only [take12, code12, List.cons_append, List.nil_append]
  rw [if_pos (code12_high c), code12_joined]

@[simp] theorem take4_width4 (w : Width) (rest : List Byte) : take4 (width4 w ++ rest) = .ok (w, rest) := by
  have := w.isLt
  simp only [take4, width4, List.cons_append, List.nil_append]
  rw [if_pos (by simp only [BitVec.toNat_setWidth]; omega)]
  congr 2
  simp

theorem takeBytes_end (rest : List Byte) : takeBytes (0 :: rest) = .ok ([], rest) := by
  rw [takeBytes.eq_def]; exact if_pos rfl

theorem takeBytes_item {bs rest more : List Byte} (b : Byte) (h : takeBytes more = .ok (bs, rest)) :
    takeBytes (1 :: b :: more) = .ok (b :: bs, rest) := by
  rw [takeBytes.eq_def]
  simp only [if_neg (show (1 : Byte) ≠ 0 by decide), if_pos]
  simp only [h]

@[simp] theorem takeBytes_bytesSeq (bs rest : List Byte) : takeBytes (bytesSeq bs ++ rest) = .ok (bs, rest) := by
  induction bs with
  | nil => exact takeBytes_end rest
  | cons b bs ih => exact takeBytes_item b ih

theorem takeRgbs_end (rest : List Byte) : takeRgbs (0 :: rest) = .ok ([], rest) := by
  rw [takeRgbs.eq_def]; exact if_pos rfl

theorem takeRgbs_item {cs : List RGB} {rest more : List Byte} (c : RGB) (h : takeRgbs more = .ok (cs, rest)) :
    takeRgbs (1 :: c.r :: c.g :: c.b :: more) = .ok (c :: cs, rest) := by
  rw [takeRgbs.eq_def]
  simp only [if_neg (show (1 : Byte) ≠ 0 by decide), if_pos]
  simp only [h]

@[simp] theorem takeRgbs_rgbSeq (cs : List RGB) (rest : List Byte) : takeRgbs (rgbSeq cs ++ rest) = .ok (cs, rest) := by
  induction cs with
  | nil => exact takeRgbs_end rest
  | cons c cs ih => exact takeRgbs_item c ih

@[simp] theorem triples_flatMap_bytes (cs : List RGB) : triples (cs.flatMap RGB.bytes) = cs := by
  induction cs with
  | nil => rfl
  | cons c cs ih => simp [RGB.bytes, triples, ih]

@[simp] theorem length_flatMap_bytes (cs : List RGB) : (cs.flatMap RGB.bytes).length = 3 * cs.length := by
  induction cs with
  | nil => rfl
  | cons c cs ih => simp [RGB.bytes, ih]; omega

theorem decodeCode_root (s : Byte) : decodeCode (s.setWidth 12) = .codeRoot s := by
  have hs := s.isLt
  have hn : (s.setWidth 12 : Code).toNat = s.toNat := by simp; omega
  have h1 : (s.setWidth 12 : Code) ≠ Config.clear := fun h => by
    have := congrArg BitVec.toNat h; simp [Config.clear] at this; omega
  have h2 : (s.setWidth 12 : Code) ≠ Config.endCode := fun h => by
    have := congrArg BitVec.toNat h; simp [Config.endCode] at this; omega
  simp only [decodeCode, if_neg h1, if_neg h2, hn, if_pos hs]
  simp

theorem decodeCode_dyn {c : Code} (h : 258 ≤ c.toNat) : decodeCode c = .codeDyn c := by
  have h1 : c ≠ Config.clear := fun e => by subst e; simp [Config.clear] at h
  have h2 : c ≠ Config.endCode := fun e => by subst e; simp [Config.endCode] at h
  simp only [decodeCode, if_neg h1, if_neg h2]
  rw [if_neg (by omega)]

@[simp] theorem operand_ok {α : Type} {take : List Byte → Take α} {mk : α → Instr} {bs rest : List Byte} {a : α}
    (h : take bs = .ok (a, rest)) : operand take mk bs = .ok (mk a, rest) := by
  simp [operand, h]

end Sys2Proof
end

