-- ==== Sys2Proof/Laws/PerInstr.lean ====
section
/-! SUPPORT. Statements made instruction by instruction: the round trip of a word. -/

namespace Sys2Proof.Laws.WordRoundTrip

/-- The decoder reads the word of a well-formed instruction as that instruction, and leaves the bytes behind it. -/
def Statement (i : Instr) : Prop :=
  i.wellFormed = true → ∀ rest : List Byte, decode (encode i).1 ((encode i).2 ++ rest) = .ok (i, rest)

/-- An operation with no operand. -/
theorem of_op {i : Instr} {op : Byte} (he : encode i = (.op, [op]))
    (hd : ∀ rest, decodeOp (op :: rest) = .ok (i, rest)) : Statement i := by
  intro _ rest
  rw [he]
  exact hd rest

/-- A fixed field of the container. -/
theorem of_fixed {i : Instr} {f : ContField} {want : List Byte} (he : encode i = (.contIn f, want))
    (hf : decodeField f = fixedField want i) : Statement i := by
  intro _ rest
  rw [he]
  simp [decode, hf, fixedField]

/-- A 16-bit field of the container. -/
theorem of_dim {mk : Dim → Instr} {f : ContField} (v : Dim) (he : encode (mk v) = (.contIn f, dim16 v))
    (hf : decodeField f = operand take16 mk) : Statement (mk v) := by
  intro _ rest
  rw [he]
  simp only [decode, hf]
  exact operand_ok (take16_dim16 v rest)

theorem ctlPause : Statement .ctlPause := of_op rfl fun _ => rfl
theorem ctlResume : Statement .ctlResume := of_op rfl fun _ => rfl
theorem ctlCancel : Statement .ctlCancel := of_op rfl fun _ => rfl
theorem encInit : Statement .encInit := of_op rfl fun _ => rfl
theorem encSym (k : Byte) : Statement (.encSym k) := fun _ _ => rfl
theorem encEnd : Statement .encEnd := of_op rfl fun _ => rfl
theorem decInit : Statement .decInit := of_op rfl fun _ => rfl
theorem decCode (c : Code) : Statement (.decCode c) := fun _ rest => operand_ok (take12_code12 c rest)
theorem decEos : Statement .decEos := of_op rfl fun _ => rfl
theorem pckInit : Statement .pckInit := of_op rfl fun _ => rfl

theorem pckPush (c : Code) (w : Width) : Statement (.pckPush c w) := by
  intro _ rest
  show operand2 take12 take4 Instr.pckPush (code12 c ++ width4 w ++ rest) = _
  rw [operand2, List.append_assoc, take12_code12]
  exact operand_ok (take4_width4 w rest)

theorem pckFlush : Statement .pckFlush := of_op rfl fun _ => rfl
theorem unpInit : Statement .unpInit := of_op rfl fun _ => rfl
theorem unpFeed (b : Byte) : Statement (.unpFeed b) := fun _ _ => rfl
theorem unpPull (w : Width) : Statement (.unpPull w) := fun _ rest => operand_ok (take4_width4 w rest)
theorem serRun : Statement .serRun := of_op rfl fun _ => rfl
theorem parRun (cont : List Byte) : Statement (.parRun cont) := fun _ rest => operand_ok (takeBytes_bytesSeq cont rest)

theorem runEncode (iw ih : Dim) (pal : List RGB) (x : List Byte) : Statement (.runEncode iw ih pal x) := by
  intro _ rest
  show decodeOp (0x70 :: (dim16 iw ++ dim16 ih ++ rgbSeq pal ++ bytesSeq x ++ rest)) = _
  simp only [List.append_assoc]
  show (match take16 (dim16 iw ++ (dim16 ih ++ (rgbSeq pal ++ (bytesSeq x ++ rest)))) with
    | .ok (iw, r1) =>
      match take16 r1 with
      | .ok (ih, r2) => operand2 takeRgbs takeBytes (Instr.runEncode iw ih) r2
      | .error e => .error e
    | .error e => .error e) = _
  simp only [take16_dim16, operand2, takeRgbs_rgbSeq]
  exact operand_ok (takeBytes_bytesSeq x rest)

theorem runDecode (cont : List Byte) : Statement (.runDecode cont) :=
  fun _ rest => operand_ok (takeBytes_bytesSeq cont rest)

/-- A code word of the class the code has. -/
theorem of_code {i : Instr} {c : Code} (he : encode i = (.codeIn, code12 c)) (hc : Sys2Proof.decodeCode c = i) :
    Statement i := by
  intro _ rest
  rw [he, ← hc]
  exact operand_ok (take12_code12 c rest)

theorem codeClear : Statement .codeClear := of_code rfl rfl
theorem codeEnd : Statement .codeEnd := of_code rfl rfl
theorem codeRoot (s : Byte) : Statement (.codeRoot s) := of_code rfl (decodeCode_root s)
theorem codeDyn (c : Code) : Statement (.codeDyn c) := fun hw =>
  of_code rfl (decodeCode_dyn (by simpa [Instr.wellFormed] using hw)) hw

theorem contSig : Statement .contSig := of_fixed rfl rfl
theorem contLsw (v : Dim) : Statement (.contLsw v) := of_dim v rfl rfl
theorem contLsh (v : Dim) : Statement (.contLsh v) := of_dim v rfl rfl
theorem contSflags : Statement .contSflags := of_fixed rfl rfl
theorem contBg : Statement .contBg := of_fixed rfl rfl
theorem contAspect : Statement .contAspect := of_fixed rfl rfl

theorem contGct (pal : List RGB) : Statement (.contGct pal) := by
  intro hw rest
  have h : (pal.flatMap RGB.bytes).length = 768 := by
    rw [length_flatMap_bytes, show pal.length = 256 by simpa [Instr.wellFormed, Config.gctEntries] using hw]
  show takeN 768 (fun bs => Instr.contGct (triples bs)) (pal.flatMap RGB.bytes ++ rest) = _
  rw [takeN, if_neg (by simp only [List.length_append]; omega), List.take_left' h, List.drop_left' h,
    triples_flatMap_bytes]

theorem contSep : Statement .contSep := of_fixed rfl rfl
theorem contLeft : Statement .contLeft := of_fixed rfl rfl
theorem contTop : Statement .contTop := of_fixed rfl rfl
theorem contIw (v : Dim) : Statement (.contIw v) := of_dim v rfl rfl
theorem contIh (v : Dim) : Statement (.contIh v) := of_dim v rfl rfl
theorem contIflags : Statement .contIflags := of_fixed rfl rfl
theorem contMincode : Statement .contMincode := of_fixed rfl rfl

theorem contSubblock (data : List Byte) : Statement (.contSubblock data) := by
  intro hw rest
  have h : 1 ≤ data.length ∧ data.length ≤ Config.subblockMax := by
    simpa only [Instr.wellFormed, Bool.and_eq_true, decide_eq_true_eq] using hw
  have h255 : data.length ≤ 255 := h.2
  have hn : (BitVec.ofNat 8 data.length).toNat = data.length := by simp; omega
  have h0 : BitVec.ofNat 8 data.length ≠ 0 := fun e => by rw [e] at hn; simp at hn; omega
  show (if BitVec.ofNat 8 data.length = 0 then _ else takeN _ Instr.contSubblock (data ++ rest)) = _
  rw [if_neg h0, hn, takeN, if_neg (by simp only [List.length_append]; omega), List.take_left' rfl, List.drop_left' rfl]

theorem contTerm : Statement .contTerm := fun _ _ => rfl
theorem contTrailer : Statement .contTrailer := of_fixed rfl rfl

end Sys2Proof.Laws.WordRoundTrip
end

