-- ==== Sys2Proof/Machine/Runs.lean ====
section
/-! DEFINITION. Sequences of operations: the pseudo-operations `ENC.RUN`, `DEC.RUN`, `PCK.RUN`, `UNP.RUN` of 30_encoding.md
R121 and the pull loop of `DECODE` (46_pipeline_control.md R266), each expanding to unit operations. -/

namespace Sys2Proof.Machine

/-- Go on from a next state; a fault or a refusal ends the sequence. -/
def follow {α β : Type} (r : Host.Outcome α Fault Refusal) (f : α → Host.Outcome β Fault Refusal) :
    Host.Outcome β Fault Refusal :=
  match r with
  | .next a => f a
  | .fault x => .fault x
  | .refused x => .refused x

/-- Operations one after another. -/
def runAll : List Instr → State → Result
  | [], s => .next s
  | i :: rest, s => follow (exec i s) (runAll rest)

/-- `ENC.RUN x`. -/
def encRun (x : List Byte) : State → Result := runAll (.encInit :: (x.map .encSym ++ [.encEnd]))

/-- The codes of `DEC.RUN`: until the first operation that leaves `DONE` or `FAIL`, else `DEC.EOS` at the end. -/
def decCodes : List Code → State → Result
  | [], s => exec .decEos s
  | c :: cs, s =>
    follow (exec (.decCode c) s) fun t =>
      if t.dec.phase = .done ∨ t.dec.phase = .fail then .next t else decCodes cs t

/-- `DEC.RUN codes`. -/
def decRun (codes : List Code) (s : State) : Result := follow (exec .decInit s) (decCodes codes)

/-- `PCK.RUN pairs`. -/
def pckRun (pairs : List Pair) : State → Result :=
  runAll (.pckInit :: (pairs.map (fun p => .pckPush p.code p.width) ++ [.pckFlush]))

/-- `UNP.FEED` of the next byte while `U_CNT < w`, with the bytes left. -/
def feedUntil (w : Width) : List Byte → State → Host.Outcome (State × List Byte) Fault Refusal
  | [], s => .next (s, [])
  | b :: rest, s =>
    if s.unp.cnt.toNat < w.toNat then follow (exec (.unpFeed b) s) (feedUntil w rest) else .next (s, b :: rest)

/-- The pulls of `UNP.RUN`, each behind the bytes it needs. -/
def unpPulls : List Width → List Byte → State → Result
  | [], _, s => .next s
  | w :: ws, bytes, s =>
    follow (feedUntil w bytes s) fun r => follow (exec (.unpPull w) r.1) (unpPulls ws r.2)

/-- `UNP.RUN bytes, widths`. -/
def unpRun (bytes : List Byte) (widths : List Width) (s : State) : Result :=
  follow (exec .unpInit s) (unpPulls widths bytes)

/-- The pull loop of `DECODE` (46_pipeline_control.md R265, R266) over the bytes not yet fed, as unit operations: from which
state it leads to which. Each round feeds while `U_CNT < D_WIDTH`; then the source is exhausted and `DEC.EOS` ends the
loop, or one code is pulled, which is the item `UNP_OUT` gains, and decoded. -/
inductive PullLoop : List Byte → State → State → Prop where
  /-- No further code: `DEC.EOS`. -/
  | exhausted {bytes rest : List Byte} {s u t : State} :
      feedUntil s.dec.width bytes s = .next (u, rest) → u.unp.cnt.toNat < u.dec.width.toNat →
      exec .decEos u = .next t → PullLoop bytes s t
  /-- The code ends the decoder's run, `DONE` or `FAIL`. -/
  | ended {bytes rest : List Byte} {s u v t : State} {c : Code} :
      feedUntil s.dec.width bytes s = .next (u, rest) → exec (.unpPull u.dec.width) u = .next v →
      v.unp.out = u.unp.out ++ [c] → exec (.decCode c) v = .next t →
      t.dec.phase = .done ∨ t.dec.phase = .fail → PullLoop bytes s t
  /-- The code does not: another round. -/
  | more {bytes rest : List Byte} {s u v w t : State} {c : Code} :
      feedUntil s.dec.width bytes s = .next (u, rest) → exec (.unpPull u.dec.width) u = .next v →
      v.unp.out = u.unp.out ++ [c] → exec (.decCode c) v = .next w →
      w.dec.phase ≠ .done → w.dec.phase ≠ .fail → PullLoop rest w t → PullLoop bytes s t

end Sys2Proof.Machine
end

