-- ==== Sys2Proof/Safety.lean ====
section
/-! DEFINITION. What a sound state is, in the terms of 10_state.md R41 and the invariants of files 40 to 45. -/

namespace Sys2Proof.Machine

/-- A phase of the decoder in which a code is consumed (10_state.md R27). -/
def DecAwaits (s : State) : Prop := s.dec.phase = .start ∨ s.dec.phase = .first ∨ s.dec.phase = .run

/-- `w` is the least width of 9..12 with `n <= 2^w` (10_state.md R41). -/
def LeastWidth (n : Nat) (w : Width) : Prop :=
  9 ≤ w.toNat ∧ w.toNat ≤ 12 ∧ n ≤ 2 ^ w.toNat ∧ ∀ v : Nat, 9 ≤ v → v < w.toNat → 2 ^ v < n

/-- The codes 258 to `n - 1`, the newest first (40_encoder.md R141 (e)). -/
def dynCodes (n : Nat) : List Nat := (List.range' 258 (n - 258)).reverse

/-- A pair whose code fits a legal width (40_encoder.md R141 (d)). -/
def Pair.Fits (p : Pair) : Prop := p.code.toNat < 2 ^ p.width.toNat ∧ 9 ≤ p.width.toNat ∧ p.width.toNat ≤ 12

/-- ENC in `RUN` (10_state.md R23, R41, 40_encoder.md R141). -/
structure EncRunning (e : Enc) : Prop where
  low    : 258 ≤ e.next.toNat
  high   : e.next.toNat ≤ 4095
  width  : LeastWidth e.next.toNat e.width
  key    : encHas e.dict e.w = true
  codes  : e.dict.map (fun x => x.2.toNat) = dynCodes e.next.toNat
  nodup  : (e.dict.map Prod.fst).Nodup
  long   : ∀ x ∈ e.dict, 2 ≤ x.1.length
  prefixes : ∀ x ∈ e.dict, encHas e.dict x.1.dropLast = true

/-- ENC at an operation boundary. `FAIL` and a code in `E_ERR` come together (10_state.md R38). -/
structure EncSound (e : Enc) : Prop where
  first : e.phase = .first → e.next = 258 ∧ e.width = 9 ∧ e.w = [] ∧ e.dict = [] ∧ e.out = []
  run   : e.phase = .run → EncRunning e
  fits  : ∀ p ∈ e.out, Pair.Fits p
  err   : e.phase = .fail ↔ e.err ≠ .none
  kinds : e.err = .none ∨ e.err = .invalidInput ∨ e.err = .dictionaryOverflow

/-- DEC in `RUN` (10_state.md R26, R41). -/
structure DecRunning (d : Dec) : Prop where
  low   : 258 ≤ d.next.toNat
  high  : d.next.toNat ≤ 4095
  width : LeastWidth (d.next.toNat + 1) d.width
  prev  : d.prev ≠ []
  codes : d.dict.map (fun x => x.1.toNat) = dynCodes d.next.toNat
  full  : ∀ x ∈ d.dict, x.2 ≠ []

/-- DEC at an operation boundary (10_state.md R38, R41). -/
structure DecSound (d : Dec) : Prop where
  fresh : d.phase = .start ∨ d.phase = .first → d.next = 258 ∧ d.width = 9 ∧ d.prev = [] ∧ d.dict = []
  run   : d.phase = .run → DecRunning d
  err   : d.phase = .fail ↔ d.err ≠ .none
  kinds : d.err ≠ .paletteOverflow

/-- PCK at an operation boundary (42_bitpacker.md R187). -/
def PckSound (p : Pck) : Prop := p.phase = .run → p.cnt.toNat ≤ 7

/-- UNP at an operation boundary (43_bitunpacker.md R208). -/
def UnpSound (u : Unp) : Prop := u.phase = .run → u.cnt.toNat ≤ 19 ∧ u.acc.toNat < 2 ^ u.cnt.toNat

/-- SER at an operation boundary (10_state.md R32, R38). -/
def SerSound (e : Ser) : Prop :=
  (e.phase = .fail ↔ e.err ≠ .none) ∧ (e.err = .none ∨ e.err = .paletteOverflow)

/-- PAR at an operation boundary (10_state.md R33, R38), and a field-by-field parse at the offset 20_memory.md R69 gives. -/
structure ParSound (p : Par) : Prop where
  kinds  : p.err = .none ∨ p.err = .decodeError
  idle   : p.next = .sig → p.loc = {} ∧ (p.phase = .fail ↔ p.err ≠ .none)
  fixed  : p.next ≠ .sig → p.next ≠ .blocks → p.next ≠ .trailer → p.pos = fieldOffset p.next
  blocks : p.next = .blocks ∨ p.next = .trailer → fieldOffset p.next ≤ p.pos
  table  : fieldOffset .sep ≤ fieldOffset p.next → p.loc.pal.length = 256

/-- The composite's status (10_state.md R37, R38). -/
def CompSound (c : Comp) : Prop := c.phase = .fail ↔ c.err ≠ .none

/-- A sound state: every unit at an operation boundary as the rules leave it. -/
structure State.Sound (s : State) : Prop where
  enc  : EncSound s.enc
  dec  : DecSound s.dec
  pck  : PckSound s.pck
  unp  : UnpSound s.unp
  ser  : SerSound s.ser
  par  : ParSound s.par
  comp : CompSound s.comp

end Sys2Proof.Machine
end

