-- ==== Sys2Proof/Certificates/Slice0/Obligations.lean ====
section
/-! DEFINITION. The statements for the provers. "log n" is notes/assumptions/n.md. -/

open Sys2Proof Sys2Proof.Machine

namespace Sys2Proof.Machine

/-- With some operand bytes behind it the select code gives the operation (30_encoding.md R118). -/
def Selects (op : Byte) (i : Instr) : Prop := ∃ operands, decode .op (op :: operands) = .ok (i, [])

/-- Every phase `IDLE`, every error code 0, not paused. -/
def AllIdle (s : State) : Prop :=
  s.enc.phase = .idle ∧ s.dec.phase = .idle ∧ s.pck.phase = .idle ∧ s.unp.phase = .idle ∧ s.ser.phase = .idle ∧
  s.par.phase = .idle ∧ s.comp.phase = .idle ∧ s.enc.err = .none ∧ s.dec.err = .none ∧ s.ser.err = .none ∧
  s.par.err = .none ∧ s.comp.err = .none ∧ s.paused = false

/-- The operation answers a next state in which nothing but unit ENC differs. -/
def OnlyEnc (s t : State) : Prop := t = { s with enc := t.enc }
def OnlyDec (s t : State) : Prop := t = { s with dec := t.dec }
def OnlyPck (s t : State) : Prop := t = { s with pck := t.pck }
def OnlyUnp (s t : State) : Prop := t = { s with unp := t.unp }
def OnlySer (s t : State) : Prop := t = { s with ser := t.ser }

/-- The widths of a list of pairs, added up: the bit length of the packed stream. -/
def bitLength (ps : List Pair) : Nat := (ps.map (fun p => p.width.toNat)).sum

/-- The packed stream read as one integer, the first code lowest (42_bitpacker.md R186). -/
def streamValue : List Pair → Nat
  | [] => 0
  | p :: ps => p.code.toNat + 2 ^ p.width.toNat * streamValue ps

/-- The operations of ENC, of DEC, and so on, with the composites and the cancel that act on the unit as well
(10_state.md R39). -/
def writesEnc : Instr → Bool
  | .encInit | .encSym _ | .encEnd | .runEncode _ _ _ _ | .ctlCancel => true
  | _ => false
def writesDec : Instr → Bool
  | .decInit | .decCode _ | .decEos | .codeClear | .codeEnd | .codeRoot _ | .codeDyn _ | .runDecode _ | .ctlCancel => true
  | _ => false
def writesPck : Instr → Bool
  | .pckInit | .pckPush _ _ | .pckFlush | .runEncode _ _ _ _ | .ctlCancel => true
  | _ => false
def writesUnp : Instr → Bool
  | .unpInit | .unpFeed _ | .unpPull _ | .runDecode _ | .ctlCancel => true
  | _ => false
def writesSer : Instr → Bool
  | .serRun | .runEncode _ _ _ _ | .ctlCancel => true
  | _ => false
def isField : Instr → Bool
  | .contSig | .contLsw _ | .contLsh _ | .contSflags | .contBg | .contAspect | .contGct _ | .contSep | .contLeft
  | .contTop | .contIw _ | .contIh _ | .contIflags | .contMincode | .contSubblock _ | .contTerm | .contTrailer => true
  | _ => false
def writesPar (i : Instr) : Bool :=
  isField i || match i with
  | .parRun _ | .runDecode _ | .ctlCancel => true
  | _ => false
def writesComp : Instr → Bool
  | .runEncode _ _ _ _ | .runDecode _ | .ctlCancel => true
  | _ => false
def writesShared : Instr → Bool
  | .parRun _ | .runEncode _ _ _ _ | .runDecode _ | .ctlCancel | .contTrailer => true
  | _ => false
def writesPaused : Instr → Bool
  | .ctlPause | .ctlResume | .ctlCancel => true
  | _ => false

/-- What `SER.RUN` reads has been written since hardware reset, for a `C_PLEN` that is not too large (44_serializer.md R216). -/
def ReadableBySer (s : State) : Prop :=
  s.shared.written.plen = true ∧ s.shared.written.iw = true ∧ s.shared.written.ih = true ∧
  s.shared.written.pbuf = true ∧ ∀ i : Nat, i < s.shared.plen → s.shared.written.pal.getLsbD i = true

/-- The byte of a container at an offset. -/
def ByteAt (cont : List Byte) (i : Nat) (b : Byte) : Prop := cont[i]? = some b

/-- The container with these fields, in the order and with the fixed bytes of 20_memory.md R69; a sub-block stands behind its
length byte. -/
def containerOf (lsw lsh iw ih : Dim) (pal : List RGB) (blocks : List (List Byte)) : List Byte :=
  [0x47, 0x49, 0x46, 0x38, 0x39, 0x61] ++ [lo8 lsw, hi8 lsw, lo8 lsh, hi8 lsh] ++ [0xF7, 0x00, 0x00] ++
  pal.flatMap (fun c => [c.r, c.g, c.b]) ++ [0x2C, 0x00, 0x00, 0x00, 0x00] ++ [lo8 iw, hi8 iw, lo8 ih, hi8 ih] ++
  [0x00, 0x08] ++ blocks.flatMap (fun b => BitVec.ofNat 8 b.length :: b) ++ [0x00, 0x3B]

/-- Sub-blocks of the lengths a length byte can give (30_encoding.md R105). -/
def LegalBlocks (blocks : List (List Byte)) : Prop := ∀ b ∈ blocks, 1 ≤ b.length ∧ b.length ≤ 255

end Sys2Proof.Machine

/-! ### Reset and soundness -/

/-- 70_reset_and_hazards.md R330, 10_state.md R52, 46_pipeline_control.md R278: power-on, the reset input and cancel leave
every phase `IDLE`, every error 0 and no pause. The queue, from which the reset input is taken and which is kept, is the
model's (log 1). -/
def Obligations.ResetAndCancelLeaveEveryUnitIdle : Prop :=
  AllIdle State.reset ∧
  (∀ s : State, ∃ t, exec .ctlCancel s = .next t ∧ AllIdle t ∧ t.inq = s.inq) ∧
  ∀ (s : State) (q : List Item), s.inq = .resetInput :: q → ∃ t, step s = .next t ∧ AllIdle t ∧ t.inq = q

/-- 70_reset_and_hazards.md R330, R340, 10_state.md R24, R27, R29, R31, 41_decoder.md R168, 60_exceptions.md R301: a unit's
data operations are refused in every phase that does not enable them, in `IDLE`, `DONE` and `FAIL` alike; a code word
too (log 8). That a refusal ends the run is the model's form (log 7). -/
def Obligations.IdleEnablesNoDataOperation : Prop :=
  ∀ (s : State) (k b : Byte) (c : Code) (w : Width), s.paused = false →
    (s.enc.phase = .idle ∨ s.enc.phase = .done ∨ s.enc.phase = .fail →
      exec (.encSym k) s = .refused .wrongPhase ∧ exec .encEnd s = .refused .wrongPhase) ∧
    (s.dec.phase = .idle ∨ s.dec.phase = .done ∨ s.dec.phase = .fail →
      exec (.decCode c) s = .refused .wrongPhase ∧ exec .decEos s = .refused .wrongPhase ∧
      exec (decodeCode c) s = .refused .wrongPhase) ∧
    (s.pck.phase = .idle ∨ s.pck.phase = .done →
      exec (.pckPush c w) s = .refused .wrongPhase ∧ exec .pckFlush s = .refused .wrongPhase) ∧
    (s.unp.phase = .idle → exec (.unpFeed b) s = .refused .wrongPhase ∧ exec (.unpPull w) s = .refused .wrongPhase)

/-- 10_state.md R41: the ranges hold at reset. -/
def Obligations.SoundAtReset : Prop := State.reset.Sound

/-- 10_state.md R41, R23, R26, R38, 40_encoder.md R141, 42_bitpacker.md R187, 43_bitunpacker.md R208: every step keeps them. -/
def Obligations.EveryStepKeepsStatesSound : Prop :=
  ∀ s t : State, s.Sound → step s = .next t → t.Sound

/-! ### INIT -/

/-- 40_encoder.md R131, 41_decoder.md R151, 42_bitpacker.md R181, 43_bitunpacker.md R201: the values a run starts with, in
every phase; nothing else changes. The empty ports are the model's reading of 00_scope.md R13 (log 12). -/
def Obligations.InitStartsARun : Prop :=
  ∀ s : State, s.paused = false →
    exec .encInit s = .next { s with enc := ⟨.first, .none, 258, 9, [], encRoots, []⟩ } ∧
    exec .decInit s = .next { s with dec := ⟨.start, .none, 258, 9, [], decRoots, [], []⟩ } ∧
    exec .pckInit s = .next { s with pck := ⟨.run, 0, 0, []⟩ } ∧
    exec .unpInit s = .next { s with unp := ⟨.run, 0, 0, []⟩ }

/-- 20_memory.md R80, R78, R79: `Roots` maps exactly the one-symbol phrases, and codes 0 to 255 to them. -/
def Obligations.RootsAreTheSingleSymbols : Prop :=
  (∀ k : Byte, encLookup encRoots [k] = some (k.setWidth 12)) ∧
  (∀ p : Phrase, p.length ≠ 1 → encLookup encRoots p = none) ∧
  (∀ c : Code, c.toNat < 256 → decLookup decRoots c = [c.setWidth 8] ∧ decHas 258 c = true) ∧
  (∀ c : Code, 256 ≤ c.toNat → decHas 258 c = false)

/-! ### Encoder -/

/-- 40_encoder.md R132: the first symbol emits CLEAR at the width in force, which is 9, and becomes the phrase. -/
def Obligations.FirstSymbolEmitsClear : Prop :=
  ∀ (s : State) (k : Byte), s.paused = false → s.enc.phase = .first →
    Selects 0x11 (.encSym k) ∧
    exec (.encSym k) s = .next
      { s with enc := { s.enc with w := [k], phase := .run, out := s.enc.out ++ [⟨256, s.enc.width⟩] } } ∧
    (EncSound s.enc → s.enc.width = 9)

/-- 40_encoder.md R133: a hit extends the phrase and does nothing else. -/
def Obligations.HitExtendsThePhrase : Prop :=
  ∀ (s : State) (k : Byte), s.paused = false → s.enc.phase = .run → encHas s.enc.dict (s.enc.w ++ [k]) = true →
    exec (.encSym k) s = .next { s with enc := { s.enc with w := s.enc.w ++ [k] } }

/-- 40_encoder.md R134, R135, R136: a miss emits `code(W)` at the width before the step, inserts `W ++ [K]`, counts, grows the
width, and at 4096 emits CLEAR at the width in force and starts a new dictionary. -/
def Obligations.MissEmitsAndInserts : Prop :=
  ∀ (s : State) (k : Byte) (c : Code), s.paused = false → s.enc.phase = .run →
    encHas s.enc.dict (s.enc.w ++ [k]) = false → encLookup s.enc.dict s.enc.w = some c → s.enc.next.toNat ≤ 4095 →
    let n := s.enc.next.toNat + 1
    let grown : Width := if 2 ^ s.enc.width.toNat < n ∧ s.enc.width.toNat < 12 then s.enc.width + 1 else s.enc.width
    exec (.encSym k) s = .next
      { s with enc :=
        { s.enc with
          w := [k]
          dict := if n = 4096 then encRoots else (s.enc.w ++ [k], BitVec.ofNat 12 s.enc.next.toNat) :: s.enc.dict
          next := if n = 4096 then 258 else BitVec.ofNat 13 n
          width := if n = 4096 then 9 else grown
          out := s.enc.out ++ (⟨c, s.enc.width⟩ :: if n = 4096 then [⟨256, grown⟩] else []) } }

/-- 40_encoder.md R140, 41_decoder.md R161, 60_exceptions.md R300: an insertion at 4096 or above raises
`DictionaryOverflowError` and has no other effect. What else the failed unit holds is kept (log 17). -/
def Obligations.FullDictionaryRaisesOverflow : Prop :=
  (∀ (s : State) (k : Byte), s.paused = false → s.enc.phase = .run → encHas s.enc.dict (s.enc.w ++ [k]) = false →
    4096 ≤ s.enc.next.toNat →
    exec (.encSym k) s = .next { s with enc := { s.enc with err := .dictionaryOverflow, phase := .fail } }) ∧
  (∀ (s : State) (c : Code), s.paused = false → s.dec.phase = .run → c ≠ 256 → c ≠ 257 →
    4096 ≤ s.dec.next.toNat →
    exec (.decCode c) s = .next { s with dec := { s.dec with err := .dictionaryOverflow, phase := .fail } })

/-- 40_encoder.md R137: the end of the input emits the pending phrase and END at the same width. -/
def Obligations.EndEmitsPendingPhraseAndEnd : Prop :=
  ∀ (s : State) (c : Code), s.paused = false → s.enc.phase = .run → encLookup s.enc.dict s.enc.w = some c →
    Selects 0x12 .encEnd ∧
    exec .encEnd s = .next
      { s with enc :=
        { s.enc with phase := .done, out := s.enc.out ++ [⟨c, s.enc.width⟩, ⟨257, s.enc.width⟩] } }

/-- 40_encoder.md R138, 60_exceptions.md R300: the end of an empty input raises `InvalidInputError`, with nothing emitted; so
ends `ENC.INIT; ENC.END`. What else the failed unit holds is kept (log 17). -/
def Obligations.EndOfEmptyInputRaisesInvalidInput : Prop :=
  (∀ s : State, s.paused = false → s.enc.phase = .first →
    exec .encEnd s = .next { s with enc := { s.enc with err := .invalidInput, phase := .fail } } ∧
    (EncSound s.enc → s.enc.out = [])) ∧
  ∀ s : State, s.paused = false →
    ∃ t, encRun [] s = .next t ∧ t.enc.phase = .fail ∧ t.enc.err.code = 1 ∧ t.enc.out = []

/-- 40_encoder.md R143: a completed stream begins with CLEAR at 9 bits and ends with END, and has no END before; the encoder
then stands in `DONE` and nothing but ENC has changed. -/
def Obligations.EncodedStreamBeginsWithClearEndsWithEnd : Prop :=
  ∀ (s : State) (x : List Byte), s.paused = false → x ≠ [] →
    ∃ t, encRun x s = .next t ∧ OnlyEnc s t ∧ t.enc.phase = .done ∧ t.enc.err = .none ∧
      ∃ (body : List Pair) (w : Width), t.enc.out = ⟨256, 9⟩ :: (body ++ [⟨257, w⟩]) ∧ body ≠ [] ∧
        (∀ p ∈ body, p.code ≠ 257 ∧ Pair.Fits p) ∧ (body.getLast?.map Pair.width) = some w ∧ t.enc.width = w

/-! ### Decoder -/

/-- 41_decoder.md R152, R157: a CLEAR, leading or in mid-stream, starts a new segment; as operand of `DEC.CODE` and as a code
word (log 8). -/
def Obligations.ClearStartsANewSegment : Prop :=
  ∀ s : State, s.paused = false → DecAwaits s →
    let t := { s with dec := { s.dec with dict := decRoots, next := 258, width := 9, prev := [], phase := .first } }
    exec (.decCode 256) s = .next t ∧ exec .codeClear s = .next t

/-- 41_decoder.md R153, R156: END ends the run, where a first data code is expected or after one; as operand and as a
code word (log 8). -/
def Obligations.EndCodeEndsTheRun : Prop :=
  ∀ s : State, s.paused = false → DecAwaits s →
    let t := { s with dec := { s.dec with phase := .done } }
    exec (.decCode 257) s = .next t ∧ exec .codeEnd s = .next t

/-- 41_decoder.md R154: the first data code of a segment, a root, is output and becomes the previous phrase; nothing else
changes. -/
def Obligations.FirstDataCodeIsOutput : Prop :=
  ∀ (s : State) (k : Byte), s.paused = false → s.dec.phase = .start ∨ s.dec.phase = .first →
    exec (.decCode (k.setWidth 12)) s = .next
      { s with dec := { s.dec with idx := s.dec.idx ++ [k], prev := [k], phase := .run } }

/-- 41_decoder.md R155, 60_exceptions.md R300: a first data code of 258 or above raises `DecodeError`: it is absent and there
is no previous phrase. A run that meets one ends with no output. What else the failed unit holds is kept (log 17). -/
def Obligations.FirstDataCodeAboveRootsRaisesDecodeError : Prop :=
  ∀ (s : State) (c : Code), s.paused = false → 258 ≤ c.toNat →
    (s.dec.phase = .start ∨ s.dec.phase = .first →
      let t := { s with dec := { s.dec with err := .decodeError, phase := .fail } }
      exec (.decCode c) s = .next t ∧ exec (.codeDyn c) s = .next t ∧
        (DecSound s.dec → s.dec.next = 258 ∧ s.dec.prev = [] ∧ decHas s.dec.next c = false)) ∧
    (∀ codes, codes = [c] ∨ codes = [256, c] →
      ∃ t, decRun codes s = .next t ∧ t.dec.phase = .fail ∧ t.dec.err.code = 4 ∧ t.dec.idx = [])

/-- 41_decoder.md R158, R159, R161 to R166: a data code that is present, or is `D_NEXT`, in `RUN`, as operand of `DEC.CODE` and
as a code word (log 8). `f :: q` is its phrase:
`[c]` for a root, the entry's, or the KwKwK phrase; the new entry is `D_PREV ++ [f]` with code `D_NEXT`. -/
def Obligations.DataCodeInsertsAndOutputs : Prop :=
  ∀ (s : State) (c : Code) (f : Byte) (q : Phrase), s.paused = false → s.dec.phase = .run → s.dec.next.toNat ≤ 4095 →
    ((c.toNat < 256 ∧ f = c.setWidth 8 ∧ q = []) ∨
     (258 ≤ c.toNat ∧ c.toNat < s.dec.next.toNat ∧ decFind s.dec.dict c = some (f :: q)) ∨
     (258 ≤ c.toNat ∧ c.toNat = s.dec.next.toNat ∧ ∃ r, s.dec.prev = f :: r ∧ q = r ++ [f])) →
    let n := s.dec.next.toNat + 1
    let entry := s.dec.prev ++ [f]
    let code : Code := BitVec.ofNat 12 s.dec.next.toNat
    let t :=
      { s with dec :=
        { s.dec with
          dict := if n = 4096 then decRoots else (code, entry) :: s.dec.dict
          trace := s.dec.trace ++ [(code, entry)]
          next := if n = 4096 then 258 else BitVec.ofNat 13 n
          width :=
            if n = 4096 then 9
            else if 2 ^ s.dec.width.toNat < n + 1 ∧ s.dec.width.toNat < 12 then s.dec.width + 1
            else s.dec.width
          idx := s.dec.idx ++ f :: q
          prev := f :: q } }
    exec (.decCode c) s = .next t ∧
      (c.toNat < 256 → exec (.codeRoot (c.setWidth 8)) s = .next t) ∧
      (258 ≤ c.toNat → exec (.codeDyn c) s = .next t)

/-- 41_decoder.md R160, 60_exceptions.md R300: a code above `D_NEXT` in `RUN` raises `DecodeError` and has no other effect. What
else the failed unit holds is kept (log 17). -/
def Obligations.CodeAboveNextRaisesDecodeError : Prop :=
  ∀ (s : State) (c : Code), s.paused = false → s.dec.phase = .run → 258 ≤ c.toNat → s.dec.next.toNat < c.toNat →
    let t := { s with dec := { s.dec with err := .decodeError, phase := .fail } }
    exec (.decCode c) s = .next t ∧ exec (.codeDyn c) s = .next t

/-- 41_decoder.md R167, 60_exceptions.md R300: the end of the code source with no END: `InvalidInputError` when there was no
code at all, else `DecodeError`. What else the failed unit holds is kept (log 17). -/
def Obligations.EndOfSourceWithoutEndRaises : Prop :=
  ∀ s : State, s.paused = false →
    Selects 0x22 .decEos ∧
    (s.dec.phase = .start →
      exec .decEos s = .next { s with dec := { s.dec with err := .invalidInput, phase := .fail } }) ∧
    (s.dec.phase = .first ∨ s.dec.phase = .run →
      exec .decEos s = .next { s with dec := { s.dec with err := .decodeError, phase := .fail } }) ∧
    (∃ t, decRun [] s = .next t ∧ t.dec.phase = .fail ∧ t.dec.err.code = 1) ∧
    (∀ k : Byte, ∃ t, decRun [256, k.setWidth 12] s = .next t ∧ t.dec.phase = .fail ∧ t.dec.err.code = 4) ∧
    ∃ t, decRun [256] s = .next t ∧ t.dec.phase = .fail ∧ t.dec.err.code = 4

/-- 30_encoding.md R91: whatever the state, a code word by its class is the `DEC.CODE` of its value (log 8). -/
def Obligations.CodeWordsActAsTheirDecCode : Prop :=
  ∀ (s : State) (c : Code), exec (decodeCode c) s = exec (.decCode c) s

/-- 46_pipeline_control.md R281, 41_decoder.md R151: a decode run does not depend on anything before its `DEC.INIT`. -/
def Obligations.DecodeRunsAreRestartable : Prop :=
  ∀ (s s' t : State) (codes : List Code), s.paused = false → s'.paused = false → decRun codes s = .next t →
    ∃ t', decRun codes s' = .next t' ∧ t'.dec = t.dec ∧ OnlyDec s' t'

/-- 41_decoder.md R171, R170: the decoder undoes the encoder at the level of codes, for every non-empty input, and ends with
the encoder's dictionary size. -/
def Obligations.DecodingAnEncodedStreamGivesTheInput : Prop :=
  ∀ (s : State) (x : List Byte), s.paused = false → x ≠ [] →
    ∃ t u, encRun x s = .next t ∧ decRun (t.enc.out.map Pair.code) t = .next u ∧
      u.dec.phase = .done ∧ u.dec.err = .none ∧ u.dec.idx = x ∧ u.dec.next = t.enc.next

/-! ### Packer and unpacker -/

/-- 42_bitpacker.md R182, R184: one byte is emitted when the counter and the width come to less than 16, else two; the code is
not masked. -/
def Obligations.PushEmitsOneOrTwoBytes : Prop :=
  ∀ (s : State) (c : Code) (w : Width), s.paused = false → s.pck.phase = .run → s.pck.cnt.toNat ≤ 7 →
    9 ≤ w.toNat → w.toNat ≤ 12 →
    let a : Acc := s.pck.acc ||| (c.setWidth 19 <<< s.pck.cnt.toNat)
    let n := s.pck.cnt.toNat + w.toNat
    exec (.pckPush c w) s = .next
      { s with pck :=
        if n < 16 then
          { s.pck with acc := a >>> 8, cnt := BitVec.ofNat 5 (n - 8), out := s.pck.out ++ [a.setWidth 8] }
        else
          { s.pck with
            acc := a >>> 16, cnt := BitVec.ofNat 5 (n - 16), out := s.pck.out ++ [a.setWidth 8, (a >>> 8).setWidth 8] } }

/-- 42_bitpacker.md R183: the flush emits the remaining bits, if any, with zeros above them, and ends the run. -/
def Obligations.FlushEmitsTheRemainingBits : Prop :=
  ∀ s : State, s.paused = false →
    (s.pck.phase = .run →
      Selects 0x32 .pckFlush ∧
      (0 < s.pck.cnt.toNat → exec .pckFlush s = .next
        { s with pck := ⟨.done, 0, 0, s.pck.out ++ [s.pck.acc.setWidth 8]⟩ }) ∧
      (s.pck.cnt.toNat = 0 → exec .pckFlush s = .next { s with pck := { s.pck with phase := .done } }) ∧
      (s.pck.acc.toNat < 2 ^ s.pck.cnt.toNat → (s.pck.acc.setWidth 8).toNat < 2 ^ s.pck.cnt.toNat)) ∧
    ∃ t, pckRun [] s = .next t ∧ t.pck.out = [] ∧ t.pck.phase = .done

/-- 42_bitpacker.md R186, 20_memory.md R62, 30_encoding.md R95: the packed bytes are the stream's integer, least significant
byte first, `ceil(T / 8)` of them, with zero pad bits. -/
def Obligations.PackedBytesAreTheStreamInteger : Prop :=
  ∀ (s : State) (ps : List Pair), s.paused = false → (∀ p ∈ ps, Pair.Fits p) →
    ∃ t, pckRun ps s = .next t ∧ OnlyPck s t ∧ t.pck.phase = .done ∧
      t.pck.out.length = (bitLength ps + 7) / 8 ∧
      ∀ i : Nat, i < t.pck.out.length → t.pck.out[i]? = some (BitVec.ofNat 8 (streamValue ps / 256 ^ i))

/-- 43_bitunpacker.md R202, R203: a byte is put above the bits held; a pull takes the low bits. -/
def Obligations.FeedAndPullMoveTheLowBits : Prop :=
  (∀ (s : State) (b : Byte), s.paused = false → s.unp.phase = .run → s.unp.cnt.toNat ≤ 11 →
    exec (.unpFeed b) s = .next
      { s with unp :=
        { s.unp with acc := s.unp.acc ||| (b.setWidth 19 <<< s.unp.cnt.toNat)
                     cnt := BitVec.ofNat 5 (s.unp.cnt.toNat + 8) } }) ∧
  (∀ (s : State) (w : Width), s.paused = false → s.unp.phase = .run → 9 ≤ w.toNat → w.toNat ≤ 12 →
    w.toNat ≤ s.unp.cnt.toNat →
    exec (.unpPull w) s = .next
      { s with unp :=
        { s.unp with acc := s.unp.acc >>> w.toNat
                     cnt := BitVec.ofNat 5 (s.unp.cnt.toNat - w.toNat)
                     out := s.unp.out ++ [BitVec.ofNat 12 (s.unp.acc.toNat % 2 ^ w.toNat)] } })

/-- 42_bitpacker.md R185, 43_bitunpacker.md R204, 60_exceptions.md R312: a width outside 9..12, too few or too many bits: not
enabled, refused. -/
def Obligations.OperandsOutOfRangeAreRefused : Prop :=
  ∀ (s : State) (c : Code) (w : Width) (b : Byte), s.paused = false →
    (s.pck.phase = .run → (w.toNat < 9 ∨ 12 < w.toNat) → exec (.pckPush c w) s = .refused .widthOutOfRange) ∧
    (s.unp.phase = .run → (w.toNat < 9 ∨ 12 < w.toNat) → exec (.unpPull w) s = .refused .widthOutOfRange) ∧
    (s.unp.phase = .run → 9 ≤ w.toNat → w.toNat ≤ 12 → s.unp.cnt.toNat < w.toNat →
      exec (.unpPull w) s = .refused .tooFewBits) ∧
    (s.unp.phase = .run → 11 < s.unp.cnt.toNat → exec (.unpFeed b) s = .refused .tooManyBits)

/-- 43_bitunpacker.md R209: unpacking with the same widths gives the codes back, and no pull is refused. -/
def Obligations.UnpackerInvertsThePacker : Prop :=
  ∀ (s : State) (ps : List Pair), s.paused = false → (∀ p ∈ ps, Pair.Fits p) →
    ∃ t u, pckRun ps s = .next t ∧ unpRun t.pck.out (ps.map Pair.width) t = .next u ∧
      u.unp.out = ps.map Pair.code

/-! ### Serializer and parser -/

/-- 44_serializer.md R216 to R224, 20_memory.md R69, 44_serializer.md R226: the container byte by byte; nothing but SER
changes. `N` packed bytes are cut into chunks of 255, chunk `k` behind its length byte at offset `792 + 256 k`. The
form of R216's condition is the model's (log 5). -/
def Obligations.SerializerWritesTheLayout : Prop :=
  ∀ s : State, s.paused = false → s.shared.plen ≤ 256 → ReadableBySer s →
    ∃ t, exec .serRun s = .next t ∧ OnlySer s t ∧ t.ser.phase = .done ∧ t.ser.err = .none ∧
      let r := s.shared
      let k := t.ser.out
      let n := r.pbuf.length
      k.length = 794 + n + (n + 254) / 255 ∧
      k.take 13 = [0x47, 0x49, 0x46, 0x38, 0x39, 0x61, lo8 r.iw, hi8 r.iw, lo8 r.ih, hi8 r.ih, 0xF7, 0x00, 0x00] ∧
      (∀ (i : Nat) (h : i < 256),
        let c := if i < r.plen then r.pal[i] else ⟨0, 0, 0⟩
        ByteAt k (13 + 3 * i) c.r ∧ ByteAt k (14 + 3 * i) c.g ∧ ByteAt k (15 + 3 * i) c.b) ∧
      (k.drop 781).take 11 = [0x2C, 0x00, 0x00, 0x00, 0x00, lo8 r.iw, hi8 r.iw, lo8 r.ih, hi8 r.ih, 0x00, 0x08] ∧
      (∀ j : Nat, 255 * j < n → ByteAt k (792 + 256 * j) (BitVec.ofNat 8 (min 255 (n - 255 * j)))) ∧
      (∀ j : Nat, j < n → k[793 + 256 * (j / 255) + j % 255]? = r.pbuf[j]?) ∧
      k.drop (792 + n + (n + 254) / 255) = [0x00, 0x3B]

/-- 44_serializer.md R225: more than 256 palette entries raise `PaletteOverflowError`; nothing is emitted. `ENCODE` makes the
same test first of all, before the encoder starts. R216 enables `SER.RUN` with the registers it reads written; that a too
large `C_PLEN` is the only one it then reads is the model's choice (log 5), and that SER's port is kept is log 12. -/
def Obligations.TooLongAPaletteRaisesPaletteOverflow : Prop :=
  (∀ s : State, s.paused = false → 256 < s.shared.plen → s.shared.written.plen = true →
    exec .serRun s = .next { s with ser := { s.ser with err := .paletteOverflow, phase := .fail } }) ∧
  ∀ (s : State) (iw ih : Dim) (pal : List RGB) (x : List Byte), s.paused = false → 256 < pal.length →
    exec (.runEncode iw ih pal x) s = .next { s with comp := ⟨.fail, .paletteOverflow⟩ }

/-- 44_serializer.md R216, 10_state.md R52, 00_scope.md R15: while not paused `SER.RUN` runs, in every phase, when the registers
it reads have been written since hardware reset, and is refused otherwise; so it is right after reset, a cancel and the
reset input. The record of the writes, and that a too large `C_PLEN` is the only register then read, are the model's
(log 5). -/
def Obligations.SerializerNeedsWrittenRegisters : Prop :=
  (∀ s : State, s.paused = false → s.shared.plen ≤ 256 →
    (ReadableBySer s → ∃ t, exec .serRun s = .next t) ∧ (¬ ReadableBySer s → exec .serRun s = .refused .notWritten)) ∧
  (∀ s : State, s.paused = false → 256 < s.shared.plen →
    (s.shared.written.plen = true → ∃ t, exec .serRun s = .next t) ∧
    (s.shared.written.plen = false → exec .serRun s = .refused .notWritten)) ∧
  exec .serRun State.reset = .refused .notWritten ∧
  (∀ s t : State, exec .ctlCancel s = .next t → exec .serRun t = .refused .notWritten) ∧
  ∀ (s t : State) (q : List Item), s.inq = .resetInput :: q → step s = .next t → exec .serRun t = .refused .notWritten

/-- 44_serializer.md R216, 46_pipeline_control.md R260, 45_parser.md R236: what counts as written: nothing after reset, after a
cancel and after the reset input; everything `SER.RUN` reads after an accepted parse and after an `ENCODE` whose palette
is not too long; after a rejected parse, and an `ENCODE` whose palette is, what was. The record is the model's (log 5). -/
def Obligations.WrittenRegistersAreRecorded : Prop :=
  State.reset.shared.written = {} ∧ ¬ ReadableBySer State.reset ∧
  (∀ s t : State, exec .ctlCancel s = .next t → t.shared.written = {}) ∧
  (∀ (s t : State) (q : List Item), s.inq = .resetInput :: q → step s = .next t → t.shared.written = {}) ∧
  (∀ (s t : State) (cont : List Byte), exec (.parRun cont) s = .next t →
    (t.par.phase = .done → ReadableBySer t) ∧ (t.par.phase = .fail → t.shared.written = s.shared.written)) ∧
  (∀ s t : State, exec .contTrailer s = .next t → ReadableBySer t) ∧
  ∀ (s t : State) (iw ih : Dim) (pal : List RGB) (x : List Byte), exec (.runEncode iw ih pal x) s = .next t →
    (pal.length ≤ 256 → ReadableBySer t) ∧ (256 < pal.length → t.shared.written = s.shared.written)

/-- 44_serializer.md R220: entries at or above `C_PLEN` do not reach the container. -/
def Obligations.PaletteBeyondItsLengthIsNotRead : Prop :=
  ∀ (s s' t : State) (h : exec .serRun s = .next t) (pal : Palette),
    (∀ (i : Nat) (hi : i < 256), i < s.shared.plen → pal[i] = s.shared.pal[i]) →
    s' = { s with shared := { s.shared with pal := pal } } →
    exec .serRun s' = .next { t with shared := s'.shared }

/-- 44_serializer.md R232: the parser takes the serializer's container back, in every state in which `SER.RUN` is enabled. -/
def Obligations.ParserInvertsTheSerializer : Prop :=
  ∀ s : State, s.paused = false → s.shared.plen ≤ 256 → ReadableBySer s →
    ∃ t u, exec .serRun s = .next t ∧ exec (.parRun t.ser.out) t = .next u ∧
      u.par.phase = .done ∧ u.par.err = .none ∧ u.par.pos = t.ser.out.length ∧
      u.shared.iw = s.shared.iw ∧ u.shared.ih = s.shared.ih ∧ u.shared.lsw = s.shared.iw ∧ u.shared.lsh = s.shared.ih ∧
      u.shared.pbuf = s.shared.pbuf ∧ u.shared.plen = 256 ∧
      ∀ (i : Nat) (h : i < 256), u.shared.pal[i] = if i < s.shared.plen then s.shared.pal[i] else ⟨0, 0, 0⟩

/-- 45_parser.md R248: serializing what was parsed from the serializer's container gives the same container; the
parse leaves `SER.RUN` enabled. -/
def Obligations.SecondSerializationIsTheSame : Prop :=
  ∀ s : State, s.paused = false → s.shared.plen ≤ 256 → ReadableBySer s →
    ∃ t u v, exec .serRun s = .next t ∧ exec (.parRun t.ser.out) t = .next u ∧ exec .serRun u = .next v ∧
      v.ser.out = t.ser.out

/-- 45_parser.md R236, R246, 60_exceptions.md R300: on every byte sequence `PAR.RUN` ends `DONE`, or `FAIL` with
`DecodeError`, `R_POS` inside the container and the shared registers as before. No other unit changes. R246 has a model treat
the shared registers as unspecified after the error; that they are kept is the model's choice (log 17). -/
def Obligations.ParserEndsDoneOrFail : Prop :=
  ∀ (s : State) (cont : List Byte), s.paused = false →
    ∃ t, exec (.parRun cont) s = .next t ∧ t = { s with par := t.par, shared := t.shared } ∧
      t.par.pos ≤ cont.length ∧
      ((t.par.phase = .done ∧ t.par.err = .none ∧ t.shared.plen = 256) ∨
       (t.par.phase = .fail ∧ t.par.err = .decodeError ∧ t.shared = s.shared))

/-- 45_parser.md R238 to R244, 30_encoding.md R105: a container that is accepted has every fixed byte, and the registers are
its fields; up to `R_POS` it is a container of the layout whose sub-blocks, of 1 to 255 bytes each, give `PBUF`. -/
def Obligations.AcceptedContainersHaveTheFixedBytes : Prop :=
  ∀ (s t : State) (cont : List Byte), exec (.parRun cont) s = .next t → t.par.phase = .done →
    cont.take 6 = [0x47, 0x49, 0x46, 0x38, 0x39, 0x61] ∧
    (cont.drop 10).take 3 = [0xF7, 0x00, 0x00] ∧ (cont.drop 781).take 5 = [0x2C, 0x00, 0x00, 0x00, 0x00] ∧
    (cont.drop 790).take 2 = [0x00, 0x08] ∧ ByteAt cont (t.par.pos - 2) 0x00 ∧ ByteAt cont (t.par.pos - 1) 0x3B ∧
    ByteAt cont 6 (lo8 t.shared.lsw) ∧ ByteAt cont 7 (hi8 t.shared.lsw) ∧
    ByteAt cont 8 (lo8 t.shared.lsh) ∧ ByteAt cont 9 (hi8 t.shared.lsh) ∧
    ByteAt cont 786 (lo8 t.shared.iw) ∧ ByteAt cont 787 (hi8 t.shared.iw) ∧
    ByteAt cont 788 (lo8 t.shared.ih) ∧ ByteAt cont 789 (hi8 t.shared.ih) ∧
    (∀ (i : Nat) (h : i < 256), ByteAt cont (13 + 3 * i) t.shared.pal[i].r ∧
      ByteAt cont (14 + 3 * i) t.shared.pal[i].g ∧ ByteAt cont (15 + 3 * i) t.shared.pal[i].b) ∧
    ∃ blocks : List (List Byte), LegalBlocks blocks ∧ t.shared.pbuf = blocks.flatten ∧
      cont.take t.par.pos =
        containerOf t.shared.lsw t.shared.lsh t.shared.iw t.shared.ih t.shared.pal.toList blocks

/-- 20_memory.md R69, 45_parser.md R236, R238 to R245: every container of the layout is accepted, whatever its sub-blocks and
whatever follows the trailer, and its fields are what the registers then hold. -/
def Obligations.LayoutContainersAreAccepted : Prop :=
  ∀ (s : State) (lsw lsh iw ih : Dim) (pal : List RGB) (blocks : List (List Byte)) (extra : List Byte),
    s.paused = false → pal.length = 256 → LegalBlocks blocks →
    let cont := containerOf lsw lsh iw ih pal blocks
    ∃ t, exec (.parRun (cont ++ extra)) s = .next t ∧ t = { s with par := t.par, shared := t.shared } ∧
      t.par = ⟨.done, .none, cont.length, .sig, {}⟩ ∧
      t.shared.lsw = lsw ∧ t.shared.lsh = lsh ∧ t.shared.iw = iw ∧ t.shared.ih = ih ∧
      t.shared.plen = 256 ∧ t.shared.pbuf = blocks.flatten ∧
      ∀ (i : Nat) (h : i < 256), pal[i]? = some t.shared.pal[i]

/-- 45_parser.md R245: bytes after the trailer are not examined. -/
def Obligations.BytesAfterTheTrailerAreIgnored : Prop :=
  ∀ (s t : State) (cont extra : List Byte), exec (.parRun cont) s = .next t → t.par.phase = .done →
    exec (.parRun (cont ++ extra)) s = .next t

/-- 45_parser.md R237: a container cut before its end fails, with `R_POS` no further than the cut. -/
def Obligations.TruncatedContainersFail : Prop :=
  ∀ (s t : State) (cont : List Byte) (n : Nat), exec (.parRun cont) s = .next t → t.par.phase = .done → n < t.par.pos →
    ∃ u, exec (.parRun (cont.take n)) s = .next u ∧ u.par.phase = .fail ∧ u.par.err = .decodeError ∧ u.par.pos ≤ n

/-- 45_parser.md R252: a parse done field by field, one field a step, ends in the state `PAR.RUN` gives. The field steps are
the model's (log 9). -/
def Obligations.FieldByFieldParseIsParRun : Prop :=
  ∀ (s t : State) (cont : List Byte), s.paused = false → s.par.next = .sig → s.inq = [.cont cont] →
    exec (.parRun cont) { s with inq := [] } = .next t →
    ∃ k : Nat, Host.Core.run core k s = .next t

/-- 45_parser.md R236, R238 to R244: what each field does when the parse stands at it: `R_POS` moves past it, its value goes to
the parse's locals, and the trailer writes the shared registers; a field issued where the parse does not stand at it is
refused. The field steps, and this refusal, are the model's (log 9). -/
def Obligations.FieldsAreReadInOrder : Prop :=
  ∀ (s : State) (v : Dim) (pal : List RGB) (data : List Byte), s.paused = false →
    let p := s.par
    let read := fun (n : Nat) (f : ContField) (l : ParLocals) =>
      ({ s with par := ⟨p.phase, p.err, p.pos + n, f, l⟩ } : State)
    (p.next = .sig → exec .contSig s = .next { s with par := ⟨p.phase, .none, 6, .lsw, {}⟩ }) ∧
    (p.next = .lsw → exec (.contLsw v) s = .next (read 2 .lsh { p.loc with lsw := v })) ∧
    (p.next = .lsh → exec (.contLsh v) s = .next (read 2 .sflags { p.loc with lsh := v })) ∧
    (p.next = .sflags → exec .contSflags s = .next (read 1 .bg p.loc)) ∧
    (p.next = .bg → exec .contBg s = .next (read 1 .aspect p.loc)) ∧
    (p.next = .aspect → exec .contAspect s = .next (read 1 .gct p.loc)) ∧
    (p.next = .gct → pal.length = 256 → exec (.contGct pal) s = .next (read 768 .sep { p.loc with pal := pal })) ∧
    (p.next = .sep → exec .contSep s = .next (read 1 .left p.loc)) ∧
    (p.next = .left → exec .contLeft s = .next (read 2 .top p.loc)) ∧
    (p.next = .top → exec .contTop s = .next (read 2 .iw p.loc)) ∧
    (p.next = .iw → exec (.contIw v) s = .next (read 2 .ih { p.loc with iw := v })) ∧
    (p.next = .ih → exec (.contIh v) s = .next (read 2 .iflags { p.loc with ih := v })) ∧
    (p.next = .iflags → exec .contIflags s = .next (read 1 .mincode p.loc)) ∧
    (p.next = .mincode → exec .contMincode s = .next (read 1 .blocks p.loc)) ∧
    (p.next = .blocks →
      exec (.contSubblock data) s = .next (read (1 + data.length) .blocks { p.loc with buf := p.loc.buf ++ data })) ∧
    (p.next = .blocks → exec .contTerm s = .next (read 1 .trailer p.loc)) ∧
    (p.next = .trailer → p.loc.pal.length = 256 →
      ∃ t, exec .contTrailer s = .next t ∧ t = { s with par := t.par, shared := t.shared } ∧
        t.par = ⟨.done, .none, p.pos + 1, .sig, {}⟩ ∧
        t.shared.iw = p.loc.iw ∧ t.shared.ih = p.loc.ih ∧ t.shared.lsw = p.loc.lsw ∧ t.shared.lsh = p.loc.lsh ∧
        t.shared.plen = 256 ∧ t.shared.pbuf = p.loc.buf ∧
        ∀ (i : Nat) (h : i < 256), p.loc.pal[i]? = some t.shared.pal[i]) ∧
    ∀ (i : Instr) (f : ContField), (encode i).1 = .contIn f → p.next ≠ f → exec i s = .refused .notAtField

/-! ### Control -/

/-- 46_pipeline_control.md R276, 10_state.md R37: the pause sets `CTL_PAUSED` and nothing else; while it is set nothing is
enabled but `CTL.RESUME` and `CTL.CANCEL`. -/
def Obligations.PauseOnlySetsThePauseBit : Prop :=
  (∀ s : State, s.paused = false → Selects 0x02 .ctlPause ∧ exec .ctlPause s = .next { s with paused := true }) ∧
  ∀ (s : State) (i : Instr), s.paused = true → i ≠ .ctlResume → i ≠ .ctlCancel → exec i s = .refused .paused

/-- 46_pipeline_control.md R277: the resume clears `CTL_PAUSED` and nothing else, so what follows a pause and a resume sees
exactly the state before the pause. -/
def Obligations.ResumeRestoresTheStateBeforeThePause : Prop :=
  (∀ s : State, s.paused = true → Selects 0x03 .ctlResume ∧ exec .ctlResume s = .next { s with paused := false }) ∧
  ∀ (s : State) (is : List Instr), s.paused = false →
    exec .ctlResume s = .refused .notPaused ∧ runAll (.ctlPause :: .ctlResume :: is) s = runAll is s

/-! ### Composites -/

/-- 46_pipeline_control.md R261 (2): an empty input, with a palette that is not too long, raises `InvalidInputError` in ENC, with
nothing packed and nothing on `CONT_OUT`. -/
def Obligations.EncodeOfEmptyInputIsInvalidInput : Prop :=
  ∀ (s : State) (iw ih : Dim) (pal : List RGB), s.paused = false → pal.length ≤ 256 →
    ∃ t, exec (.runEncode iw ih pal []) s = .next t ∧ t.comp = ⟨.fail, .invalidInput⟩ ∧
      t.enc.phase = .fail ∧ t.enc.err = .invalidInput ∧ t.enc.out = [] ∧ t.pck.out = [] ∧ t.shared.pbuf = [] ∧
      t.ser = s.ser ∧ t.dec = s.dec ∧ t.unp = s.unp ∧ t.par = s.par ∧ t.paused = s.paused ∧ t.inq = s.inq

/-- 46_pipeline_control.md R260, R262, R282: a non-empty input with a palette of at most 256 entries ends `DONE`; the encoder
ends as after `ENC.RUN x`, the packer as after `PCK.RUN` of the encoder's pairs, `PBUF` is the packer's bytes, and
`CONT_OUT` is what `SER.RUN` emits from the registers. -/
def Obligations.EncodeIsItsExpansion : Prop :=
  ∀ (s : State) (iw ih : Dim) (pal : List RGB) (x : List Byte), s.paused = false → pal.length ≤ 256 → x ≠ [] →
    ∃ t e p, exec (.runEncode iw ih pal x) s = .next t ∧ t.comp = ⟨.done, .none⟩ ∧
      encRun x s = .next e ∧ t.enc = e.enc ∧ pckRun e.enc.out s = .next p ∧ t.pck = p.pck ∧
      t.shared.pbuf = t.pck.out ∧ t.shared.iw = iw ∧ t.shared.ih = ih ∧ t.shared.plen = pal.length ∧
      t.shared.lsw = s.shared.lsw ∧ t.shared.lsh = s.shared.lsh ∧
      (∀ (i : Nat) (h : i < 256), some t.shared.pal[i] = if i < pal.length then pal[i]? else some s.shared.pal[i]) ∧
      exec .serRun t = .next t ∧ t.ser.phase = .done ∧
      t.dec = s.dec ∧ t.unp = s.unp ∧ t.par = s.par ∧ t.paused = s.paused ∧ t.inq = s.inq

/-- 46_pipeline_control.md R265, R266, R267, R282: `DECODE` always ends, `DONE` or `FAIL` with one of its error kinds, and
touches neither ENC, PCK nor SER; a container the parser rejects leaves UNP and DEC alone; after one it accepts, the
state is the one `UNP.INIT`, `DEC.INIT` and the pull loop lead to from `PAR.RUN`'s, with the composite's status from
DEC's. No operation ever stops the machine with a fault (log 16). -/
def Obligations.DecodeAlwaysEnds : Prop :=
  (∀ (s : State) (cont : List Byte), s.paused = false →
    ∃ t p, exec (.runDecode cont) s = .next t ∧ exec (.parRun cont) s = .next p ∧ t.par = p.par ∧ t.shared = p.shared ∧
      (t.comp = ⟨.done, .none⟩ ∨ t.comp = ⟨.fail, .decodeError⟩ ∨ t.comp = ⟨.fail, .invalidInput⟩) ∧
      (t.comp.phase = .done ↔ (p.par.phase = .done ∧ t.dec.phase = .done)) ∧
      t.enc = s.enc ∧ t.pck = s.pck ∧ t.ser = s.ser ∧ t.paused = s.paused ∧ t.inq = s.inq ∧
      (p.par.phase = .fail → t.unp = s.unp ∧ t.dec = s.dec ∧ t.comp = ⟨.fail, .decodeError⟩) ∧
      (p.par.phase = .done → ∃ u v w, exec .unpInit p = .next u ∧ exec .decInit u = .next v ∧
        PullLoop p.shared.pbuf v w ∧
        t = { w with comp := if w.dec.phase = .done then ⟨.done, .none⟩ else ⟨.fail, w.dec.err⟩ })) ∧
  (∀ (s : State) (i : Instr) (f : Fault), exec i s ≠ .fault f)

/-- 46_pipeline_control.md R266: with a packed stream of at most one byte no code can be pulled: `InvalidInputError`. -/
def Obligations.DecodeOfNoCodeIsInvalidInput : Prop :=
  ∀ (s p : State) (cont : List Byte), s.paused = false → exec (.parRun cont) s = .next p → p.par.phase = .done →
    p.shared.pbuf.length ≤ 1 →
    ∃ t, exec (.runDecode cont) s = .next t ∧ t.comp = ⟨.fail, .invalidInput⟩ ∧ t.dec.phase = .fail ∧
      t.dec.err = .invalidInput ∧ t.dec.idx = []

/-- 46_pipeline_control.md R270, 70_reset_and_hazards.md R334: `DECODE` of what `ENCODE` wrote gives the input back, but for the
stated exception: the packed bit length is a multiple of 8 and END stands where the decoder's width grows; then it ends
in `DecodeError` after all of the input. -/
def Obligations.DecodeOfEncodeGivesTheInput : Prop :=
  ∀ (s : State) (iw ih : Dim) (pal : List RGB) (x : List Byte), s.paused = false → pal.length ≤ 256 → x ≠ [] →
    ∃ t u, exec (.runEncode iw ih pal x) s = .next t ∧ exec (.runDecode t.ser.out) t = .next u ∧ u.dec.idx = x ∧
      u.shared.iw = iw ∧ u.shared.ih = ih ∧
      (∀ (i : Nat) (h : i < 256), some u.shared.pal[i] = if i < pal.length then pal[i]? else some ⟨0, 0, 0⟩) ∧
      let hazard := bitLength t.enc.out % 8 = 0 ∧
        (t.enc.next = 512 ∨ t.enc.next = 1024 ∨ t.enc.next = 2048)
      (hazard ∧ u.comp = ⟨.fail, .decodeError⟩) ∨ (¬ hazard ∧ u.comp = ⟨.done, .none⟩)

/-! ### Rules of the whole machine -/

/-- 10_state.md R39, R42: an operation writes only the units its row of the access table names. -/
def Obligations.OperationsWriteOnlyTheirUnits : Prop :=
  ∀ (s t : State) (i : Instr), exec i s = .next t →
    (writesEnc i = false → t.enc = s.enc) ∧ (writesDec i = false → t.dec = s.dec) ∧
    (writesPck i = false → t.pck = s.pck) ∧ (writesUnp i = false → t.unp = s.unp) ∧
    (writesSer i = false → t.ser = s.ser) ∧ (writesPar i = false → t.par = s.par) ∧
    (writesComp i = false → t.comp = s.comp) ∧ (writesShared i = false → t.shared = s.shared) ∧
    (writesPaused i = false → t.paused = s.paused) ∧ t.inq = s.inq

/-- 60_exceptions.md R301, 10_state.md R38: a unit leaves `FAIL` only by its `INIT` or next run, by a composite that runs it, or
by a cancel. -/
def Obligations.FailIsLeftOnlyByANewRun : Prop :=
  ∀ (s t : State) (i : Instr), exec i s = .next t →
    (s.enc.phase = .fail → t.enc.phase ≠ .fail → i = .encInit ∨ (∃ iw ih pal x, i = .runEncode iw ih pal x) ∨ i = .ctlCancel) ∧
    (s.dec.phase = .fail → t.dec.phase ≠ .fail → i = .decInit ∨ (∃ cont, i = .runDecode cont) ∨ i = .ctlCancel) ∧
    (s.ser.phase = .fail → t.ser.phase ≠ .fail →
      i = .serRun ∨ (∃ iw ih pal x, i = .runEncode iw ih pal x) ∨ i = .ctlCancel) ∧
    (s.par.phase = .fail → t.par.phase ≠ .fail →
      (∃ cont, i = .parRun cont) ∨ (∃ cont, i = .runDecode cont) ∨ i = .contTrailer ∨ i = .ctlCancel) ∧
    (s.comp.phase = .fail → t.comp.phase ≠ .fail →
      (∃ iw ih pal x, i = .runEncode iw ih pal x) ∨ (∃ cont, i = .runDecode cont) ∨ i = .ctlCancel)

/-- 00_scope.md R15, 20_memory.md R71, 30_encoding.md R118: a step takes the oldest item. An operation, a code word, or a field
of a container at the parse's position runs as the instruction it decodes to; bytes that select no operation are
refused; with nothing issued the state is held (log 1). -/
def Obligations.AStepRunsTheDecodedInstruction : Prop :=
  (∀ s : State, s.inq = [] → step s = .next s) ∧
  (∀ (s : State) (bytes rest : List Byte) (q : List Item) (i : Instr), s.inq = .op bytes :: q →
    decode .op bytes = .ok (i, rest) → step s = exec i { s with inq := q }) ∧
  (∀ (s : State) (bytes : List Byte) (q : List Item) (why : Reject), s.inq = .op bytes :: q →
    decode .op bytes = .error why → step s = .refused (.noOperation why)) ∧
  (∀ (s : State) (c : Code) (q : List Item), s.inq = .code c :: q → step s = exec (decodeCode c) { s with inq := q }) ∧
  (∀ (s : State) (bytes rest : List Byte) (q : List Item) (i : Instr), s.inq = .cont bytes :: q →
    decode (.contIn s.par.next) bytes = .ok (i, rest) →
    step s = exec i { s with inq := if i = .contTrailer then q else .cont rest :: q })

/-- 30_encoding.md R105, 45_parser.md R246, 60_exceptions.md R300: bytes that are no legal field at the parse's position raise
`DecodeError` with `R_POS` where the failing field starts; the parse is over and the rest of the container is dropped (log 9).
R246 has a model treat the shared registers as unspecified after the error; that they are kept is the model's choice
(log 17). -/
def Obligations.IllegalFieldsRaiseDecodeError : Prop :=
  ∀ (s : State) (bytes : List Byte) (q : List Item) (why : Reject), s.paused = false → s.inq = .cont bytes :: q →
    decode (.contIn s.par.next) bytes = .error why →
    step s = .next
      { s with
        inq := q
        par := ⟨.fail, .decodeError,
          if s.par.next = .sig then 0
          else if s.par.next = .gct then s.par.pos + 3 * (bytes.length / 3) else s.par.pos, .sig, {}⟩ }

/-- 10_state.md R34, R35, R36: the driver's writes of the shared registers, each at one step. That they are items of the queue is
the model's (log 1, log 11). -/
def Obligations.DriverWritesReachTheSharedRegisters : Prop :=
  ∀ (s : State) (q : List Item) (v : Dim) (n : Nat) (i b : Byte) (c : RGB),
    let w := s.shared.written
    (s.inq = .write (.iw v) :: q → step s = .next
      { s with inq := q, shared := { s.shared with iw := v, written := { w with iw := true } } }) ∧
    (s.inq = .write (.ih v) :: q → step s = .next
      { s with inq := q, shared := { s.shared with ih := v, written := { w with ih := true } } }) ∧
    (s.inq = .write (.plen n) :: q → step s = .next
      { s with inq := q, shared := { s.shared with plen := n, written := { w with plen := true } } }) ∧
    (s.inq = .write .pbufClear :: q → step s = .next
      { s with inq := q, shared := { s.shared with pbuf := [], written := { w with pbuf := true } } }) ∧
    (s.inq = .write (.pbufAppend b) :: q → step s = .next
      { s with inq := q, shared := { s.shared with pbuf := s.shared.pbuf ++ [b] } }) ∧
    (s.inq = .write (.pal i c) :: q → ∃ t, step s = .next t ∧
      t = { s with inq := q, shared := { s.shared with pal := t.shared.pal, written := t.shared.written } } ∧
      (∀ (j : Nat) (h : j < 256), t.shared.pal[j] = if j = i.toNat then c else s.shared.pal[j]) ∧
      t.shared.written = { w with pal := t.shared.written.pal } ∧
      ∀ j : Nat, j < 256 → t.shared.written.pal.getLsbD j = (decide (j = i.toNat) || w.pal.getLsbD j))

/-! ### Encoding -/

/-- 30_encoding.md R118, R91, 20_memory.md R69: words written out from the spec decode to what they stand for. -/
def Obligations.SpecWordsDecode : Prop :=
  decode .op [0x02] = .ok (.ctlPause, []) ∧ decode .op [0x11, 0x07] = .ok (.encSym 7, []) ∧
  decode .op [0x41, 0x0F] = .ok (.unpFeed 15, []) ∧ decode .op [0x50] = .ok (.serRun, []) ∧
  decode .op [0x05] = .error (.noSuchOperation 0x05) ∧
  decodeCode 0b000100000000 = .codeClear ∧ decodeCode 0b000100000001 = .codeEnd ∧
  decodeCode 0b000001000001 = .codeRoot 65 ∧ decodeCode 0b000100000010 = .codeDyn 258 ∧
  decode (.contIn .sig) [0x47, 0x49, 0x46, 0x38, 0x39, 0x61] = .ok (.contSig, []) ∧
  decode (.contIn .lsw) [0x01, 0x00] = .ok (.contLsw 1, []) ∧
  decode (.contIn .blocks) [0x00] = .ok (.contTerm, [])

/-- 30_encoding.md R118, R91, R96: decoding the word of a well-formed instruction gives it back with every operand, whatever
bytes follow. The operand layout is the model's (log 2, log 3). -/
def Obligations.DecodeOfEncodeIsTheInstruction : Prop := ∀ i : Instr, Sys2Proof.Laws.WordRoundTrip.Statement i

/-- 30_encoding.md R118, R91, R104: a word has one meaning: what the decoder accepts is the encoder's word of a well-formed
instruction. -/
def Obligations.AcceptedWordsAreEncodings : Prop :=
  ∀ (p : Port) (bytes rest : List Byte) (i : Instr), decode p bytes = .ok (i, rest) →
    i.wellFormed = true ∧ (encode i).1 = p ∧ bytes = (encode i).2 ++ rest

/-- 60_exceptions.md R291, 10_state.md R22, R25, R28, R30, R32: the numbers the driver reads in the `ERR` and `PHASE` registers. -/
def Obligations.StatusNumbers : Prop :=
  [Err.none, .invalidInput, .paletteOverflow, .dictionaryOverflow, .decodeError].map (fun e => e.code.toNat) =
    [0, 1, 2, 3, 4] ∧
  [EncPhase.idle, .first, .run, .done, .fail].map (fun p => p.code.toNat) = [0, 1, 2, 3, 4] ∧
  [DecPhase.idle, .start, .first, .run, .done, .fail].map (fun p => p.code.toNat) = [0, 1, 2, 3, 4, 5] ∧
  [PckPhase.idle, .run, .done].map (fun p => p.code.toNat) = [0, 1, 2] ∧
  [UnpPhase.idle, .run].map (fun p => p.code.toNat) = [0, 1] ∧
  [RunPhase.idle, .done, .fail].map (fun p => p.code.toNat) = [0, 1, 2]
end

