-- ==== Sys2Proof/Laws/State.lean ====
section
/-! SUPPORT. One lemma per field per setter of State, so that no proof unfolds a record update. -/

namespace Sys2Proof.Machine.State

variable (s : State)

@[simp] theorem setEnc_enc (e : Enc) : (s.setEnc e).enc = e := rfl
@[simp] theorem setEnc_dec (e : Enc) : (s.setEnc e).dec = s.dec := rfl
@[simp] theorem setEnc_pck (e : Enc) : (s.setEnc e).pck = s.pck := rfl
@[simp] theorem setEnc_unp (e : Enc) : (s.setEnc e).unp = s.unp := rfl
@[simp] theorem setEnc_ser (e : Enc) : (s.setEnc e).ser = s.ser := rfl
@[simp] theorem setEnc_par (e : Enc) : (s.setEnc e).par = s.par := rfl
@[simp] theorem setEnc_comp (e : Enc) : (s.setEnc e).comp = s.comp := rfl
@[simp] theorem setEnc_shared (e : Enc) : (s.setEnc e).shared = s.shared := rfl
@[simp] theorem setEnc_paused (e : Enc) : (s.setEnc e).paused = s.paused := rfl
@[simp] theorem setEnc_inq (e : Enc) : (s.setEnc e).inq = s.inq := rfl
@[simp] theorem setEnc_freeCount (e : Enc) : (s.setEnc e).freeCount = s.freeCount := rfl

@[simp] theorem setDec_enc (d : Dec) : (s.setDec d).enc = s.enc := rfl
@[simp] theorem setDec_dec (d : Dec) : (s.setDec d).dec = d := rfl
@[simp] theorem setDec_pck (d : Dec) : (s.setDec d).pck = s.pck := rfl
@[simp] theorem setDec_unp (d : Dec) : (s.setDec d).unp = s.unp := rfl
@[simp] theorem setDec_ser (d : Dec) : (s.setDec d).ser = s.ser := rfl
@[simp] theorem setDec_par (d : Dec) : (s.setDec d).par = s.par := rfl
@[simp] theorem setDec_comp (d : Dec) : (s.setDec d).comp = s.comp := rfl
@[simp] theorem setDec_shared (d : Dec) : (s.setDec d).shared = s.shared := rfl
@[simp] theorem setDec_paused (d : Dec) : (s.setDec d).paused = s.paused := rfl
@[simp] theorem setDec_inq (d : Dec) : (s.setDec d).inq = s.inq := rfl
@[simp] theorem setDec_freeCount (d : Dec) : (s.setDec d).freeCount = s.freeCount := rfl

@[simp] theorem setPck_enc (p : Pck) : (s.setPck p).enc = s.enc := rfl
@[simp] theorem setPck_dec (p : Pck) : (s.setPck p).dec = s.dec := rfl
@[simp] theorem setPck_pck (p : Pck) : (s.setPck p).pck = p := rfl
@[simp] theorem setPck_unp (p : Pck) : (s.setPck p).unp = s.unp := rfl
@[simp] theorem setPck_ser (p : Pck) : (s.setPck p).ser = s.ser := rfl
@[simp] theorem setPck_par (p : Pck) : (s.setPck p).par = s.par := rfl
@[simp] theorem setPck_comp (p : Pck) : (s.setPck p).comp = s.comp := rfl
@[simp] theorem setPck_shared (p : Pck) : (s.setPck p).shared = s.shared := rfl
@[simp] theorem setPck_paused (p : Pck) : (s.setPck p).paused = s.paused := rfl
@[simp] theorem setPck_inq (p : Pck) : (s.setPck p).inq = s.inq := rfl
@[simp] theorem setPck_freeCount (p : Pck) : (s.setPck p).freeCount = s.freeCount := rfl

@[simp] theorem setUnp_enc (u : Unp) : (s.setUnp u).enc = s.enc := rfl
@[simp] theorem setUnp_dec (u : Unp) : (s.setUnp u).dec = s.dec := rfl
@[simp] theorem setUnp_pck (u : Unp) : (s.setUnp u).pck = s.pck := rfl
@[simp] theorem setUnp_unp (u : Unp) : (s.setUnp u).unp = u := rfl
@[simp] theorem setUnp_ser (u : Unp) : (s.setUnp u).ser = s.ser := rfl
@[simp] theorem setUnp_par (u : Unp) : (s.setUnp u).par = s.par := rfl
@[simp] theorem setUnp_comp (u : Unp) : (s.setUnp u).comp = s.comp := rfl
@[simp] theorem setUnp_shared (u : Unp) : (s.setUnp u).shared = s.shared := rfl
@[simp] theorem setUnp_paused (u : Unp) : (s.setUnp u).paused = s.paused := rfl
@[simp] theorem setUnp_inq (u : Unp) : (s.setUnp u).inq = s.inq := rfl
@[simp] theorem setUnp_freeCount (u : Unp) : (s.setUnp u).freeCount = s.freeCount := rfl

@[simp] theorem setSer_enc (e : Ser) : (s.setSer e).enc = s.enc := rfl
@[simp] theorem setSer_dec (e : Ser) : (s.setSer e).dec = s.dec := rfl
@[simp] theorem setSer_pck (e : Ser) : (s.setSer e).pck = s.pck := rfl
@[simp] theorem setSer_unp (e : Ser) : (s.setSer e).unp = s.unp := rfl
@[simp] theorem setSer_ser (e : Ser) : (s.setSer e).ser = e := rfl
@[simp] theorem setSer_par (e : Ser) : (s.setSer e).par = s.par := rfl
@[simp] theorem setSer_comp (e : Ser) : (s.setSer e).comp = s.comp := rfl
@[simp] theorem setSer_shared (e : Ser) : (s.setSer e).shared = s.shared := rfl
@[simp] theorem setSer_paused (e : Ser) : (s.setSer e).paused = s.paused := rfl
@[simp] theorem setSer_inq (e : Ser) : (s.setSer e).inq = s.inq := rfl
@[simp] theorem setSer_freeCount (e : Ser) : (s.setSer e).freeCount = s.freeCount := rfl

@[simp] theorem setPar_enc (p : Par) : (s.setPar p).enc = s.enc := rfl
@[simp] theorem setPar_dec (p : Par) : (s.setPar p).dec = s.dec := rfl
@[simp] theorem setPar_pck (p : Par) : (s.setPar p).pck = s.pck := rfl
@[simp] theorem setPar_unp (p : Par) : (s.setPar p).unp = s.unp := rfl
@[simp] theorem setPar_ser (p : Par) : (s.setPar p).ser = s.ser := rfl
@[simp] theorem setPar_par (p : Par) : (s.setPar p).par = p := rfl
@[simp] theorem setPar_comp (p : Par) : (s.setPar p).comp = s.comp := rfl
@[simp] theorem setPar_shared (p : Par) : (s.setPar p).shared = s.shared := rfl
@[simp] theorem setPar_paused (p : Par) : (s.setPar p).paused = s.paused := rfl
@[simp] theorem setPar_inq (p : Par) : (s.setPar p).inq = s.inq := rfl
@[simp] theorem setPar_freeCount (p : Par) : (s.setPar p).freeCount = s.freeCount := rfl

@[simp] theorem setComp_enc (c : Comp) : (s.setComp c).enc = s.enc := rfl
@[simp] theorem setComp_dec (c : Comp) : (s.setComp c).dec = s.dec := rfl
@[simp] theorem setComp_pck (c : Comp) : (s.setComp c).pck = s.pck := rfl
@[simp] theorem setComp_unp (c : Comp) : (s.setComp c).unp = s.unp := rfl
@[simp] theorem setComp_ser (c : Comp) : (s.setComp c).ser = s.ser := rfl
@[simp] theorem setComp_par (c : Comp) : (s.setComp c).par = s.par := rfl
@[simp] theorem setComp_comp (c : Comp) : (s.setComp c).comp = c := rfl
@[simp] theorem setComp_shared (c : Comp) : (s.setComp c).shared = s.shared := rfl
@[simp] theorem setComp_paused (c : Comp) : (s.setComp c).paused = s.paused := rfl
@[simp] theorem setComp_inq (c : Comp) : (s.setComp c).inq = s.inq := rfl
@[simp] theorem setComp_freeCount (c : Comp) : (s.setComp c).freeCount = s.freeCount := rfl

@[simp] theorem setShared_enc (r : Shared) : (s.setShared r).enc = s.enc := rfl
@[simp] theorem setShared_dec (r : Shared) : (s.setShared r).dec = s.dec := rfl
@[simp] theorem setShared_pck (r : Shared) : (s.setShared r).pck = s.pck := rfl
@[simp] theorem setShared_unp (r : Shared) : (s.setShared r).unp = s.unp := rfl
@[simp] theorem setShared_ser (r : Shared) : (s.setShared r).ser = s.ser := rfl
@[simp] theorem setShared_par (r : Shared) : (s.setShared r).par = s.par := rfl
@[simp] theorem setShared_comp (r : Shared) : (s.setShared r).comp = s.comp := rfl
@[simp] theorem setShared_shared (r : Shared) : (s.setShared r).shared = r := rfl
@[simp] theorem setShared_paused (r : Shared) : (s.setShared r).paused = s.paused := rfl
@[simp] theorem setShared_inq (r : Shared) : (s.setShared r).inq = s.inq := rfl
@[simp] theorem setShared_freeCount (r : Shared) : (s.setShared r).freeCount = s.freeCount := rfl

@[simp] theorem setPaused_enc (b : Bool) : (s.setPaused b).enc = s.enc := rfl
@[simp] theorem setPaused_dec (b : Bool) : (s.setPaused b).dec = s.dec := rfl
@[simp] theorem setPaused_pck (b : Bool) : (s.setPaused b).pck = s.pck := rfl
@[simp] theorem setPaused_unp (b : Bool) : (s.setPaused b).unp = s.unp := rfl
@[simp] theorem setPaused_ser (b : Bool) : (s.setPaused b).ser = s.ser := rfl
@[simp] theorem setPaused_par (b : Bool) : (s.setPaused b).par = s.par := rfl
@[simp] theorem setPaused_comp (b : Bool) : (s.setPaused b).comp = s.comp := rfl
@[simp] theorem setPaused_shared (b : Bool) : (s.setPaused b).shared = s.shared := rfl
@[simp] theorem setPaused_paused (b : Bool) : (s.setPaused b).paused = b := rfl
@[simp] theorem setPaused_inq (b : Bool) : (s.setPaused b).inq = s.inq := rfl
@[simp] theorem setPaused_freeCount (b : Bool) : (s.setPaused b).freeCount = s.freeCount := rfl

@[simp] theorem setInq_enc (q : List Item) : (s.setInq q).enc = s.enc := rfl
@[simp] theorem setInq_dec (q : List Item) : (s.setInq q).dec = s.dec := rfl
@[simp] theorem setInq_pck (q : List Item) : (s.setInq q).pck = s.pck := rfl
@[simp] theorem setInq_unp (q : List Item) : (s.setInq q).unp = s.unp := rfl
@[simp] theorem setInq_ser (q : List Item) : (s.setInq q).ser = s.ser := rfl
@[simp] theorem setInq_par (q : List Item) : (s.setInq q).par = s.par := rfl
@[simp] theorem setInq_comp (q : List Item) : (s.setInq q).comp = s.comp := rfl
@[simp] theorem setInq_shared (q : List Item) : (s.setInq q).shared = s.shared := rfl
@[simp] theorem setInq_paused (q : List Item) : (s.setInq q).paused = s.paused := rfl
@[simp] theorem setInq_inq (q : List Item) : (s.setInq q).inq = q := rfl
@[simp] theorem setInq_freeCount (q : List Item) : (s.setInq q).freeCount = s.freeCount := rfl

end Sys2Proof.Machine.State
end

