-- ==== Sys2Proof/Laws/Ops.lean ====
section
/-! SUPPORT. What each shared operation can do: enabling, raising, the effects of the units on the state, sequences. -/

namespace Sys2Proof.Machine

/-! ### Enabling -/

@[simp] theorem whenEnabled_nil (t : State) : whenEnabled [] t = .next t := rfl

@[simp] theorem whenEnabled_cons (ok : Bool) (why : Refusal) (cs : List (Bool × Refusal)) (t : State) :
    whenEnabled ((ok, why) :: cs) t = if ok = true then whenEnabled cs t else .refused why := rfl

/-- An operation that is enabled takes exactly its transition. -/
theorem whenEnabled_eq_next {cs : List (Bool × Refusal)} {t u : State} :
    whenEnabled cs t = .next u ↔ (∀ c ∈ cs, c.1 = true) ∧ t = u := by
  induction cs with
  | nil => simp
  | cons c cs ih => obtain ⟨_ | _, why⟩ := c <;> simp [ih]

/-- The enabling test stops with a refusal, never with a fault. -/
theorem whenEnabled_ne_fault (cs : List (Bool × Refusal)) (t : State) (f : Fault) : whenEnabled cs t ≠ .fault f := by
  induction cs with
  | nil => simp
  | cons c cs ih => obtain ⟨_ | _, why⟩ := c <;> simp [ih]

/-- With the first condition false the operation is refused for its reason. -/
theorem whenEnabled_refused {why : Refusal} (cs : List (Bool × Refusal)) (t : State) :
    whenEnabled ((false, why) :: cs) t = .refused why := rfl

@[simp] theorem running_fst (s : State) : (running s).1 = !s.paused := rfl
@[simp] theorem encOpen_fst (s : State) : (encOpen s).1 = (s.enc.phase = .first || s.enc.phase = .run : Bool) := rfl
@[simp] theorem decOpen_fst (s : State) :
    (decOpen s).1 = (s.dec.phase = .start || s.dec.phase = .first || s.dec.phase = .run : Bool) := rfl
@[simp] theorem pckOpen_fst (s : State) : (pckOpen s).1 = (s.pck.phase = .run : Bool) := rfl
@[simp] theorem unpOpen_fst (s : State) : (unpOpen s).1 = (s.unp.phase = .run : Bool) := rfl
@[simp] theorem atField_fst (f : ContField) (s : State) : (atField f s).1 = (s.par.next = f : Bool) := rfl

/-! ### Raising -/

@[simp] theorem raise_enc (e : Err) (s : State) : raise .enc e s = s.setEnc { s.enc with err := e, phase := .fail } := rfl
@[simp] theorem raise_dec (e : Err) (s : State) : raise .dec e s = s.setDec { s.dec with err := e, phase := .fail } := rfl
@[simp] theorem raise_ser (e : Err) (s : State) : raise .ser e s = s.setSer { s.ser with err := e, phase := .fail } := rfl
@[simp] theorem raise_par (e : Err) (s : State) :
    raise .par e s = s.setPar { s.par with err := e, phase := .fail, next := .sig, loc := {} } := rfl
@[simp] theorem raise_comp (e : Err) (s : State) : raise .comp e s = s.setComp { err := e, phase := .fail } := rfl

/-! ### Effects of the units -/

@[simp] theorem encEffect_ok (e : Enc) (ps : List Pair) (s : State) :
    encEffect (.ok (e, ps)) s = (s.setEnc { e with out := s.enc.out ++ ps }, ps) := rfl

@[simp] theorem encEffect_error (x : Err) (s : State) : encEffect (.error x) s = (raise .enc x s, []) := rfl

/-- An operation of ENC changes unit ENC only. -/
theorem encEffect_only (r : EncEffect) (s : State) : (encEffect r s).1 = s.setEnc (encEffect r s).1.enc := by
  rcases r with x | ⟨e, ps⟩ <;> rfl

@[simp] theorem decEffect_ok (d : Dec) (s : State) : decEffect (.ok d) s = s.setDec d := rfl

@[simp] theorem decEffect_error (x : Err) (s : State) : decEffect (.error x) s = raise .dec x s := rfl

/-- An operation of DEC changes unit DEC only. -/
theorem decEffect_only (r : DecEffect) (s : State) : decEffect r s = s.setDec (decEffect r s).dec := by
  rcases r with x | d <;> rfl

/-- An operation of PCK changes unit PCK only. -/
theorem pckEffect_only (r : Pck × List Byte) (s : State) : pckEffect r s = s.setPck (pckEffect r s).pck := rfl

/-- A serializer run changes unit SER only. -/
theorem serRun_only (s : State) : serRun s = s.setSer (serRun s).ser := by
  unfold serRun; split <;> rfl

/-- A parse changes unit PAR, and if it is complete the shared registers. -/
theorem parRun_only (cont : List Byte) (s : State) :
    parRun cont s = (s.setPar (parRun cont s).par).setShared (parRun cont s).shared := by
  unfold parRun; split <;> rfl

/-- A failing parse leaves the shared registers alone. -/
theorem parRun_error {cont : List Byte} {pos : Nat} (h : parParse cont = .error pos) (s : State) :
    parRun cont s =
      s.setPar { s.par with pos := pos, err := .decodeError, phase := .fail, next := .sig, loc := {} } := by
  simp only [parRun, h, parFail]
  rfl

/-- A complete parse. -/
theorem parRun_ok {cont : List Byte} {l : ParLocals} {pos : Nat} (h : parParse cont = .ok (l, pos)) (s : State) :
    parRun cont s = parCommit l pos s := by
  simp [parRun, h]

/-! ### Sequences -/

@[simp] theorem follow_next {α β : Type} (a : α) (f : α → Host.Outcome β Fault Refusal) :
    follow (.next a) f = f a := rfl

/-- A sequence answers next when its first part does and what follows does. -/
theorem follow_eq_next {α β : Type} {r : Host.Outcome α Fault Refusal} {f : α → Host.Outcome β Fault Refusal} {b : β} :
    follow r f = .next b ↔ ∃ a, r = .next a ∧ f a = .next b := by
  cases r <;> simp [follow]

@[simp] theorem runAll_nil (s : State) : runAll [] s = .next s := rfl
@[simp] theorem runAll_cons (i : Instr) (is : List Instr) (s : State) :
    runAll (i :: is) s = follow (exec i s) (runAll is) := rfl

theorem runAll_append (is js : List Instr) (s : State) :
    runAll (is ++ js) s = follow (runAll is s) (runAll js) := by
  induction is generalizing s with
  | nil => rfl
  | cons i is ih =>
    simp only [List.cons_append, runAll_cons]
    cases h : exec i s <;> simp [follow, ih]

/-! ### Written registers -/

/-- The first `n` entries are the indices below `n`. -/
theorem firstEntries_getLsbD {n i : Nat} (hi : i < 256) : (firstEntries n).getLsbD i = decide (i < n) := by
  rw [firstEntries, BitVec.getLsbD_ofNat, Nat.testBit_two_pow_sub_one, decide_eq_true hi, Bool.true_and]

theorem palWritten_iff {w : Written} {n : Nat} (hn : n ≤ 256) :
    palWritten w n = true ↔ ∀ i : Nat, i < n → w.pal.getLsbD i = true := by
  rw [palWritten, beq_iff_eq]
  constructor
  · intro h i hi
    have := congrArg (fun v : BitVec 256 => v.getLsbD i) h
    simpa [BitVec.getLsbD_and, firstEntries_getLsbD (n := n) (Nat.lt_of_lt_of_le hi hn), hi] using this
  · intro h
    apply BitVec.eq_of_getLsbD_eq
    intro i hi
    rw [BitVec.getLsbD_and, firstEntries_getLsbD hi]
    by_cases hin : i < n
    · simp [hin, h i hin]
    · simp [hin]

end Sys2Proof.Machine
end

