-- ==== Sys2Proof/Laws/Width.lean ====
section
/-! SUPPORT. Code widths: the growth step, and the codes a dictionary of a given size holds. -/

namespace Sys2Proof.Machine

theorem leastWidth_first : LeastWidth 258 9 ∧ LeastWidth 259 9 := by
  refine ⟨⟨by decide, by decide, by decide, ?_⟩, by decide, by decide, by decide, ?_⟩ <;>
    intro v h9 hv <;> have : v < 9 := hv <;> omega

/-- `growWidth` keeps the width least when the number grows by one (10_state.md R41). -/
theorem growWidth_least {n : Nat} {w : Width} (h : LeastWidth n w) (hn : n + 1 ≤ 4096) :
    LeastWidth (n + 1) (growWidth (n + 1) w) := by
  obtain ⟨h9, h12, hle, hmin⟩ := h
  unfold growWidth
  split
  case isTrue hg =>
    obtain ⟨hlt, hw⟩ := hg
    have hw12 : w.toNat < 12 := hw
    have hadd : (w + 1).toNat = w.toNat + 1 := by
      rw [BitVec.toNat_add]
      show (w.toNat + 1) % 16 = _
      omega
    refine ⟨by omega, by omega, ?_, fun v hv9 hv => ?_⟩
    · rw [hadd, pow_succ]; exact Nat.le_trans (Nat.succ_le_succ hle) (by have := Nat.two_pow_pos w.toNat; omega)
    · rw [hadd] at hv
      rcases Nat.lt_or_ge v w.toNat with hv' | hv'
      · exact Nat.lt_succ_of_lt (hmin v hv9 hv')
      · rw [show v = w.toNat by omega]; exact hlt
  case isFalse hg =>
    refine ⟨h9, h12, ?_, fun v hv9 hv => Nat.lt_succ_of_lt (hmin v hv9 hv)⟩
    by_contra hc
    have : ¬ w.toNat < 12 := fun hw => hg ⟨by omega, hw⟩
    rw [show w.toNat = 12 by omega] at hc
    omega

/-- The width least for a number is one value. -/
theorem LeastWidth.unique {n : Nat} {w v : Width} (hw : LeastWidth n w) (hv : LeastWidth n v) : w = v := by
  obtain ⟨w9, -, wle, wmin⟩ := hw
  obtain ⟨v9, -, vle, vmin⟩ := hv
  apply BitVec.eq_of_toNat_eq
  rcases Nat.lt_trichotomy w.toNat v.toNat with h | h | h
  · exact absurd wle (Nat.not_le.2 (vmin _ w9 h))
  · exact h
  · exact absurd vle (Nat.not_le.2 (wmin _ v9 h))

@[simp] theorem dynCodes_first : dynCodes 258 = [] := rfl

theorem dynCodes_succ {n : Nat} (h : 258 ≤ n) : dynCodes (n + 1) = n :: dynCodes n := by
  unfold dynCodes
  rw [show n + 1 - 258 = (n - 258) + 1 by omega, List.range'_concat]
  simp
  omega

theorem mem_dynCodes {n c : Nat} : c ∈ dynCodes n ↔ 258 ≤ c ∧ c < n := by
  simp only [dynCodes, List.mem_reverse, List.mem_range'_1]
  omega

end Sys2Proof.Machine
end

