-- ==== Sys2Proof/Laws/Bits.lean ====
section
/-! SUPPORT. The packer and the unpacker: what each operation leaves in the counter and the accumulator. -/

namespace Sys2Proof.Machine

theorem legalWidth_iff {w : Width} : legalWidth w = true ↔ 9 ≤ w.toNat ∧ w.toNat ≤ 12 := by
  simp only [legalWidth, Bool.and_eq_true, decide_eq_true_eq]

/-! ### Packer -/

/-- A drain round with eight bits or more. -/
theorem pckDrain_more (n : Nat) {p : Pck} (h : 8 ≤ p.cnt.toNat) :
    pckDrain (n + 1) p =
      ((pckDrain n { p with acc := p.acc >>> 8, cnt := p.cnt - 8 }).1,
        p.acc.setWidth 8 :: (pckDrain n { p with acc := p.acc >>> 8, cnt := p.cnt - 8 }).2) := by
  rw [pckDrain, if_pos h]

/-- A drain round with fewer. -/
theorem pckDrain_done (n : Nat) {p : Pck} (h : p.cnt.toNat < 8) : pckDrain n p = (p, []) := by
  cases n with
  | zero => rfl
  | succ n => rw [pckDrain, if_neg (by omega)]

/-- The drain touches the accumulator and the counter only. -/
theorem pckDrain_frame (n : Nat) (p : Pck) :
    (pckDrain n p).1.phase = p.phase ∧ (pckDrain n p).1.out = p.out := by
  induction n generalizing p with
  | zero => exact ⟨rfl, rfl⟩
  | succ n ih =>
    rw [pckDrain]
    split
    · exact ih _
    · exact ⟨rfl, rfl⟩

theorem sub_eight {c : Cnt} (h : 8 ≤ c.toNat) : (c - 8).toNat = c.toNat - 8 := by
  have := c.isLt
  rw [BitVec.toNat_sub]
  show (32 - 8 + c.toNat) % 32 = _
  omega

/-- Enough rounds leave at most seven bits (42_bitpacker.md R187). -/
theorem pckDrain_cnt (n : Nat) (p : Pck) (h : p.cnt.toNat < 8 * n + 8) :
    (pckDrain n p).1.cnt.toNat = p.cnt.toNat % 8 := by
  induction n generalizing p with
  | zero => show p.cnt.toNat = _; omega
  | succ n ih =>
    rcases Nat.lt_or_ge p.cnt.toNat 8 with h8 | h8
    · rw [pckDrain_done _ h8]; show p.cnt.toNat = _; omega
    · rw [pckDrain_more n h8]
      have := ih { p with acc := p.acc >>> 8, cnt := p.cnt - 8 } (by
        show (p.cnt - 8).toNat < _; rw [sub_eight h8]; omega)
      rw [this]
      show (p.cnt - 8).toNat % 8 = _
      rw [sub_eight h8]; omega

theorem pckPush_phase (c : Code) (w : Width) (p : Pck) : (pckPush c w p).1.phase = p.phase := (pckDrain_frame 4 _).1

theorem pckPush_sound (c : Code) (w : Width) (p : Pck) (out : List Byte) :
    PckSound { (pckPush c w p).1 with out := out } := by
  intro _
  show (pckPush c w p).1.cnt.toNat ≤ 7
  have := (p.cnt + w.setWidth 5).isLt
  unfold pckPush
  rw [pckDrain_cnt 4 _ (by show (p.cnt + w.setWidth 5).toNat < _; omega)]
  omega

theorem pckFlush_phase (p : Pck) : (pckFlush p).1.phase = .done := by
  unfold pckFlush; split <;> rfl

theorem pckFlush_sound (p : Pck) (out : List Byte) : PckSound { (pckFlush p).1 with out := out } := by
  intro h
  have : (pckFlush p).1.phase = .run := h
  rw [pckFlush_phase] at this
  exact nomatch this

/-! ### Unpacker -/

/-- A fed byte keeps the held bits below the counter (43_bitunpacker.md R208). -/
theorem unpFeed_sound {u : Unp} (hc : u.cnt.toNat ≤ 11) (ha : u.acc.toNat < 2 ^ u.cnt.toNat) (b : Byte) :
    (unpFeed b u).cnt.toNat = u.cnt.toNat + 8 ∧ (unpFeed b u).acc.toNat < 2 ^ (u.cnt.toNat + 8) := by
  have hb := b.isLt
  constructor
  · show (u.cnt + 8).toNat = _
    rw [BitVec.toNat_add]
    show (u.cnt.toNat + 8) % 32 = _
    omega
  · show (u.acc ||| (b.setWidth 19 <<< u.cnt.toNat)).toNat < _
    rw [BitVec.toNat_or]
    refine Nat.or_lt_two_pow (lt_of_lt_of_le ha (Nat.pow_le_pow_right (by omega) (by omega))) ?_
    rw [BitVec.toNat_shiftLeft, BitVec.toNat_setWidth, Nat.shiftLeft_eq]
    refine lt_of_le_of_lt (Nat.mod_le _ _) ?_
    rw [pow_add, Nat.mul_comm (2 ^ u.cnt.toNat)]
    exact Nat.mul_lt_mul_of_pos_right (by rw [Nat.mod_eq_of_lt (by omega)]; exact hb) (Nat.two_pow_pos _)

/-- A pulled code takes its bits off (43_bitunpacker.md R203, R208). -/
theorem unpPull_sound {u : Unp} {w : Width} (hw : w.toNat ≤ u.cnt.toNat) (ha : u.acc.toNat < 2 ^ u.cnt.toNat) :
    (unpPull w u).cnt.toNat = u.cnt.toNat - w.toNat ∧ (unpPull w u).acc.toNat < 2 ^ (u.cnt.toNat - w.toNat) := by
  have h16 := w.isLt
  have h32 := u.cnt.isLt
  constructor
  · show (u.cnt - w.setWidth 5).toNat = _
    rw [BitVec.toNat_sub, BitVec.toNat_setWidth]
    omega
  · show (u.acc >>> w.toNat).toNat < _
    rw [BitVec.toNat_ushiftRight, Nat.shiftRight_eq_div_pow]
    refine (Nat.div_lt_iff_lt_mul (Nat.two_pow_pos _)).2 ?_
    rw [← pow_add, Nat.sub_add_cancel hw]
    exact ha

/-- The code pulled is the held bits below the width (43_bitunpacker.md R203). -/
theorem unpCode_toNat {u : Unp} {w : Width} (hw : w.toNat ≤ 12) :
    (unpCode w u).toNat = u.acc.toNat % 2 ^ w.toNat := by
  have h : 2 ^ w.toNat ≤ 2 ^ 12 := Nat.pow_le_pow_right (by omega) hw
  have hp := Nat.two_pow_pos w.toNat
  have hm := Nat.mod_lt u.acc.toNat hp
  unfold unpCode
  rw [BitVec.toNat_setWidth, BitVec.toNat_and, BitVec.toNat_ofNat, Nat.mod_eq_of_lt (a := 2 ^ w.toNat - 1) (by omega),
    Nat.and_two_pow_sub_one_eq_mod]
  exact Nat.mod_eq_of_lt (by omega)

end Sys2Proof.Machine
end

