-- ==== Sys2Proof/Laws/Container.lean ====
section
/-! SUPPORT. The parser: a run, and a field-by-field parse, leave unit PAR sound. -/

namespace Sys2Proof.Machine

/-- A parse that failed is over. -/
theorem parFail_sound (pos : Nat) (s : State) : ParSound (parFail pos s).par :=
  ⟨.inr rfl, fun _ => ⟨rfl, by simp [parFail]⟩, fun h => absurd rfl h, (fun h => nomatch h), fun h => by
    simp [parFail, fieldOffset] at h⟩

/-- A parse that completed is over. -/
theorem parCommit_sound (l : ParLocals) (pos : Nat) (s : State) : ParSound (parCommit l pos s).par :=
  ⟨.inl rfl, fun _ => ⟨rfl, by simp [parCommit]⟩, fun h => absurd rfl h, (fun h => nomatch h), fun h => by
    simp [parCommit, fieldOffset] at h⟩

theorem parRun_sound (cont : List Byte) (s : State) : ParSound (parRun cont s).par := by
  unfold parRun
  split
  · exact parCommit_sound _ _ s
  · exact parFail_sound _ s

/-- A field inside the fixed layout moves the parse to the field behind it (20_memory.md R69). -/
theorem fieldRead_sound {s : State} (h : ParSound s.par) {n : Nat} {nxt : ContField} {l : ParLocals}
    (hs : nxt ≠ .sig) (hf : nxt ≠ .blocks → nxt ≠ .trailer → s.par.pos + n = fieldOffset nxt)
    (hb : nxt = .blocks ∨ nxt = .trailer → fieldOffset nxt ≤ s.par.pos + n)
    (ht : fieldOffset .sep ≤ fieldOffset nxt → l.pal.length = 256) :
    ParSound (fieldRead n nxt l s).par :=
  ⟨h.kinds, fun e => absurd e hs, fun _ h1 h2 => hf h1 h2, hb, ht⟩

theorem fieldSig_sound {s : State} : ParSound (fieldSig s).par :=
  ⟨.inl rfl, (fun e => nomatch e), fun _ _ _ => rfl, fun h => (by rcases h with h | h <;> exact nomatch h), fun h => by
    simp [fieldSig, fieldOffset] at h⟩

/-- 768 bytes are 256 entries. -/
theorem length_triples (n : Nat) (bs : List Byte) (h : bs.length = 3 * n) : (triples bs).length = n := by
  induction n generalizing bs with
  | zero => rw [List.length_eq_zero_iff.1 h]; rfl
  | succ n ih =>
    rcases bs with _ | ⟨r, _ | ⟨g, _ | ⟨b, rest⟩⟩⟩
    · simp at h
    · simp at h; omega
    · simp at h; omega
    · simp only [triples, List.length_cons]
      rw [ih rest (by simp at h; omega)]

/-- What a one-operand word decodes to. -/
theorem operand_inv {α : Type} {tk : List Byte → Take α} {mk : α → Instr} {bs rest : List Byte} {i : Instr}
    (h : operand tk mk bs = .ok (i, rest)) : ∃ a, i = mk a := by
  unfold operand at h
  split at h <;> simp at h
  exact ⟨_, h.1.symm⟩

/-- What a two-operand word decodes to. -/
theorem operand2_inv {α β : Type} {ta : List Byte → Take α} {tb : List Byte → Take β} {mk : α → β → Instr}
    {bs rest : List Byte} {i : Instr} (h : operand2 ta tb mk bs = .ok (i, rest)) : ∃ a b, i = mk a b := by
  unfold operand2 at h
  split at h
  · exact ⟨_, operand_inv h⟩
  · simp at h

/-- A colour table that was decoded has 256 entries (30_encoding.md R99). -/
theorem decode_contGct_length {p : Port} {bytes rest : List Byte} {i : Instr} (h : decode p bytes = .ok (i, rest)) :
    ∀ pal, i = .contGct pal → pal.length = 256 := by
  rintro pal rfl
  rcases p with _ | _ | f
  · simp only [decode] at h
    unfold decodeOp at h
    (repeat' split at h) <;> try simp at h
    all_goals first
      | exact (operand_inv h).elim fun _ h => nomatch h
      | exact (operand2_inv h).elim fun _ h => h.elim fun _ h => nomatch h
  · obtain ⟨c, h⟩ := operand_inv h
    unfold decodeCode at h
    (repeat' split at h) <;> cases h
  · rcases f <;> simp only [decode, decodeField] at h
    case gct =>
      unfold takeN at h
      split at h <;> simp at h
      rw [← h.1, length_triples 256 _ (by rw [List.length_take]; omega)]
    case blocks =>
      (repeat' split at h) <;> try simp at h
      unfold takeN at h
      split at h <;> simp at h
    all_goals first
      | exact (operand_inv h).elim fun _ h => nomatch h
      | (unfold fixedField at h; (repeat' split at h) <;> simp at h)

end Sys2Proof.Machine
end

