-- ==== Sys2Proof/Laws/Enc.lean ====
section
/-! SUPPORT. The encoder: its dictionary after an insertion, and the soundness of its unit under every operation. -/

namespace Sys2Proof.Machine

/-! ### The dictionary -/

theorem encLookup_single (d : EncDict) (k : Byte) : encLookup d [k] = some (k.setWidth 12) := rfl

theorem encLookup_long (d : EncDict) {p : Phrase} (h : p.length ≠ 1) : encLookup d p = encFind d p := by
  rcases p with _ | ⟨a, _ | ⟨b, q⟩⟩ <;> first | rfl | simp at h

theorem encFind_isSome {d : EncDict} {p : Phrase} : (encFind d p).isSome ↔ p ∈ d.map Prod.fst := by
  induction d with
  | nil => simp [encFind]
  | cons x d ih =>
    obtain ⟨q, c⟩ := x
    by_cases h : q = p
    · simp [encFind, h]
    · simp only [encFind, if_neg h, ih, List.map_cons, List.mem_cons]
      exact ⟨.inr, fun h' => h'.resolve_left (fun e => h e.symm)⟩

theorem encFind_mem {d : EncDict} {p : Phrase} {c : Code} (h : encFind d p = some c) : (p, c) ∈ d := by
  induction d with
  | nil => simp [encFind] at h
  | cons x d ih =>
    obtain ⟨q, c'⟩ := x
    simp only [encFind] at h
    split at h
    case isTrue e => subst e; simp_all
    case isFalse => exact List.mem_cons_of_mem _ (ih h)

/-- An insertion adds its key and drops none. -/
theorem encHas_insert {d : EncDict} {p q : Phrase} (c : NextCode) :
    encHas d q = true → encHas (encInsert d p c) q = true := by
  unfold encHas encInsert
  by_cases h1 : q.length = 1
  · obtain ⟨k, rfl⟩ := List.length_eq_one_iff.1 h1
    simp [encLookup_single]
  · rw [encLookup_long _ h1, encLookup_long _ h1, encFind_isSome, encFind_isSome]
    exact List.mem_cons_of_mem _

theorem encHas_single (d : EncDict) (k : Byte) : encHas d [k] = true := rfl

/-- A key that is present is not empty when the dynamic keys are long. -/
theorem EncRunning.w_ne_nil {e : Enc} (h : EncRunning e) : e.w ≠ [] := by
  intro hw
  have hk := h.key
  rw [hw, encHas, encLookup_long _ (by simp), encFind_isSome] at hk
  obtain ⟨x, hx, hx0⟩ := List.mem_map.1 hk
  have := h.long x hx
  rw [hx0] at this
  simp at this

/-- The code of a present key fits the width in force (40_encoder.md R141 (d)). -/
theorem EncRunning.code_fits {e : Enc} (h : EncRunning e) : Pair.Fits ⟨encCode e.dict e.w, e.width⟩ := by
  obtain ⟨h9, h12, hle, -⟩ := h.width
  refine ⟨?_, h9, h12⟩
  have h512 : 2 ^ 9 ≤ 2 ^ e.width.toNat := Nat.pow_le_pow_right (by omega) h9
  show (encCode e.dict e.w).toNat < 2 ^ e.width.toNat
  have hk := h.key
  unfold encHas at hk
  obtain ⟨c, hc⟩ := Option.isSome_iff_exists.1 hk
  have he : encCode e.dict e.w = c := by rw [encCode, hc]; rfl
  rw [he]
  by_cases h1 : e.w.length = 1
  · obtain ⟨k, hk⟩ := List.length_eq_one_iff.1 h1
    rw [hk, encLookup_single] at hc
    have := k.isLt
    have : c.toNat < 2 ^ 9 := by
      rw [← Option.some.inj hc, BitVec.toNat_setWidth]
      omega
    omega
  · rw [encLookup_long _ h1] at hc
    have hm := encFind_mem hc
    have : c.toNat ∈ dynCodes e.next.toNat := by
      rw [← h.codes]
      exact List.mem_map.2 ⟨_, hm, rfl⟩
    have := (mem_dynCodes.1 this).2
    omega

/-- END and CLEAR fit the width in force. -/
theorem fits_of_small {c : Code} {w : Width} (hc : c.toNat < 512) (h9 : 9 ≤ w.toNat) (h12 : w.toNat ≤ 12) :
    Pair.Fits ⟨c, w⟩ := by
  have h512 : 2 ^ 9 ≤ 2 ^ w.toNat := Nat.pow_le_pow_right (by omega) h9
  exact ⟨by show c.toNat < 2 ^ w.toNat; omega, h9, h12⟩

/-! ### Soundness -/

theorem dictFull_false {n : NextCode} (h : n.toNat ≤ 4095) : dictFull n = false :=
  decide_eq_false (by show ¬ 4096 ≤ n.toNat; omega)

theorem encReset_full {e : Enc} (h : e.next.toNat = 4096) :
    encReset e = ({ e with dict := [], next := 258, width := 9 }, [⟨256, e.width⟩]) := if_pos h

theorem encReset_not_full {e : Enc} (h : e.next.toNat ≠ 4096) : encReset e = (e, []) := if_neg h

/-- ENC with the roots only, before a miss. -/
theorem encRunning_roots {e : Enc} (hn : e.next = 258) (hw : e.width = 9) (hd : e.dict = []) {k : Byte} (hk : e.w = [k]) :
    EncRunning e := by
  obtain ⟨p, r, n, w, q, d, o⟩ := e
  subst hn hw hd hk
  exact ⟨Nat.le_refl _, Nat.le_of_ble_eq_true rfl, leastWidth_first.1, encHas_single _ k, (by exact dynCodes_first.symm), List.nodup_nil, by simp, by simp⟩

/-- The state of a miss step: what the new unit and the emitted pairs are. -/
theorem encMiss_eq {e : Enc} (k : Byte) (h : e.next.toNat ≤ 4095) :
    encMiss k e = .ok ({ (encReset (encAssign k e)).1 with w := [k] },
      ⟨encCode e.dict e.w, e.width⟩ :: (encReset (encAssign k e)).2) := by
  have : dictFull e.next = false := dictFull_false h
  simp [encMiss, this]

theorem next_succ {n : NextCode} (h : n.toNat ≤ 4095) : (n + 1).toNat = n.toNat + 1 := by
  rw [BitVec.toNat_add]
  show (n.toNat + 1) % 8192 = _
  omega

/-- A miss keeps the encoder running (40_encoder.md R134 to R136, R141). -/
theorem encMiss_running {e : Enc} (k : Byte) (h : EncRunning e) (hm : encHas e.dict (e.w ++ [k]) = false) :
    EncRunning { (encReset (encAssign k e)).1 with w := [k] } := by
  have hn := next_succ h.high
  have hlow := h.low
  have hhigh := h.high
  by_cases h4096 : e.next.toNat = 4095
  · rw [encReset_full (show (e.next + 1).toNat = 4096 by omega)]
    exact encRunning_roots rfl rfl rfl rfl
  · rw [encReset_not_full (show (e.next + 1).toNat ≠ 4096 by omega)]
    have hw := List.length_pos_iff.2 h.w_ne_nil
    have hlong : (e.w ++ [k]).length ≠ 1 := by rw [List.length_append, List.length_singleton]; omega
    refine ⟨?_, ?_, ?_, rfl, ?_, ?_, ?_, ?_⟩
    · show 258 ≤ (e.next + 1).toNat; omega
    · show (e.next + 1).toNat ≤ 4095; omega
    · show LeastWidth (e.next + 1).toNat (growWidth (e.next + 1).toNat e.width)
      rw [hn]; exact growWidth_least h.width (by omega)
    · show (encInsert e.dict (e.w ++ [k]) e.next).map (fun x => x.2.toNat) = dynCodes (e.next + 1).toNat
      rw [hn, dynCodes_succ hlow, ← h.codes]
      simp only [encInsert, List.map_cons, BitVec.toNat_setWidth]
      congr 1
      omega
    · show ((encInsert e.dict (e.w ++ [k]) e.next).map Prod.fst).Nodup
      refine List.nodup_cons.2 ⟨fun hc => ?_, h.nodup⟩
      rw [encHas, encLookup_long _ hlong] at hm
      rw [← encFind_isSome] at hc
      simp_all
    · intro x hx
      rcases List.mem_cons.1 (show x ∈ encInsert e.dict (e.w ++ [k]) e.next from hx) with rfl | hx
      · show 2 ≤ (e.w ++ [k]).length; simp; omega
      · exact h.long x hx
    · intro x hx
      refine encHas_insert (d := e.dict) e.next ?_
      rcases List.mem_cons.1 (show x ∈ encInsert e.dict (e.w ++ [k]) e.next from hx) with rfl | hx
      · show encHas e.dict (e.w ++ [k]).dropLast = true
        rw [List.dropLast_concat]; exact h.key
      · exact h.prefixes x hx

/-- The pairs of a miss fit their widths. -/
theorem encReset_fits {e : Enc} (k : Byte) (h : EncRunning e) :
    ∀ p ∈ (encReset (encAssign k e)).2, Pair.Fits p := by
  intro p hp
  have hh := h.high
  have hw := growWidth_least h.width (by omega)
  unfold encReset at hp
  split at hp
  · rw [List.mem_singleton.1 hp]
    refine fits_of_small (by decide) ?_ ?_ <;> show _ ≤ _ <;> simp only [encAssign, next_succ hh]
    · exact hw.1
    · exact hw.2.1
  · simp at hp

theorem encStart_sound : EncSound encStart := by
  refine ⟨fun _ => ⟨rfl, rfl, rfl, rfl, rfl⟩, fun h => by simp [encStart] at h, by simp [encStart], by simp [encStart], .inl rfl⟩

/-- Raising an error of its own kinds keeps ENC sound. -/
theorem EncSound.raised {e : Enc} (h : EncSound e) {x : Err} (hx : x = .invalidInput ∨ x = .dictionaryOverflow) :
    EncSound { e with err := x, phase := .fail } := by
  refine ⟨fun h => by simp at h, fun h => by simp at h, h.fits, ?_, .inr hx⟩
  rcases hx with rfl | rfl <;> simp

/-- `ENC.SYM` in an enabling phase keeps ENC sound, and the pairs it emits fit. -/
theorem encSymbol_sound {s : State} (h : EncSound s.enc) (k : Byte) :
    EncSound (encEffect (encSymbol k s.enc) s).1.enc ∧ ∀ p ∈ (encEffect (encSymbol k s.enc) s).2, Pair.Fits p := by
  rcases hp : s.enc.phase
  case first =>
    obtain ⟨hn, hw, hw0, hd, ho⟩ := h.first hp
    have hk : ∀ p ∈ [(⟨Config.clear, s.enc.width⟩ : Pair)], Pair.Fits p := by
      rw [hw]; intro p hp; rw [List.mem_singleton.1 hp]; exact fits_of_small (by decide) (by decide) (by decide)
    have herr : s.enc.err = .none := by
      by_contra hc; have := h.err.2 hc; rw [hp] at this; simp at this
    simp only [encSymbol, hp, encEffect]
    refine ⟨⟨fun h => by simp [State.setEnc] at h, fun _ => ?_, ?_, ?_, .inl herr⟩, hk⟩
    · simp only [State.setEnc, hd, hn, hw]
      exact encRunning_roots rfl rfl rfl rfl
    · simp only [State.setEnc, ho, List.nil_append]; exact hk
    · simp [State.setEnc, herr]
  case run =>
    have hr := h.run hp
    have herr : s.enc.err = .none := by
      by_contra hc; have := h.err.2 hc; rw [hp] at this; simp at this
    simp only [encSymbol, hp]
    split
    case isTrue hh =>
      simp only [encEffect, List.append_nil]
      refine ⟨⟨fun h => by simp [State.setEnc] at h, fun _ => ?_, h.fits, ?_, .inl herr⟩, by simp⟩
      · exact ⟨hr.low, hr.high, hr.width, hh, hr.codes, hr.nodup, hr.long, hr.prefixes⟩
      · simp [State.setEnc, herr]
    case isFalse hh =>
      have hm : encHas s.enc.dict (s.enc.w ++ [k]) = false := by simpa using hh
      have hps : ∀ p ∈ (⟨encCode s.enc.dict s.enc.w, s.enc.width⟩ : Pair) :: (encReset (encAssign k s.enc)).2,
          Pair.Fits p := by
        intro p hp
        rcases List.mem_cons.1 hp with rfl | hp
        · exact hr.code_fits
        · exact encReset_fits k hr p hp
      have hrun := encMiss_running k hr hm
      have hph : (encReset (encAssign k s.enc)).1.phase = .run ∧ (encReset (encAssign k s.enc)).1.err = .none := by
        unfold encReset; split <;> exact ⟨hp, herr⟩
      rw [encMiss_eq k hr.high]
      simp only [encEffect]
      refine ⟨⟨fun h => by simp [State.setEnc, hph.1] at h, fun _ => ?_, ?_, ?_, .inl hph.2⟩, hps⟩
      · exact ⟨hrun.low, hrun.high, hrun.width, hrun.key, hrun.codes, hrun.nodup, hrun.long, hrun.prefixes⟩
      · intro p hp
        rcases List.mem_append.1 hp with hp | hp
        · exact h.fits p hp
        · exact hps p hp
      · simp [State.setEnc, hph.1, hph.2]
  all_goals
    have he : encSymbol k s.enc = .ok (s.enc, []) := by unfold encSymbol; split <;> simp_all
    simp only [he, encEffect, List.append_nil]
    exact ⟨h, by simp⟩

/-- `ENC.END` in an enabling phase keeps ENC sound, and the pairs it emits fit. -/
theorem encFinish_sound {s : State} (h : EncSound s.enc) :
    EncSound (encEffect (encFinish s.enc) s).1.enc ∧ ∀ p ∈ (encEffect (encFinish s.enc) s).2, Pair.Fits p := by
  rcases hp : s.enc.phase
  case first =>
    simp only [encFinish, hp, encEffect, raise]
    exact ⟨h.raised (.inl rfl), by simp⟩
  case run =>
    have hr := h.run hp
    have hps : ∀ p ∈ [(⟨encCode s.enc.dict s.enc.w, s.enc.width⟩ : Pair), ⟨Config.endCode, s.enc.width⟩], Pair.Fits p := by
      intro p hp
      rcases List.mem_cons.1 hp with rfl | hp
      · exact hr.code_fits
      · rw [List.mem_singleton.1 hp]; exact fits_of_small (by decide) hr.width.1 hr.width.2.1
    have herr : s.enc.err = .none := by
      by_contra hc; have := h.err.2 hc; rw [hp] at this; simp at this
    simp only [encFinish, hp, encEffect]
    refine ⟨⟨fun h => by simp [State.setEnc] at h, fun h => by simp [State.setEnc] at h, ?_, ?_, .inl herr⟩, hps⟩
    · intro p hp
      rcases List.mem_append.1 hp with hp | hp
      · exact h.fits p hp
      · exact hps p hp
    · simp [State.setEnc, herr]
  all_goals
    have he : encFinish s.enc = .ok (s.enc, []) := by unfold encFinish; split <;> simp_all
    simp only [he, encEffect, List.append_nil]
    exact ⟨h, by simp⟩

end Sys2Proof.Machine
end

