-- ==== Sys2Proof/Laws/Dec.lean ====
section
/-! SUPPORT. The decoder: its dictionary, the common tail, and the soundness of its unit under every operation. -/

namespace Sys2Proof.Machine

/-! ### The dictionary -/

theorem decFind_mem {d : DecDict} {c : Code} {p : Phrase} (h : decFind d c = some p) : (c, p) ∈ d := by
  induction d with
  | nil => simp [decFind] at h
  | cons x d ih =>
    obtain ⟨q, p'⟩ := x
    simp only [decFind] at h
    split at h
    case isTrue e => subst e; simp_all
    case isFalse => exact List.mem_cons_of_mem _ (ih h)

theorem decFind_isSome {d : DecDict} {c : Code} : (decFind d c).isSome ↔ c ∈ d.map Prod.fst := by
  induction d with
  | nil => simp [decFind]
  | cons x d ih =>
    obtain ⟨q, p⟩ := x
    by_cases h : q = c
    · simp [decFind, h]
    · simp only [decFind, if_neg h, ih, List.map_cons, List.mem_cons]
      exact ⟨.inr, fun h' => h'.resolve_left (fun e => h e.symm)⟩

/-- A code that is present has a phrase, and it is not empty (41_decoder.md R158). -/
theorem DecRunning.lookup_ne_nil {d : Dec} (h : DecRunning d) {c : Code} (hc : decHas d.next c = true) :
    decLookup d.dict c ≠ [] := by
  unfold decLookup
  split
  · simp
  case isFalse hr =>
    have hd : 258 ≤ c.toNat ∧ c.toNat < d.next.toNat := by
      simpa only [decHas, Bool.or_eq_true, Bool.and_eq_true, decide_eq_true_eq, hr, false_or] using hc
    have hm : c.toNat ∈ d.dict.map (fun x => x.1.toNat) := by rw [h.codes]; exact mem_dynCodes.2 hd
    obtain ⟨x, hx, hxc⟩ := List.mem_map.1 hm
    have hx1 : x.1 = c := BitVec.eq_of_toNat_eq hxc
    have hs : (decFind d.dict c).isSome := decFind_isSome.2 (List.mem_map.2 ⟨x, hx, hx1⟩)
    obtain ⟨p, hp⟩ := Option.isSome_iff_exists.1 hs
    rw [hp]
    exact h.full _ (decFind_mem hp)

/-! ### The common tail -/

theorem decReset_full {d : Dec} (h : d.next.toNat = 4096) :
    decReset d = { d with dict := [], next := 258, width := 9 } := if_pos h

theorem decReset_not_full {d : Dec} (h : d.next.toNat ≠ 4096) : decReset d = d := if_neg h

@[simp] theorem decReset_idx (d : Dec) : (decReset d).idx = d.idx := by
  unfold decReset; split <;> rfl

@[simp] theorem decReset_trace (d : Dec) : (decReset d).trace = d.trace := by
  unfold decReset; split <;> rfl

/-- The tail completes below the bound (41_decoder.md R161 to R166). -/
theorem decTail_eq {d : Dec} (p : Phrase) (h : d.next.toNat ≤ 4095) :
    decTail p d = .ok { decReset (decAssign (d.prev ++ [firstSymbol p]) d) with
      idx := d.idx ++ p, prev := p } := by
  rw [decTail, dictFull_false h, ← show (decReset (decAssign (d.prev ++ [firstSymbol p]) d)).idx = d.idx from
    decReset_idx _]
  rfl

/-- DEC with the roots only, after a first data code. -/
theorem decRunning_roots {d : Dec} (hn : d.next = 258) (hw : d.width = 9) (hd : d.dict = []) (hp : d.prev ≠ []) :
    DecRunning d := by
  obtain ⟨p, r, n, w, q, d, o, u⟩ := d
  subst hn hw hd
  exact ⟨Nat.le_refl _, Nat.le_of_ble_eq_true rfl, leastWidth_first.2, hp, (by exact dynCodes_first.symm), by simp⟩

/-- The tail keeps the decoder running. -/
theorem decTail_running {d : Dec} (h : DecRunning d) {p : Phrase} (hp : p ≠ []) :
    DecRunning { decReset (decAssign (d.prev ++ [firstSymbol p]) d) with idx := d.idx ++ p, prev := p } := by
  have hn := next_succ h.high
  have hlow := h.low
  have hhigh := h.high
  by_cases h4096 : d.next.toNat = 4095
  · rw [decReset_full (show (d.next + 1).toNat = 4096 by omega)]
    exact decRunning_roots rfl rfl rfl hp
  · rw [decReset_not_full (show (d.next + 1).toNat ≠ 4096 by omega)]
    refine ⟨?_, ?_, ?_, hp, ?_, ?_⟩
    · show 258 ≤ (d.next + 1).toNat; omega
    · show (d.next + 1).toNat ≤ 4095; omega
    · show LeastWidth ((d.next + 1).toNat + 1) (growWidth ((d.next + 1).toNat + 1) d.width)
      rw [hn]; exact growWidth_least h.width (by omega)
    · show (decInsert d.dict d.next (d.prev ++ [firstSymbol p])).map (fun x => x.1.toNat) = dynCodes (d.next + 1).toNat
      rw [hn, dynCodes_succ hlow, ← h.codes]
      simp only [decInsert, List.map_cons, BitVec.toNat_setWidth]
      congr 1
      omega
    · intro x hx
      rcases List.mem_cons.1 (show x ∈ decInsert d.dict d.next (d.prev ++ [firstSymbol p]) from hx) with rfl | hx
      · simp
      · exact h.full x hx

/-! ### Soundness -/

/-- What an operation of DEC leaves is sound, whether it completes or raises. -/
def DecEffect.Sound : DecEffect → Prop
  | .ok d => DecSound d
  | .error x => x ≠ .none ∧ x ≠ .paletteOverflow

theorem DecSound.err_none {d : Dec} (h : DecSound d) (hp : d.phase ≠ .fail) : d.err = .none := by
  by_contra hc; exact hp (h.err.2 hc)

theorem decStart_sound : DecSound decStart :=
  ⟨fun _ => ⟨rfl, rfl, rfl, rfl⟩, fun h => by simp [decStart] at h, by simp [decStart], by simp [decStart]⟩

/-- A unit in `RUN` without an error is sound when it is running. -/
theorem DecRunning.sound {d : Dec} (h : DecRunning d) (hp : d.phase = .run) (he : d.err = .none) : DecSound d :=
  ⟨fun h => by simp [hp] at h, fun _ => h, by simp [hp, he], by simp [he]⟩

theorem decTail_sound {d : Dec} (h : DecRunning d) (hp : d.phase = .run) (he : d.err = .none) {p : Phrase} (h0 : p ≠ []) :
    (decTail p d).Sound := by
  rw [decTail_eq p h.high]
  refine (decTail_running h h0).sound ?_ ?_ <;> unfold decReset <;> split <;> assumption

theorem decData_sound {d : Dec} (h : DecRunning d) (hp : d.phase = .run) (he : d.err = .none) (c : Code) :
    (decData c d).Sound := by
  unfold decData
  split
  case isTrue hc => exact decTail_sound h hp he (h.lookup_ne_nil hc)
  case isFalse =>
    split
    · exact decTail_sound h hp he (by simp)
    · exact ⟨by simp, by simp⟩

theorem decClear_sound {d : Dec} (h : DecSound d) (hp : d.phase ≠ .fail) : (decClear d).Sound := by
  have he := h.err_none hp
  exact ⟨fun _ => ⟨rfl, rfl, rfl, rfl⟩, fun h => by simp at h, by simp [he], h.kinds⟩

theorem decEnd_sound {d : Dec} (h : DecSound d) (hp : d.phase ≠ .fail) : (decEnd d).Sound := by
  have he := h.err_none hp
  exact ⟨fun h => by simp at h, fun h => by simp at h, by simp [he], h.kinds⟩

theorem decFirst_sound {d : Dec} (h : DecSound d) (hp : d.phase = .start ∨ d.phase = .first) (k : Byte) :
    (decFirst k d).Sound := by
  obtain ⟨hn, hw, -, hd⟩ := h.fresh hp
  have he := h.err_none (by rcases hp with hp | hp <;> simp [hp])
  exact (decRunning_roots (d := { d with idx := d.idx ++ [k], prev := [k], phase := .run }) hn hw hd (by simp)).sound rfl he

theorem decRoot_sound {d : Dec} (h : DecSound d) (k : Byte) : (decRoot k d).Sound := by
  unfold decRoot
  split
  case h_1 hp => exact decFirst_sound h (.inl hp) k
  case h_2 hp => exact decFirst_sound h (.inr hp) k
  case h_3 hp => exact decData_sound (h.run hp) hp (h.err_none (by simp [hp])) _
  all_goals exact h

theorem decDyn_sound {d : Dec} (h : DecSound d) (c : Code) : (decDyn c d).Sound := by
  unfold decDyn
  split
  case h_3 hp => exact decData_sound (h.run hp) hp (h.err_none (by simp [hp])) _
  all_goals first | exact h | exact ⟨by simp, by simp⟩

theorem decCode_sound {d : Dec} (h : DecSound d) (hp : d.phase ≠ .fail) (c : Code) : (decCode c d).Sound := by
  unfold decCode
  split
  · exact decClear_sound h hp
  split
  · exact decEnd_sound h hp
  split
  · exact decRoot_sound h _
  · exact decDyn_sound h c

theorem decEos_sound {d : Dec} (h : DecSound d) : (decEos d).Sound := by
  unfold decEos
  split <;> first | exact h | exact ⟨by simp, by simp⟩

/-- A sound effect leaves DEC sound. -/
theorem decEffect_sound {r : DecEffect} (hr : r.Sound) (s : State) : DecSound (decEffect r s).dec := by
  rcases r with x | d
  · exact ⟨fun h => by simp at h, fun h => by simp at h, by simp [hr.1], hr.2⟩
  · exact hr

theorem DecAwaits.ne_fail {s : State} (h : DecAwaits s) : s.dec.phase ≠ .fail := by
  rcases h with h | h | h <;> simp [h]

/-- Where a code is consumed the width in force is legal. -/
theorem DecSound.legal_width {s : State} (h : DecSound s.dec) (ha : DecAwaits s) :
    9 ≤ s.dec.width.toNat ∧ s.dec.width.toNat ≤ 12 := by
  rcases ha with ha | ha | ha
  · rw [(h.fresh (.inl ha)).2.1]; decide
  · rw [(h.fresh (.inr ha)).2.1]; decide
  · exact ⟨(h.run ha).width.1, (h.run ha).width.2.1⟩

end Sys2Proof.Machine
end

