-- ==== Sys2Proof/Laws/Exec.lean ====
section
/-! SUPPORT. One lemma per meaning: it answers next exactly when its conditions hold, and then with this state. -/

namespace Sys2Proof.Machine

variable {s t : State}

theorem execCtlPause_next : execCtlPause s = .next t ↔ s.paused = false ∧ s.setPaused true = t := by
  simp [execCtlPause, whenEnabled_eq_next]

theorem execCtlResume_next : execCtlResume s = .next t ↔ s.paused = true ∧ s.setPaused false = t := by
  simp only [execCtlResume, whenEnabled_eq_next]; simp

theorem execCtlCancel_next : execCtlCancel s = .next t ↔ clearAll s = t := by
  simp only [execCtlCancel, whenEnabled_eq_next]; simp

theorem execEncInit_next : execEncInit s = .next t ↔ s.paused = false ∧ s.setEnc encStart = t := by
  simp [execEncInit, whenEnabled_eq_next]

theorem execEncSym_next {k : Byte} :
    execEncSym k s = .next t ↔
      s.paused = false ∧ (s.enc.phase = .first ∨ s.enc.phase = .run) ∧ (encEffect (encSymbol k s.enc) s).1 = t := by
  simp [execEncSym, whenEnabled_eq_next, and_assoc]

theorem execEncEnd_next :
    execEncEnd s = .next t ↔
      s.paused = false ∧ (s.enc.phase = .first ∨ s.enc.phase = .run) ∧ (encEffect (encFinish s.enc) s).1 = t := by
  simp [execEncEnd, whenEnabled_eq_next, and_assoc]

theorem execDecInit_next : execDecInit s = .next t ↔ s.paused = false ∧ s.setDec decStart = t := by
  simp [execDecInit, whenEnabled_eq_next]

theorem execDecCode_next {c : Code} :
    execDecCode c s = .next t ↔
      s.paused = false ∧ DecAwaits s ∧ decEffect (decCode c s.dec) s = t := by
  simp [execDecCode, whenEnabled_eq_next, DecAwaits, or_assoc, and_assoc]

theorem execDecEos_next :
    execDecEos s = .next t ↔
      s.paused = false ∧ DecAwaits s ∧ decEffect (decEos s.dec) s = t := by
  simp [execDecEos, whenEnabled_eq_next, DecAwaits, or_assoc, and_assoc]

theorem execCodeClear_next :
    execCodeClear s = .next t ↔
      s.paused = false ∧ DecAwaits s ∧ decEffect (decClear s.dec) s = t := by
  simp [execCodeClear, whenEnabled_eq_next, DecAwaits, or_assoc, and_assoc]

theorem execCodeEnd_next :
    execCodeEnd s = .next t ↔
      s.paused = false ∧ DecAwaits s ∧ decEffect (decEnd s.dec) s = t := by
  simp [execCodeEnd, whenEnabled_eq_next, DecAwaits, or_assoc, and_assoc]

theorem execCodeRoot_next {k : Byte} :
    execCodeRoot k s = .next t ↔
      s.paused = false ∧ DecAwaits s ∧ decEffect (decRoot k s.dec) s = t := by
  simp [execCodeRoot, whenEnabled_eq_next, DecAwaits, or_assoc, and_assoc]

theorem execCodeDyn_next {c : Code} :
    execCodeDyn c s = .next t ↔
      s.paused = false ∧ DecAwaits s ∧ decEffect (decDyn c s.dec) s = t := by
  simp [execCodeDyn, whenEnabled_eq_next, DecAwaits, or_assoc, and_assoc]

theorem execPckInit_next : execPckInit s = .next t ↔ s.paused = false ∧ s.setPck pckStart = t := by
  simp [execPckInit, whenEnabled_eq_next]

theorem execPckPush_next {c : Code} {w : Width} :
    execPckPush c w s = .next t ↔
      s.paused = false ∧ s.pck.phase = .run ∧ legalWidth w = true ∧ pckEffect (pckPush c w s.pck) s = t := by
  simp [execPckPush, whenEnabled_eq_next, and_assoc]

theorem execPckFlush_next :
    execPckFlush s = .next t ↔
      s.paused = false ∧ s.pck.phase = .run ∧ pckEffect (pckFlush s.pck) s = t := by
  simp [execPckFlush, whenEnabled_eq_next, and_assoc]

theorem execUnpInit_next : execUnpInit s = .next t ↔ s.paused = false ∧ s.setUnp unpStart = t := by
  simp [execUnpInit, whenEnabled_eq_next]

theorem execUnpFeed_next {b : Byte} :
    execUnpFeed b s = .next t ↔
      s.paused = false ∧ s.unp.phase = .run ∧ s.unp.cnt.toNat ≤ 11 ∧ s.setUnp (unpFeed b s.unp) = t := by
  simp [execUnpFeed, whenEnabled_eq_next, and_assoc]

theorem execUnpPull_next {w : Width} :
    execUnpPull w s = .next t ↔
      s.paused = false ∧ s.unp.phase = .run ∧ legalWidth w = true ∧ w.toNat ≤ s.unp.cnt.toNat ∧
      s.setUnp (unpPull w s.unp) = t := by
  simp [execUnpPull, whenEnabled_eq_next, and_assoc]

theorem execSerRun_next : execSerRun s = .next t ↔ s.paused = false ∧ (serEnabled s).1 = true ∧ serRun s = t := by
  simp [execSerRun, whenEnabled_eq_next, and_assoc]

theorem execParRun_next {cont : List Byte} : execParRun cont s = .next t ↔ s.paused = false ∧ parRun cont s = t := by
  simp [execParRun, whenEnabled_eq_next]

theorem execRunEncode_next {iw : Dim} {ih : Dim} {pal : List RGB} {x : List Byte} :
    execRunEncode iw ih pal x s = .next t ↔
      s.paused = false ∧ encodeRun iw ih pal x s = t := by
  simp [execRunEncode, whenEnabled_eq_next]

theorem execContSig_next : execContSig s = .next t ↔ s.paused = false ∧ s.par.next = .sig ∧ fieldSig s = t := by
  simp [execContSig, whenEnabled_eq_next, and_assoc]

theorem execContLsw_next {v : Dim} :
    execContLsw v s = .next t ↔
      s.paused = false ∧ s.par.next = .lsw ∧ fieldRead 2 .lsh { s.par.loc with lsw := v } s = t := by
  simp [execContLsw, whenEnabled_eq_next, and_assoc]

theorem execContLsh_next {v : Dim} :
    execContLsh v s = .next t ↔
      s.paused = false ∧ s.par.next = .lsh ∧ fieldRead 2 .sflags { s.par.loc with lsh := v } s = t := by
  simp [execContLsh, whenEnabled_eq_next, and_assoc]

theorem execContSflags_next :
    execContSflags s = .next t ↔
      s.paused = false ∧ s.par.next = .sflags ∧ fieldRead 1 .bg s.par.loc s = t := by
  simp [execContSflags, whenEnabled_eq_next, and_assoc]

theorem execContBg_next :
    execContBg s = .next t ↔
      s.paused = false ∧ s.par.next = .bg ∧ fieldRead 1 .aspect s.par.loc s = t := by
  simp [execContBg, whenEnabled_eq_next, and_assoc]

theorem execContAspect_next :
    execContAspect s = .next t ↔
      s.paused = false ∧ s.par.next = .aspect ∧ fieldRead 1 .gct s.par.loc s = t := by
  simp [execContAspect, whenEnabled_eq_next, and_assoc]

theorem execContGct_next {pal : List RGB} :
    execContGct pal s = .next t ↔
      s.paused = false ∧ s.par.next = .gct ∧ fieldRead (3 * pal.length) .sep { s.par.loc with pal := pal } s = t := by
  simp [execContGct, whenEnabled_eq_next, and_assoc]

theorem execContSep_next :
    execContSep s = .next t ↔
      s.paused = false ∧ s.par.next = .sep ∧ fieldRead 1 .left s.par.loc s = t := by
  simp [execContSep, whenEnabled_eq_next, and_assoc]

theorem execContLeft_next :
    execContLeft s = .next t ↔
      s.paused = false ∧ s.par.next = .left ∧ fieldRead 2 .top s.par.loc s = t := by
  simp [execContLeft, whenEnabled_eq_next, and_assoc]

theorem execContTop_next :
    execContTop s = .next t ↔
      s.paused = false ∧ s.par.next = .top ∧ fieldRead 2 .iw s.par.loc s = t := by
  simp [execContTop, whenEnabled_eq_next, and_assoc]

theorem execContIw_next {v : Dim} :
    execContIw v s = .next t ↔
      s.paused = false ∧ s.par.next = .iw ∧ fieldRead 2 .ih { s.par.loc with iw := v } s = t := by
  simp [execContIw, whenEnabled_eq_next, and_assoc]

theorem execContIh_next {v : Dim} :
    execContIh v s = .next t ↔
      s.paused = false ∧ s.par.next = .ih ∧ fieldRead 2 .iflags { s.par.loc with ih := v } s = t := by
  simp [execContIh, whenEnabled_eq_next, and_assoc]

theorem execContIflags_next :
    execContIflags s = .next t ↔
      s.paused = false ∧ s.par.next = .iflags ∧ fieldRead 1 .mincode s.par.loc s = t := by
  simp [execContIflags, whenEnabled_eq_next, and_assoc]

theorem execContMincode_next :
    execContMincode s = .next t ↔
      s.paused = false ∧ s.par.next = .mincode ∧ fieldRead 1 .blocks s.par.loc s = t := by
  simp [execContMincode, whenEnabled_eq_next, and_assoc]

theorem execContSubblock_next {data : List Byte} :
    execContSubblock data s = .next t ↔
      s.paused = false ∧ s.par.next = .blocks ∧
      fieldRead (1 + data.length) .blocks { s.par.loc with buf := s.par.loc.buf ++ data } s = t := by
  simp [execContSubblock, whenEnabled_eq_next, and_assoc]

theorem execContTerm_next :
    execContTerm s = .next t ↔
      s.paused = false ∧ s.par.next = .blocks ∧ fieldRead 1 .trailer s.par.loc s = t := by
  simp [execContTerm, whenEnabled_eq_next, and_assoc]

theorem execContTrailer_next :
    execContTrailer s = .next t ↔
      s.paused = false ∧ s.par.next = .trailer ∧ parCommit s.par.loc (s.par.pos + 1) s = t := by
  simp [execContTrailer, whenEnabled_eq_next, and_assoc]

theorem execRunDecode_next {cont : List Byte} :
    execRunDecode cont s = .next t ↔ s.paused = false ∧ decodeRun cont s = some t := by
  unfold execRunDecode
  cases s.paused <;> cases decodeRun cont s <;> simp

end Sys2Proof.Machine
end

