-- ==== Sys2Proof/Laws/Sound.lean ====
section
/-! SUPPORT. Soundness of a state (Safety.lean) under the setters, the units' effects and the parts of the composites. -/

namespace Sys2Proof.Machine

variable {s : State}

/-! ### One field replaced by a sound one -/

theorem State.Sound.setEnc (h : s.Sound) {e : Enc} (he : EncSound e) : (s.setEnc e).Sound :=
  ⟨he, h.dec, h.pck, h.unp, h.ser, h.par, h.comp⟩
theorem State.Sound.setDec (h : s.Sound) {e : Dec} (he : DecSound e) : (s.setDec e).Sound :=
  ⟨h.enc, he, h.pck, h.unp, h.ser, h.par, h.comp⟩
theorem State.Sound.setPck (h : s.Sound) {e : Pck} (he : PckSound e) : (s.setPck e).Sound :=
  ⟨h.enc, h.dec, he, h.unp, h.ser, h.par, h.comp⟩
theorem State.Sound.setUnp (h : s.Sound) {e : Unp} (he : UnpSound e) : (s.setUnp e).Sound :=
  ⟨h.enc, h.dec, h.pck, he, h.ser, h.par, h.comp⟩
theorem State.Sound.setSer (h : s.Sound) {e : Ser} (he : SerSound e) : (s.setSer e).Sound :=
  ⟨h.enc, h.dec, h.pck, h.unp, he, h.par, h.comp⟩
theorem State.Sound.setPar (h : s.Sound) {e : Par} (he : ParSound e) : (s.setPar e).Sound :=
  ⟨h.enc, h.dec, h.pck, h.unp, h.ser, he, h.comp⟩
theorem State.Sound.setComp (h : s.Sound) {e : Comp} (he : CompSound e) : (s.setComp e).Sound :=
  ⟨h.enc, h.dec, h.pck, h.unp, h.ser, h.par, he⟩
theorem State.Sound.setShared (h : s.Sound) (r : Shared) : (s.setShared r).Sound :=
  ⟨h.enc, h.dec, h.pck, h.unp, h.ser, h.par, h.comp⟩

theorem encEffect_keeps (h : s.Sound) {r : EncEffect} (hr : EncSound (encEffect r s).1.enc) : (encEffect r s).1.Sound := by
  rw [encEffect_only]; exact State.Sound.setEnc h hr
theorem decEffect_keeps (h : s.Sound) {r : DecEffect} (hr : r.Sound) : (decEffect r s).Sound := by
  rw [decEffect_only]; exact State.Sound.setDec h (decEffect_sound hr s)

theorem serRun_keeps (h : s.Sound) : (serRun s).Sound := by
  unfold serRun
  split
  · exact State.Sound.setSer h ⟨by simp, .inr rfl⟩
  · exact State.Sound.setSer h ⟨by simp, .inl rfl⟩

theorem parRun_keeps (h : s.Sound) (cont : List Byte) : (parRun cont s).Sound := by
  rw [parRun_only]; exact State.Sound.setShared (State.Sound.setPar h (parRun_sound cont s)) _

theorem packedOut_keeps (h : s.Sound) {r : Pck × List Byte} (hr : PckSound { r.1 with out := s.pck.out ++ r.2 }) :
    (packedOut r s).Sound := State.Sound.setShared (State.Sound.setPck h hr) _

theorem pushPairs_keeps (ps : List Pair) (h : s.Sound) : (pushPairs ps s).Sound := by
  induction ps generalizing s with
  | nil => exact h
  | cons p ps ih => exact ih (packedOut_keeps h (pckPush_sound _ _ _ _))

theorem encodeSymbols_keeps (x : List Byte) (h : s.Sound) : (encodeSymbols x s).Sound := by
  induction x generalizing s with
  | nil => exact h
  | cons k x ih =>
    have : (pushPairs (encEffect (encSymbol k s.enc) s).2 (encEffect (encSymbol k s.enc) s).1).Sound :=
      pushPairs_keeps _ (encEffect_keeps h (encSymbol_sound h.enc k).1)
    unfold encodeSymbols
    simp only
    split
    · exact this
    · exact ih this

theorem pushPairs_comp (ps : List Pair) (s : State) : (pushPairs ps s).comp = s.comp := by
  induction ps generalizing s with
  | nil => rfl
  | cons p ps ih => exact ih _
theorem encEffect_comp (r) (s : State) : (encEffect r s).1.comp = s.comp := by rw [encEffect_only]; rfl
theorem encodeSymbols_comp (x : List Byte) (s : State) : (encodeSymbols x s).comp = s.comp := by
  induction x generalizing s with
  | nil => rfl
  | cons k x ih =>
    unfold encodeSymbols
    simp only
    split
    · rw [pushPairs_comp, encEffect_comp]
    · rw [ih, pushPairs_comp, encEffect_comp]


end Sys2Proof.Machine
end

