-- ==== Sys2Proof/Laws/Pipeline.lean ====
section
/-! SUPPORT. What the composites' loops do, in terms of the unit operations (46_pipeline_control.md R265, R282). -/

namespace Sys2Proof.Machine

/-- A code that ends no run leaves DEC awaiting the next one. -/
theorem decCode_awaits (c : Code) {u : State} (v : State) (hf : (decEffect (decCode c u.dec) v).dec.phase ≠ .fail)
    (hd : (decEffect (decCode c u.dec) v).dec.phase ≠ .done) (ha : DecAwaits u) :
    DecAwaits (decEffect (decCode c u.dec) v) := by
  have hi : (decEffect (decCode c u.dec) v).dec.phase ≠ .idle := by
    have htail : ∀ p, u.dec.phase = .run → (decEffect (decTail p u.dec) v).dec.phase ≠ .idle := by
      intro p hp
      unfold decTail
      split
      · simp [decEffect, raise]
      · have : (decReset (decAssign (u.dec.prev ++ [firstSymbol p]) u.dec)).phase = u.dec.phase := by
          unfold decReset; split <;> rfl
        simp [decEffect, this, hp]
    have hdata : ∀ c, u.dec.phase = .run → (decEffect (decData c u.dec) v).dec.phase ≠ .idle := by
      intro c hp
      unfold decData
      split
      · exact htail _ hp
      · split
        · exact htail _ hp
        · simp [decEffect, raise]
    unfold decCode
    split
    · simp [decEffect, decClear]
    · split
      · simp [decEffect, decEnd]
      · split
        · rcases ha with h | h | h <;> simp only [decRoot, h] <;> first | exact hdata _ h | simp [decEffect, decFirst]
        · rcases ha with h | h | h <;> simp only [decDyn, h] <;> first | exact hdata _ h | simp [decEffect, raise]
  unfold DecAwaits
  revert hf hd hi
  cases (decEffect (decCode c u.dec) v).dec.phase <;> simp

/-- Feeding is `UNP.FEED` after `UNP.FEED`, and touches UNP only. -/
theorem feedBytes_feedUntil (rest : List Byte) (s : State) (hp : s.paused = false) (hu : s.unp.phase = .run)
    (hw : s.dec.width.toNat ≤ 12) :
    feedUntil s.dec.width rest s = .next (feedBytes rest s) ∧ (feedBytes rest s).1 = s.setUnp (feedBytes rest s).1.unp ∧
      (feedBytes rest s).1.unp.phase = .run := by
  induction rest generalizing s with
  | nil => exact ⟨rfl, rfl, hu⟩
  | cons b rest ih =>
    unfold feedUntil feedBytes
    split
    · rename_i h
      have he : exec (.unpFeed b) s = .next (s.setUnp (unpFeed b s.unp)) := by
        rw [exec, execUnpFeed_next]; exact ⟨hp, hu, by omega, rfl⟩
      rw [he, follow_next]
      obtain ⟨h1, h2, h3⟩ := ih (s.setUnp (unpFeed b s.unp)) hp hu hw
      exact ⟨h1, by rw [h2]; rfl, h3⟩
    · exact ⟨rfl, rfl, hu⟩

/-- The pull loop is the unit operations of R265 one after another; the composite's status comes from DEC's. -/
theorem decodeLoop_pullLoop (n : Nat) (rest : List Byte) (s t : State) (hp : s.paused = false) (hu : s.unp.phase = .run)
    (hd : DecSound s.dec) (ha : DecAwaits s) (h : decodeLoop n rest s = some t) :
    ∃ w, PullLoop rest s w ∧ w.comp = s.comp ∧
      t = w.setComp (if w.dec.phase = .done then { s.comp with phase := .done } else ⟨.fail, w.dec.err⟩) := by
  induction n generalizing rest s with
  | zero => cases h
  | succ n ih =>
    obtain ⟨h1, h2, h3⟩ := feedBytes_feedUntil rest s hp hu (hd.legal_width ha).2
    unfold decodeLoop at h
    generalize hf : feedBytes rest s = r at h h1 h2 h3
    obtain ⟨u, rest'⟩ := r
    simp only at h h2 h3
    have hud : u.dec = s.dec := by rw [h2]; rfl
    have hup : u.paused = false := by rw [h2]; exact hp
    have huc : u.comp = s.comp := by rw [h2]; rfl
    have hua : DecAwaits u := by rw [DecAwaits, hud]; exact ha
    have hw := DecSound.legal_width (s := u) (hud ▸ hd) hua
    split at h
    · rename_i hlt
      cases h
      refine ⟨decEffect (decEos u.dec) u, .exhausted h1 hlt ?_, ?_, ?_⟩
      · rw [exec, execDecEos_next]; exact ⟨hup, hua, rfl⟩
      · rw [decEffect_only]; exact huc
      · have : (decEffect (decEos u.dec) u).dec.phase = .fail := by
          rcases hua with h | h | h <;> simp [decEos, h]
        rw [this]; rfl
    · rename_i hge
      have hpull : exec (.unpPull u.dec.width) u = .next (u.setUnp (unpPull u.dec.width u.unp)) := by
        rw [exec, execUnpPull_next]; exact ⟨hup, h3, legalWidth_iff.2 hw, by omega, rfl⟩
      have hcode : exec (.decCode (unpCode u.dec.width u.unp)) (u.setUnp (unpPull u.dec.width u.unp)) =
          .next (decEffect (decCode (unpCode u.dec.width u.unp) u.dec) (u.setUnp (unpPull u.dec.width u.unp))) := by
        rw [exec, execDecCode_next]; exact ⟨hup, hua, rfl⟩
      have hframe := decEffect_only (decCode (unpCode u.dec.width u.unp) u.dec) (u.setUnp (unpPull u.dec.width u.unp))
      have hsound := decEffect_sound (decCode_sound (hud ▸ hd) hua.ne_fail (unpCode u.dec.width u.unp))
        (u.setUnp (unpPull u.dec.width u.unp))
      have hdd : (u.setUnp (unpPull u.dec.width u.unp)).dec = u.dec := rfl
      simp only [hdd] at h
      generalize hz : decEffect (decCode (unpCode u.dec.width u.unp) u.dec) (u.setUnp (unpPull u.dec.width u.unp)) = z at *
      split at h
      · rename_i hfail
        cases h
        refine ⟨z, .ended h1 hpull rfl hcode (.inr hfail), by rw [hframe]; exact huc, ?_⟩
        rw [hfail]; rfl
      · rename_i hnf
        split at h
        · rename_i hdone
          cases h
          refine ⟨z, .ended h1 hpull rfl hcode (.inl hdone), by rw [hframe]; exact huc, ?_⟩
          rw [if_pos hdone, compDone, hframe]; simp [State.setDec, State.setUnp, State.setComp, huc]
        · rename_i hnd
          have hza : DecAwaits z := by
            rw [← hz]; exact decCode_awaits _ _ (by rw [hz]; exact hnf) (by rw [hz]; exact hnd) hua
          obtain ⟨w, w1, w2, w3⟩ := ih rest' z (by rw [hframe]; exact hup) (by rw [hframe]; exact h3) hsound hza h
          have hzc : z.comp = s.comp := by rw [hframe]; exact huc
          exact ⟨w, .more h1 hpull rfl hcode hnd hnf w1, w2.trans hzc, hzc ▸ w3⟩

end Sys2Proof.Machine
end

