-- ==== Sys2Proof/Tests/Slice0.lean ====
section
/-! SUPPORT. Tests. Expected results are those of 95_test_vectors.md and of the rules' own examples. -/

namespace Sys2Proof.Tests

open Sys2Proof.Machine

/-! ### Helpers -/

/-- The operation answers a next state with this property. -/
def leads (r : Result) (p : State → Bool) : Bool :=
  match r with
  | .next t => p t
  | _ => false

/-- The operation is refused for this reason. -/
def refuses (r : Result) (why : Refusal) : Bool :=
  match r with
  | .refused x => x = why
  | _ => false

def encState (e : Enc) : State := { enc := e }
def decState (d : Dec) : State := { dec := d }
def pckState (p : Pck) : State := { pck := p }
def unpState (u : Unp) : State := { unp := u }
def parState (p : Par) : State := { par := p }

/-- ENC after the first symbol 7. -/
def encSeven : Enc := { phase := .run, next := 258, width := 9, w := [7] }
/-- DEC after CLEAR and the code 7. -/
def decSeven : Dec := { phase := .run, next := 258, width := 9, prev := [7] }

/-- The registers of vector S1: everything written, one palette entry (255,0,0), the packed bytes of E1. -/
def sharedS1 : Shared :=
  { iw := 1, ih := 1, plen := 1, pal := palWrite (Vector.replicate 256 RGB.black) 0 [⟨255, 0, 0⟩]
    pbuf := [0x00, 0x01, 0x04, 0x04], written := ⟨true, true, true, true, 1⟩ }

/-- The container K of S1, written out (95_test_vectors.md section 7). -/
def bytesK : List Byte :=
  [0x47, 0x49, 0x46, 0x38, 0x39, 0x61, 0x01, 0x00, 0x01, 0x00, 0xF7, 0x00, 0x00, 0xFF, 0x00, 0x00] ++
  List.replicate 765 0x00 ++
  [0x2C, 0x00, 0x00, 0x00, 0x00, 0x01, 0x00, 0x01, 0x00, 0x00, 0x08, 0x04, 0x00, 0x01, 0x04, 0x04, 0x00, 0x3B]

/-! ### WellFormed smoke: each check refuses an ill-formed term -/

theorem test_wf_codeDyn : Instr.wellFormed (.codeDyn 257) = false ∧ Instr.wellFormed (.codeDyn 258) = true := by decide
theorem test_wf_contGct : Instr.wellFormed (.contGct [⟨1, 2, 3⟩]) = false := by decide
theorem test_wf_contSubblock_empty :
    Instr.wellFormed (.contSubblock []) = false ∧ Instr.wellFormed (.contSubblock [7]) = true := by decide
theorem test_wf_contSubblock_long : Instr.wellFormed (.contSubblock (List.replicate 256 0)) = false := by decide +kernel

/-! ### Decoding: words written from 30_encoding.md R118, R91 and 20_memory.md R69 -/

theorem test_decode_ctl :
    decode .op [0b00000010] = .ok (.ctlPause, []) ∧ decode .op [0b00000011] = .ok (.ctlResume, []) ∧
    decode .op [0b00000100] = .ok (.ctlCancel, []) := by decide
theorem test_decode_enc :
    decode .op [0b00010000] = .ok (.encInit, []) ∧ decode .op [0b00010001, 0b00000111] = .ok (.encSym 7, []) ∧
    decode .op [0b00010010] = .ok (.encEnd, []) := by decide
theorem test_decode_dec :
    decode .op [0b00100000] = .ok (.decInit, []) ∧
    decode .op [0b00100001, 0b00000010, 0b00000001] = .ok (.decCode 258, []) ∧
    decode .op [0b00100010] = .ok (.decEos, []) := by decide
theorem test_decode_pck :
    decode .op [0b00110000] = .ok (.pckInit, []) ∧
    decode .op [0b00110001, 0b11111111, 0b00001111, 0b00001100] = .ok (.pckPush 4095 12, []) ∧
    decode .op [0b00110010] = .ok (.pckFlush, []) := by decide
theorem test_decode_unp :
    decode .op [0b01000000] = .ok (.unpInit, []) ∧ decode .op [0b01000001, 0b00001111] = .ok (.unpFeed 15, []) ∧
    decode .op [0b01000010, 0b00001001] = .ok (.unpPull 9, []) := by decide
theorem test_decode_ser_par :
    decode .op [0b01010000] = .ok (.serRun, []) ∧
    decode .op [0b01100000, 0x01, 0x47, 0x00] = .ok (.parRun [0x47], []) := by decide +kernel
theorem test_decode_composites :
    decode .op [0b01110000, 0x02, 0x00, 0x03, 0x00, 0x01, 0xFF, 0x00, 0x01, 0x00, 0x01, 0x07, 0x00] =
      .ok (.runEncode 2 3 [⟨255, 0, 1⟩] [7], []) ∧
    decode .op [0b01110001, 0x01, 0x47, 0x01, 0x49, 0x00] = .ok (.runDecode [0x47, 0x49], []) := by decide +kernel
theorem test_decode_reserved_selects :
    decode .op [0x00] = .error (.noSuchOperation 0x00) ∧ decode .op [0x01] = .error (.noSuchOperation 0x01) ∧
    decode .op [0x13] = .error (.noSuchOperation 0x13) ∧ decode .op [0xFF] = .error (.noSuchOperation 0xFF) := by decide
theorem test_decode_codes :
    decode .codeIn [0x00, 0x01] = .ok (.codeClear, []) ∧ decode .codeIn [0x01, 0x01] = .ok (.codeEnd, []) ∧
    decode .codeIn [0xFF, 0x00] = .ok (.codeRoot 255, []) ∧ decode .codeIn [0x02, 0x01] = .ok (.codeDyn 258, []) ∧
    decode .codeIn [0xFF, 0x0F] = .ok (.codeDyn 4095, []) := by decide
theorem test_decode_screen :
    decode (.contIn .sig) [0x47, 0x49, 0x46, 0x38, 0x39, 0x61] = .ok (.contSig, []) ∧
    decode (.contIn .lsw) [0x34, 0x12] = .ok (.contLsw 0x1234, []) ∧
    decode (.contIn .lsh) [0xCD, 0xAB] = .ok (.contLsh 0xABCD, []) ∧
    decode (.contIn .sflags) [0b11110111] = .ok (.contSflags, []) ∧
    decode (.contIn .bg) [0x00] = .ok (.contBg, []) ∧ decode (.contIn .aspect) [0x00] = .ok (.contAspect, []) := by decide
theorem test_decode_gct :
    decode (.contIn .gct) (0x11 :: 0x22 :: 0x33 :: List.replicate 765 0x00) =
      .ok (.contGct (⟨0x11, 0x22, 0x33⟩ :: List.replicate 255 ⟨0, 0, 0⟩), []) := by decide +kernel
theorem test_decode_image :
    decode (.contIn .sep) [0b00101100] = .ok (.contSep, []) ∧ decode (.contIn .left) [0x00, 0x00] = .ok (.contLeft, []) ∧
    decode (.contIn .top) [0x00, 0x00] = .ok (.contTop, []) ∧ decode (.contIn .iw) [0x02, 0x00] = .ok (.contIw 2, []) ∧
    decode (.contIn .ih) [0x00, 0x02] = .ok (.contIh 512, []) ∧ decode (.contIn .iflags) [0x00] = .ok (.contIflags, []) ∧
    decode (.contIn .mincode) [0b00001000] = .ok (.contMincode, []) := by decide
theorem test_decode_blocks :
    decode (.contIn .blocks) [0x02, 0xAA, 0xBB, 0x00] = .ok (.contSubblock [0xAA, 0xBB], [0x00]) ∧
    decode (.contIn .blocks) [0x00] = .ok (.contTerm, []) ∧
    decode (.contIn .trailer) [0b00111011] = .ok (.contTrailer, []) := by decide
theorem test_decode_illegal_fields :
    decode (.contIn .sig) [0x47, 0x49, 0x46, 0x38, 0x37, 0x61] = .error .illegalField ∧
    decode (.contIn .sep) [0x21] = .error .illegalField ∧ decode (.contIn .trailer) [] = .error .truncated := by decide
theorem test_decode_table_words :
    decodeTableWord 8 0x11 = some (.encSym 0) ∧ decodeTableWord 16 257 = some .codeEnd ∧
    decodeTableWord 48 0x474946383961 = some .contSig ∧ decodeTableWord 8 0x13 = none := by decide +kernel

/-! ### One step of each instruction -/

theorem test_pause : leads (exec .ctlPause {}) (fun t => t.paused) := by decide
theorem test_resume : leads (exec .ctlResume { paused := true }) (fun t => !t.paused) := by decide
theorem test_cancel :
    leads (exec .ctlCancel { enc := encSeven, paused := true }) (fun t => t.enc.phase = .idle && !t.paused) := by decide

/-- R131, G1 row 1. -/
theorem test_encInit :
    leads (exec .encInit {}) (fun t => t.enc.phase = .first && t.enc.next = 258 && t.enc.width = 9) := by decide
/-- R132's example. -/
theorem test_encSym_first :
    leads (exec (.encSym 7) (encState encStart)) (fun t => t.enc.out = [⟨256, 9⟩] && t.enc.w = [7]) := by decide
/-- G1 row 5: a miss. -/
theorem test_encSym_miss :
    leads (exec (.encSym 7) (encState encSeven))
      (fun t => t.enc.out = [⟨7, 9⟩] && t.enc.dict = [([7, 7], 258)] && t.enc.next = 259) := by decide
/-- R137's example. -/
theorem test_encEnd :
    leads (exec .encEnd (encState encSeven)) (fun t => t.enc.out = [⟨7, 9⟩, ⟨257, 9⟩] && t.enc.phase = .done) := by decide
/-- E11. -/
theorem test_encEnd_empty :
    leads (exec .encEnd (encState encStart)) (fun t => t.enc.err.code = 1 && t.enc.phase = .fail) := by decide

/-- R151's example. -/
theorem test_decInit :
    leads (exec .decInit {}) (fun t => t.dec.phase = .start && t.dec.next = 258 && t.dec.width = 9) := by decide
/-- G2 row 11: the KwKwK case. -/
theorem test_decCode_kwkwk :
    leads (exec (.decCode 258) (decState decSeven))
      (fun t => t.dec.idx = [7, 7] && t.dec.trace = [(258, [7, 7])] && t.dec.next = 259) := by decide
/-- V10. -/
theorem test_decCode_above :
    leads (exec (.decCode 259) (decState decSeven)) (fun t => t.dec.err.code = 4 && t.dec.phase = .fail) := by decide
/-- V8. -/
theorem test_decEos : leads (exec .decEos (decState decStart)) (fun t => t.dec.err.code = 1) := by decide
/-- V11. -/
theorem test_decEos_run : leads (exec .decEos (decState decSeven)) (fun t => t.dec.err.code = 4) := by decide

theorem test_pckInit : leads (exec .pckInit {}) (fun t => t.pck = ⟨.run, 0, 0, []⟩) := by decide
/-- P1: `PCK.PUSH 4095, 12` gives `C0 FF`, (3, 2). -/
theorem test_pckPush :
    leads (exec (.pckPush 4095 12) (pckState ⟨.run, 0, 6, []⟩)) (fun t => t.pck = ⟨.run, 3, 2, [0xC0, 0xFF]⟩) := by decide
/-- P6: the code is not masked. -/
theorem test_pckPush_unmasked :
    leads (exec (.pckPush 1023 9) (pckState ⟨.run, 0, 0, []⟩)) (fun t => t.pck = ⟨.run, 3, 1, [0xFF]⟩) := by decide
/-- R183's example. -/
theorem test_pckFlush :
    leads (exec .pckFlush (pckState ⟨.run, 4, 3, []⟩)) (fun t => t.pck = ⟨.done, 0, 0, [0x04]⟩) := by decide

theorem test_unpInit : leads (exec .unpInit {}) (fun t => t.unp = ⟨.run, 0, 0, []⟩) := by decide
/-- G2 row 9. -/
theorem test_unpFeed :
    leads (exec (.unpFeed 0x3C) (unpState ⟨.run, 2, 6, []⟩)) (fun t => t.unp = ⟨.run, 0xF02, 14, []⟩) := by decide
/-- R203's example. -/
theorem test_unpPull :
    leads (exec (.unpPull 9) (unpState ⟨.run, 0x100, 16, []⟩)) (fun t => t.unp = ⟨.run, 0, 7, [256]⟩) := by decide
theorem test_unpPull_short : refuses (exec (.unpPull 9) (unpState ⟨.run, 0, 8, []⟩)) .tooFewBits := by decide

/-- S1. -/
theorem test_serRun : leads (exec .serRun { shared := sharedS1 }) (fun t => t.ser.out = bytesK) := by decide +kernel
/-- S7. -/
theorem test_serRun_unwritten :
    refuses (exec .serRun { shared := { sharedS1 with written := ⟨true, false, true, true, 1⟩ } }) .notWritten := by decide
theorem test_serRun_long :
    leads (exec .serRun { shared := { sharedS1 with plen := 257 } }) (fun t => t.ser = ⟨.fail, .paletteOverflow, []⟩) := by
  decide +kernel
/-- A1. -/
theorem test_parRun :
    leads (exec (.parRun bytesK) {})
      (fun t => t.par = ⟨.done, .none, 799, .sig, {}⟩ && t.shared.pbuf = [0x00, 0x01, 0x04, 0x04] &&
        t.shared.lsw = 1 && t.shared.iw = 1 && t.shared.plen = 256) := by decide +kernel
/-- A6. -/
theorem test_parRun_cut :
    leads (exec (.parRun (bytesK.take 500)) {}) (fun t => t.par.err.code = 4 && t.par.pos = 499) := by decide +kernel
/-- L1, the source's own example: the container of S1. -/
theorem test_runEncode :
    leads (exec (.runEncode 1 1 [⟨255, 0, 0⟩] [0]) {}) (fun t => t.comp = ⟨.done, .none⟩ && t.ser.out = bytesK) := by
  decide +kernel
/-- G3, last line. -/
theorem test_runDecode :
    leads (exec (.runDecode bytesK) {})
      (fun t => t.comp = ⟨.done, .none⟩ && t.dec.idx = [0] && t.par.pos = 799 && t.unp.cnt = 5) := by decide +kernel

/-- V4: a CLEAR in `RUN`. -/
theorem test_codeClear :
    leads (exec .codeClear (decState decSeven)) (fun t => t.dec.phase = .first && t.dec.prev = []) := by decide
theorem test_codeEnd : leads (exec .codeEnd (decState decSeven)) (fun t => t.dec.phase = .done) := by decide
/-- R154's example. -/
theorem test_codeRoot :
    leads (exec (.codeRoot 7) (decState decStart)) (fun t => t.dec.idx = [7] && t.dec.prev = [7] && t.dec.trace = []) := by
  decide
/-- V9. -/
theorem test_codeDyn_first : leads (exec (.codeDyn 300) (decState decStart)) (fun t => t.dec.err.code = 4) := by decide

theorem test_contSig : leads (exec .contSig {}) (fun t => t.par.pos = 6 && t.par.next = .lsw) := by decide
theorem test_contLsw :
    leads (exec (.contLsw 9) (parState { pos := 6, next := .lsw })) (fun t => t.par.pos = 8 && t.par.loc.lsw = 9) := by decide
theorem test_contLsh :
    leads (exec (.contLsh 7) (parState { pos := 8, next := .lsh })) (fun t => t.par.pos = 10 && t.par.loc.lsh = 7) := by decide
theorem test_contSflags :
    leads (exec .contSflags (parState { pos := 10, next := .sflags })) (fun t => t.par.pos = 11 && t.par.next = .bg) := by
  decide
theorem test_contBg :
    leads (exec .contBg (parState { pos := 11, next := .bg })) (fun t => t.par.pos = 12 && t.par.next = .aspect) := by decide
theorem test_contAspect :
    leads (exec .contAspect (parState { pos := 12, next := .aspect })) (fun t => t.par.pos = 13 && t.par.next = .gct) := by
  decide
theorem test_contGct :
    leads (exec (.contGct (List.replicate 256 ⟨1, 2, 3⟩)) (parState { pos := 13, next := .gct }))
      (fun t => t.par.pos = 781 && t.par.next = .sep) := by decide +kernel
theorem test_contSep :
    leads (exec .contSep (parState { pos := 781, next := .sep })) (fun t => t.par.pos = 782 && t.par.next = .left) := by
  decide
theorem test_contLeft :
    leads (exec .contLeft (parState { pos := 782, next := .left })) (fun t => t.par.pos = 784 && t.par.next = .top) := by
  decide
theorem test_contTop :
    leads (exec .contTop (parState { pos := 784, next := .top })) (fun t => t.par.pos = 786 && t.par.next = .iw) := by decide
theorem test_contIw :
    leads (exec (.contIw 2) (parState { pos := 786, next := .iw })) (fun t => t.par.pos = 788 && t.par.loc.iw = 2) := by
  decide
theorem test_contIh :
    leads (exec (.contIh 3) (parState { pos := 788, next := .ih })) (fun t => t.par.pos = 790 && t.par.loc.ih = 3) := by
  decide
theorem test_contIflags :
    leads (exec .contIflags (parState { pos := 790, next := .iflags })) (fun t => t.par.pos = 791) := by decide
theorem test_contMincode :
    leads (exec .contMincode (parState { pos := 791, next := .mincode }))
      (fun t => t.par.pos = 792 && t.par.next = .blocks) := by decide
/-- A10's first sub-block. -/
theorem test_contSubblock :
    leads (exec (.contSubblock [0x00, 0x01]) (parState { pos := 792, next := .blocks }))
      (fun t => t.par.pos = 795 && t.par.loc.buf = [0x00, 0x01] && t.par.next = .blocks) := by decide
theorem test_contTerm :
    leads (exec .contTerm (parState { pos := 797, next := .blocks })) (fun t => t.par.pos = 798 && t.par.next = .trailer) := by
  decide
theorem test_contTrailer :
    leads (exec .contTrailer (parState { pos := 798, next := .trailer, loc := { iw := 5, buf := [1] } }))
      (fun t => t.par = ⟨.done, .none, 799, .sig, {}⟩ && t.shared.iw = 5 && t.shared.pbuf = [1] && t.shared.plen = 256) := by
  decide +kernel
theorem test_cont_out_of_place : refuses (exec .contSep {}) .notAtField := by decide

/-! ### Witnesses: states and operands that meet the hypotheses of each obligation, clause by clause -/

/-- The reset input as the oldest item, with one behind it. -/
theorem witness_ResetAndCancelLeaveEveryUnitIdle :
    ∃ (s : State) (q : List Item), s.inq = .resetInput :: q ∧ s.enc.phase = .fail ∧ s.paused = true :=
  ⟨{ inq := [.resetInput, .op [0x10]], enc := { phase := .fail }, paused := true }, [.op [0x10]], by decide⟩

/-- In `IDLE`, `DONE` and `FAIL`. -/
theorem witness_IdleEnablesNoDataOperation :
    (∃ s : State, s.paused = false ∧ s.enc.phase = .idle ∧ s.dec.phase = .idle ∧ s.pck.phase = .idle ∧ s.unp.phase = .idle) ∧
    (∃ s : State, s.paused = false ∧ s.enc.phase = .done ∧ s.dec.phase = .done ∧ s.pck.phase = .done) ∧
    ∃ s : State, s.paused = false ∧ s.enc.phase = .fail ∧ s.dec.phase = .fail :=
  ⟨⟨State.reset, by decide⟩, ⟨{ enc := { phase := .done }, dec := { phase := .done }, pck := { phase := .done } }, by decide⟩,
    ⟨{ enc := { phase := .fail }, dec := { phase := .fail } }, by decide⟩⟩

/-- A state that differs from reset by its queue is sound. -/
theorem sound_of_queue (q : List Item) : State.Sound { inq := q } := by
  refine ⟨⟨?_, ?_, ?_, ?_, ?_⟩, ⟨?_, ?_, ?_, ?_⟩, ?_, ?_, ⟨?_, ?_⟩, ⟨?_, ?_, ?_, ?_, ?_⟩, ?_⟩ <;>
    simp [PckSound, UnpSound, CompSound, fieldOffset]

theorem witness_EveryStepKeepsStatesSound : ∃ s t : State, s.Sound ∧ step s = .next t :=
  ⟨{ inq := [.op [0x10]] }, State.setEnc {} encStart, sound_of_queue _, rfl⟩

theorem witness_InitStartsARun : ∃ s : State, s.paused = false ∧ s.enc.phase = .fail := ⟨encState { phase := .fail }, by decide⟩

theorem witness_RootsAreTheSingleSymbols :
    ∃ (p q : Phrase) (c d : Code), p.length ≠ 1 ∧ q.length ≠ 1 ∧ c.toNat < 256 ∧ 256 ≤ d.toNat :=
  ⟨[], [1, 2], 255, 256, by decide⟩

theorem witness_FirstSymbolEmitsClear : ∃ s : State, s.paused = false ∧ s.enc.phase = .first ∧ EncSound s.enc :=
  ⟨encState encStart, rfl, rfl, encStart_sound⟩

theorem witness_HitExtendsThePhrase :
    ∃ (s : State) (k : Byte), s.paused = false ∧ s.enc.phase = .run ∧ encHas s.enc.dict (s.enc.w ++ [k]) = true :=
  ⟨encState { encSeven with dict := [([7, 7], 258)], next := 259 }, 7, by decide⟩

/-- Away from the reset, at a width step, and at the reset. -/
theorem witness_MissEmitsAndInserts :
    ∀ n ∈ [(258 : NextCode), 512, 4095], ∃ (s : State) (k : Byte) (c : Code), s.enc.next = n ∧ s.paused = false ∧
      s.enc.phase = .run ∧ encHas s.enc.dict (s.enc.w ++ [k]) = false ∧ encLookup s.enc.dict s.enc.w = some c ∧
      s.enc.next.toNat ≤ 4095 := by
  intro n hn
  refine ⟨encState { encSeven with next := n }, 7, 7, rfl, rfl, rfl, rfl, rfl, ?_⟩
  simp only [List.mem_cons, List.not_mem_nil, or_false] at hn
  rcases hn with rfl | rfl | rfl <;> decide

theorem witness_FullDictionaryRaisesOverflow :
    (∃ (s : State) (k : Byte), s.paused = false ∧ s.enc.phase = .run ∧ encHas s.enc.dict (s.enc.w ++ [k]) = false ∧
      4096 ≤ s.enc.next.toNat) ∧
    ∀ c ∈ [(0 : Code), 255, 258, 4095], ∃ s : State, s.paused = false ∧ s.dec.phase = .run ∧ c ≠ 256 ∧ c ≠ 257 ∧
      4096 ≤ s.dec.next.toNat := by
  refine ⟨⟨encState { encSeven with next := 4096 }, 7, by decide⟩, fun c hc => ?_⟩
  refine ⟨decState { decSeven with next := 4096 }, rfl, rfl, ?_⟩
  simp only [List.mem_cons, List.not_mem_nil, or_false] at hc
  rcases hc with rfl | rfl | rfl | rfl <;> decide

theorem witness_EndEmitsPendingPhraseAndEnd :
    ∃ (s : State) (c : Code), s.paused = false ∧ s.enc.phase = .run ∧ encLookup s.enc.dict s.enc.w = some c :=
  ⟨encState encSeven, 7, by decide⟩

theorem witness_EndOfEmptyInputRaisesInvalidInput : ∃ s : State, s.paused = false ∧ s.enc.phase = .first ∧ EncSound s.enc :=
  ⟨encState encStart, rfl, rfl, encStart_sound⟩

theorem witness_EncodedStreamBeginsWithClearEndsWithEnd : ∃ (s : State) (x : List Byte), s.paused = false ∧ x ≠ [] :=
  ⟨State.reset, [7], by decide⟩

theorem witness_DecAwaits :
    (∃ s : State, s.paused = false ∧ s.dec.phase = .start ∧ DecAwaits s) ∧
    (∃ s : State, s.paused = false ∧ s.dec.phase = .first ∧ DecAwaits s) ∧
    ∃ s : State, s.paused = false ∧ s.dec.phase = .run ∧ DecAwaits s :=
  ⟨⟨decState decStart, rfl, rfl, .inl rfl⟩, ⟨decState { decStart with phase := .first }, rfl, rfl, .inr (.inl rfl)⟩,
    ⟨decState decSeven, rfl, rfl, .inr (.inr rfl)⟩⟩

/-- For ClearStartsANewSegment, EndCodeEndsTheRun and EndOfSourceWithoutEndRaises, in each of the three phases. -/
theorem witness_ClearStartsANewSegment : ∃ s : State, s.paused = false ∧ DecAwaits s :=
  ⟨decState decSeven, rfl, .inr (.inr rfl)⟩
theorem witness_EndCodeEndsTheRun : ∃ s : State, s.paused = false ∧ DecAwaits s := ⟨decState decStart, rfl, .inl rfl⟩
theorem witness_EndOfSourceWithoutEndRaises :
    (∃ s : State, s.paused = false ∧ s.dec.phase = .start) ∧ (∃ s : State, s.paused = false ∧ s.dec.phase = .first) ∧
    ∃ s : State, s.paused = false ∧ s.dec.phase = .run :=
  ⟨⟨decState decStart, by decide⟩, ⟨decState { decStart with phase := .first }, by decide⟩, ⟨decState decSeven, by decide⟩⟩

theorem witness_FirstDataCodeIsOutput : ∃ s : State, s.paused = false ∧ (s.dec.phase = .start ∨ s.dec.phase = .first) :=
  ⟨decState decStart, by decide⟩

theorem witness_FirstDataCodeAboveRootsRaisesDecodeError :
    ∀ c ∈ [(258 : Code), 4095], 258 ≤ c.toNat ∧
      ∃ s : State, s.paused = false ∧ (s.dec.phase = .start ∨ s.dec.phase = .first) ∧ DecSound s.dec := by
  intro c hc
  refine ⟨?_, decState decStart, rfl, .inl rfl, decStart_sound⟩
  simp only [List.mem_cons, List.not_mem_nil, or_false] at hc
  rcases hc with rfl | rfl <;> decide

/-- A root, an entry, the KwKwK code; and the last entry, where the decoder starts again. -/
theorem witness_DataCodeInsertsAndOutputs :
    (∃ (s : State) (c : Code) (f : Byte) (q : Phrase), s.paused = false ∧ s.dec.phase = .run ∧ s.dec.next.toNat = 258 ∧
      c.toNat < 256 ∧ f = c.setWidth 8 ∧ q = []) ∧
    (∃ (s : State) (c : Code) (f : Byte) (q : Phrase), s.paused = false ∧ s.dec.phase = .run ∧ s.dec.next.toNat ≤ 4095 ∧
      258 ≤ c.toNat ∧ c.toNat < s.dec.next.toNat ∧ decFind s.dec.dict c = some (f :: q)) ∧
    (∃ (s : State) (c : Code) (f : Byte) (q : Phrase), s.paused = false ∧ s.dec.phase = .run ∧ s.dec.next.toNat = 4095 ∧
      258 ≤ c.toNat ∧ c.toNat = s.dec.next.toNat ∧ ∃ r, s.dec.prev = f :: r ∧ q = r ++ [f]) :=
  ⟨⟨decState decSeven, 255, 255, [], by decide⟩,
    ⟨decState { decSeven with next := 259, dict := [(258, [7, 7])] }, 258, 7, [7], by decide⟩,
    ⟨decState { decSeven with next := 4095 }, 4095, 7, [7], rfl, rfl, rfl, by decide, rfl, [], rfl, rfl⟩⟩

theorem witness_CodeAboveNextRaisesDecodeError :
    ∀ c ∈ [(259 : Code), 4095], ∃ s : State, s.paused = false ∧ s.dec.phase = .run ∧ 258 ≤ c.toNat ∧
      s.dec.next.toNat < c.toNat := by
  intro c hc
  refine ⟨decState decSeven, rfl, rfl, ?_⟩
  simp only [List.mem_cons, List.not_mem_nil, or_false] at hc
  rcases hc with rfl | rfl <;> decide

theorem witness_DecodeRunsAreRestartable :
    ∃ (s s' : State) (codes : List Code), s.paused = false ∧ s'.paused = false ∧
      leads (decRun codes s) (fun t => t.dec.idx = [7, 7]) :=
  ⟨State.reset, decState decSeven, [256, 7, 7, 257], by decide⟩

theorem witness_DecodingAnEncodedStreamGivesTheInput : ∃ (s : State) (x : List Byte), s.paused = false ∧ x ≠ [] :=
  ⟨State.reset, [7, 7, 7, 7], by decide⟩

/-- One byte and two bytes, at the edge between them and at the widest. -/
theorem witness_PushEmitsOneOrTwoBytes :
    ∀ x ∈ [((0 : Cnt), (9 : Width)), (6, 9), (7, 9), (7, 12)], ∃ s : State, s.paused = false ∧ s.pck.phase = .run ∧
      s.pck.cnt = x.1 ∧ s.pck.cnt.toNat ≤ 7 ∧ 9 ≤ x.2.toNat ∧ x.2.toNat ≤ 12 := by
  intro x hx
  refine ⟨pckState ⟨.run, 0, x.1, []⟩, rfl, rfl, rfl, ?_⟩
  simp only [List.mem_cons, List.not_mem_nil, or_false] at hx
  rcases hx with rfl | rfl | rfl | rfl <;> decide

theorem witness_FlushEmitsTheRemainingBits :
    (∃ s : State, s.paused = false ∧ s.pck.phase = .run ∧ 0 < s.pck.cnt.toNat ∧ s.pck.acc.toNat < 2 ^ s.pck.cnt.toNat) ∧
    ∃ s : State, s.paused = false ∧ s.pck.phase = .run ∧ s.pck.cnt.toNat = 0 :=
  ⟨⟨pckState ⟨.run, 4, 3, []⟩, by decide⟩, ⟨pckState ⟨.run, 0, 0, []⟩, by decide⟩⟩

/-- For PackedBytesAreTheStreamInteger and UnpackerInvertsThePacker: vector P1. -/
theorem witness_PackedBytesAreTheStreamInteger :
    ∃ (s : State) (ps : List Pair), s.paused = false ∧ ps.length = 4 ∧ ∀ p ∈ ps, Pair.Fits p :=
  ⟨State.reset, [⟨1, 9⟩, ⟨2, 10⟩, ⟨3, 11⟩, ⟨4095, 12⟩], rfl, rfl, by simp [Pair.Fits]⟩
theorem witness_UnpackerInvertsThePacker :
    ∃ (s : State) (ps : List Pair), s.paused = false ∧ ps.length = 1 ∧ ∀ p ∈ ps, Pair.Fits p :=
  ⟨State.reset, [⟨511, 9⟩], rfl, rfl, by simp [Pair.Fits]⟩

theorem witness_FeedAndPullMoveTheLowBits :
    (∃ s : State, s.paused = false ∧ s.unp.phase = .run ∧ s.unp.cnt.toNat ≤ 11 ∧ s.unp.cnt = 11) ∧
    ∃ (s : State) (w : Width), s.paused = false ∧ s.unp.phase = .run ∧ 9 ≤ w.toNat ∧ w.toNat ≤ 12 ∧
      w.toNat ≤ s.unp.cnt.toNat ∧ w = 12 ∧ s.unp.cnt = 12 :=
  ⟨⟨unpState ⟨.run, 0, 11, []⟩, by decide⟩, ⟨unpState ⟨.run, 0, 12, []⟩, 12, by decide⟩⟩

theorem witness_OperandsOutOfRangeAreRefused :
    (∀ w ∈ [(8 : Width), 13], ∃ s : State, s.paused = false ∧ s.pck.phase = .run ∧ s.unp.phase = .run ∧
      (w.toNat < 9 ∨ 12 < w.toNat)) ∧
    (∃ (s : State) (w : Width), s.paused = false ∧ s.unp.phase = .run ∧ 9 ≤ w.toNat ∧ w.toNat ≤ 12 ∧
      s.unp.cnt.toNat < w.toNat ∧ s.unp.cnt = 8) ∧
    ∃ s : State, s.paused = false ∧ s.unp.phase = .run ∧ 11 < s.unp.cnt.toNat ∧ s.unp.cnt = 12 := by
  refine ⟨fun w hw => ⟨{ pck := pckStart, unp := unpStart }, rfl, rfl, rfl, ?_⟩,
    ⟨unpState ⟨.run, 0, 8, []⟩, 9, by decide⟩, ⟨unpState ⟨.run, 0, 12, []⟩, by decide⟩⟩
  simp only [List.mem_cons, List.not_mem_nil, or_false] at hw
  rcases hw with rfl | rfl <;> decide

/-- Everything `SER.RUN` reads written, at both ends of `C_PLEN`'s range. -/
theorem witness_SerializerWritesTheLayout :
    (∃ s : State, s.paused = false ∧ s.shared.plen = 0 ∧ s.shared.plen ≤ 256 ∧ ReadableBySer s) ∧
    ∃ s : State, s.paused = false ∧ s.shared.plen = 256 ∧ s.shared.plen ≤ 256 ∧ ReadableBySer s := by
  refine ⟨⟨{ shared := { sharedS1 with plen := 0 } }, rfl, rfl, by decide, rfl, rfl, rfl, rfl, ?_⟩,
    ⟨{ shared := { sharedS1 with plen := 256, written := ⟨true, true, true, true, BitVec.allOnes 256⟩ } }, rfl, rfl,
      by decide, rfl, rfl, rfl, rfl, ?_⟩⟩
  · intro i hi
    exact absurd hi (Nat.not_lt_zero i)
  · intro i hi
    show (BitVec.allOnes 256).getLsbD i = true
    rw [BitVec.getLsbD_allOnes]
    exact decide_eq_true hi

theorem readable_sharedS1 : ReadableBySer { shared := sharedS1 } := by
  refine ⟨rfl, rfl, rfl, rfl, fun i hi => ?_⟩
  have : i = 0 := Nat.lt_one_iff.1 hi
  subst this
  rfl

theorem witness_ParserInvertsTheSerializer :
    ∃ s : State, s.paused = false ∧ s.shared.plen ≤ 256 ∧ ReadableBySer s :=
  ⟨{ shared := sharedS1 }, rfl, by decide, readable_sharedS1⟩
theorem witness_SecondSerializationIsTheSame :
    ∃ s : State, s.paused = false ∧ s.shared.plen ≤ 256 ∧ ReadableBySer s :=
  ⟨{ shared := sharedS1 }, rfl, by decide, readable_sharedS1⟩

theorem witness_TooLongAPaletteRaisesPaletteOverflow :
    (∃ s : State, s.paused = false ∧ 256 < s.shared.plen ∧ s.shared.written.plen = true ∧ s.shared.plen = 257) ∧
    ∃ (s : State) (pal : List RGB), s.paused = false ∧ 256 < pal.length ∧ pal.length = 257 :=
  ⟨⟨{ shared := { sharedS1 with plen := 257 } }, by decide⟩,
    ⟨State.reset, List.replicate 257 ⟨0, 0, 0⟩, rfl, by decide +kernel, by decide +kernel⟩⟩

/-- Readable and not, with a legal and with a too large `C_PLEN`; after a cancel and the reset input. -/
theorem witness_SerializerNeedsWrittenRegisters :
    (∃ s : State, s.paused = false ∧ s.shared.plen ≤ 256 ∧ ReadableBySer s) ∧
    (∃ s : State, s.paused = false ∧ s.shared.plen ≤ 256 ∧ ¬ ReadableBySer s ∧ s.shared.plen = 1) ∧
    (∀ b : Bool, ∃ s : State, s.paused = false ∧ 256 < s.shared.plen ∧ s.shared.written.plen = b) ∧
    (∃ s t : State, exec .ctlCancel s = .next t) ∧
    ∃ (s t : State) (q : List Item), s.inq = .resetInput :: q ∧ step s = .next t :=
  ⟨⟨{ shared := sharedS1 }, rfl, by decide, readable_sharedS1⟩,
    ⟨{ shared := { sharedS1 with written := ⟨true, true, true, true, 0⟩ } }, rfl, by decide,
      fun h => absurd (h.2.2.2.2 0 (by decide)) (by decide), rfl⟩,
    fun b => ⟨{ shared := { plen := 257, written := { plen := b } } }, rfl, Nat.lt_succ_self 256, rfl⟩,
    ⟨State.reset, clearAll State.reset, rfl⟩, ⟨{ inq := [.resetInput] }, clearAll {}, [], rfl, rfl⟩⟩

/-- A parse accepted and one rejected, the trailer's field, and `ENCODE` with a palette at the bound and above it. -/
theorem witness_WrittenRegistersAreRecorded :
    (∃ (s t : State) (q : List Item), s.inq = .resetInput :: q ∧ step s = .next t) ∧
    (∃ (s t : State) (cont : List Byte), exec (.parRun cont) s = .next t ∧ t.par.phase = .done) ∧
    (∃ (s t : State) (cont : List Byte), exec (.parRun cont) s = .next t ∧ t.par.phase = .fail) ∧
    (∃ s t : State, exec .contTrailer s = .next t) ∧
    ∀ n ∈ [256, 257], ∃ (s t : State) (pal : List RGB), exec (.runEncode 1 1 pal [7]) s = .next t ∧ pal.length = n :=
  ⟨⟨{ inq := [.resetInput] }, clearAll {}, [], rfl, rfl⟩,
    ⟨State.reset, parRun bytesK State.reset, bytesK, rfl, by decide +kernel⟩,
    ⟨State.reset, parRun [] State.reset, [], rfl, by decide⟩,
    ⟨parState { next := .trailer }, parCommit {} 1 (parState { next := .trailer }), rfl⟩,
    fun n _ => ⟨State.reset, encodeRun 1 1 (List.replicate n ⟨0, 0, 0⟩) [7] State.reset, List.replicate n ⟨0, 0, 0⟩, rfl,
      List.length_replicate⟩⟩

theorem witness_PaletteBeyondItsLengthIsNotRead :
    ∃ (s : State) (pal : Palette), leads (exec .serRun s) (fun t => t.ser.out = bytesK) ∧ pal ≠ s.shared.pal ∧
      ∀ (i : Nat) (hi : i < 256), i < s.shared.plen → pal[i] = s.shared.pal[i] := by
  refine ⟨{ shared := sharedS1 }, sharedS1.pal.setIfInBounds 1 ⟨9, 9, 9⟩, test_serRun,
    fun h => absurd (congrArg (fun p : Palette => p[1]) h) (by decide +kernel), ?_⟩
  intro i hi hp
  have : i = 0 := Nat.lt_one_iff.1 hp
  subst this
  show (sharedS1.pal.setIfInBounds 1 ⟨9, 9, 9⟩)[0]'(by decide) = sharedS1.pal[0]'(by decide)
  decide +kernel

theorem witness_ParserEndsDoneOrFail : ∃ (s : State) (cont : List Byte), s.paused = false ∧ cont.length = 0 :=
  ⟨State.reset, [], by decide⟩

/-- For AcceptedContainersHaveTheFixedBytes, BytesAfterTheTrailerAreIgnored and TruncatedContainersFail: K is accepted, and
cut at its start or before its last byte it is not whole. -/
theorem witness_AcceptedContainersHaveTheFixedBytes :
    ∃ (s t : State) (cont : List Byte), exec (.parRun cont) s = .next t ∧ t.par.phase = .done :=
  ⟨State.reset, parRun bytesK State.reset, bytesK, rfl, by decide +kernel⟩
theorem witness_BytesAfterTheTrailerAreIgnored :
    ∃ (s t : State) (cont extra : List Byte), exec (.parRun cont) s = .next t ∧ t.par.phase = .done ∧ extra = [0xAA, 0xBB] :=
  ⟨State.reset, parRun bytesK State.reset, bytesK, [0xAA, 0xBB], rfl, by decide +kernel, rfl⟩
theorem witness_TruncatedContainersFail :
    ∀ n ∈ [0, 798], ∃ (s t : State) (cont : List Byte), exec (.parRun cont) s = .next t ∧ t.par.phase = .done ∧
      n < t.par.pos := by
  intro n hn
  refine ⟨State.reset, parRun bytesK State.reset, bytesK, rfl, by decide +kernel, ?_⟩
  revert n
  decide +kernel

theorem witness_LayoutContainersAreAccepted :
    ∃ (s : State) (pal : List RGB) (blocks : List (List Byte)), s.paused = false ∧ pal.length = 256 ∧ blocks.length = 2 ∧
      LegalBlocks blocks :=
  ⟨State.reset, List.replicate 256 ⟨0, 0, 0⟩, [[7], List.replicate 255 0], rfl, by decide +kernel, rfl,
    by unfold LegalBlocks; decide +kernel⟩

/-- A container that is accepted and one that fails at its first field. -/
theorem witness_FieldByFieldParseIsParRun :
    (∃ (s t : State) (cont : List Byte), s.paused = false ∧ s.par.next = .sig ∧ s.inq = [.cont cont] ∧
      exec (.parRun cont) { s with inq := [] } = .next t ∧ t.par.phase = .done) ∧
    ∃ (s t : State) (cont : List Byte), s.paused = false ∧ s.par.next = .sig ∧ s.inq = [.cont cont] ∧
      exec (.parRun cont) { s with inq := [] } = .next t ∧ t.par.phase = .fail :=
  ⟨⟨{ inq := [.cont bytesK] }, parRun bytesK {}, bytesK, rfl, rfl, rfl, rfl, by decide +kernel⟩,
    ⟨{ inq := [.cont []] }, parRun [] {}, [], rfl, rfl, rfl, rfl, by decide⟩⟩

/-- At each field, and with the colour table read where the statement asks for it; a field issued out of place. -/
theorem witness_FieldsAreReadInOrder :
    (∀ f : ContField, ∃ s : State, s.paused = false ∧ s.par.next = f ∧ s.par.loc.pal.length = 256) ∧
    (∃ pal : List RGB, pal.length = 256) ∧
    ∃ (s : State) (i : Instr) (f : ContField), s.paused = false ∧ (encode i).1 = .contIn f ∧ s.par.next ≠ f :=
  ⟨fun f => ⟨parState { next := f, loc := { pal := List.replicate 256 ⟨0, 0, 0⟩ } }, rfl, rfl, List.length_replicate⟩,
    ⟨List.replicate 256 ⟨0, 0, 0⟩, List.length_replicate⟩, ⟨State.reset, .contTrailer, .trailer, by decide⟩⟩

theorem witness_PauseOnlySetsThePauseBit :
    (∃ s : State, s.paused = false) ∧
    ∃ (s : State) (i : Instr), s.paused = true ∧ i ≠ .ctlResume ∧ i ≠ .ctlCancel :=
  ⟨⟨State.reset, rfl⟩, ⟨{ paused := true }, .ctlPause, by decide⟩⟩

theorem witness_ResumeRestoresTheStateBeforeThePause : (∃ s : State, s.paused = true) ∧ ∃ s : State, s.paused = false :=
  ⟨⟨{ paused := true }, rfl⟩, ⟨State.reset, rfl⟩⟩

theorem witness_EncodeOfEmptyInputIsInvalidInput :
    ∃ (s : State) (pal : List RGB), s.paused = false ∧ pal.length ≤ 256 ∧ pal.length = 256 :=
  ⟨State.reset, List.replicate 256 ⟨0, 0, 0⟩, rfl, by decide +kernel, by decide +kernel⟩

theorem witness_EncodeIsItsExpansion :
    ∃ (s : State) (pal : List RGB) (x : List Byte), s.paused = false ∧ pal.length ≤ 256 ∧ x ≠ [] :=
  ⟨State.reset, [⟨255, 0, 0⟩], [0], by decide⟩

/-- A container the parser takes and one it rejects. -/
theorem witness_DecodeAlwaysEnds :
    (∃ (s p : State) (cont : List Byte), s.paused = false ∧ exec (.parRun cont) s = .next p ∧ p.par.phase = .done) ∧
    ∃ (s p : State) (cont : List Byte), s.paused = false ∧ exec (.parRun cont) s = .next p ∧ p.par.phase = .fail :=
  ⟨⟨State.reset, parRun bytesK State.reset, bytesK, rfl, rfl, by decide +kernel⟩,
    ⟨State.reset, parRun [] State.reset, [], rfl, rfl, by decide⟩⟩

/-- No packed byte (vector A12), and one. -/
theorem witness_DecodeOfNoCodeIsInvalidInput :
    ∀ n ∈ [0, 1], ∃ (s p : State) (cont : List Byte), s.paused = false ∧ exec (.parRun cont) s = .next p ∧
      p.par.phase = .done ∧ p.shared.pbuf.length ≤ 1 ∧ p.shared.pbuf.length = n := by
  intro n hn
  rcases List.mem_cons.1 hn with rfl | hn
  · exact ⟨State.reset, parRun (bytesK.take 792 ++ [0x00, 0x3B]) State.reset, _, rfl, rfl, by decide +kernel,
      by decide +kernel, by decide +kernel⟩
  · rw [List.mem_singleton.1 hn]
    exact ⟨State.reset, parRun (bytesK.take 792 ++ [0x01, 0x07, 0x00, 0x3B]) State.reset, _, rfl, rfl, by decide +kernel,
      by decide +kernel, by decide +kernel⟩

theorem witness_DecodeOfEncodeGivesTheInput :
    ∃ (s : State) (pal : List RGB) (x : List Byte), s.paused = false ∧ pal.length ≤ 256 ∧ x ≠ [] :=
  ⟨State.reset, [⟨0, 0, 0⟩, ⟨255, 255, 255⟩], [0, 1, 1, 0], by decide⟩

/-- An instruction that answers next and is named by no row but its own. -/
theorem witness_OperationsWriteOnlyTheirUnits :
    ∃ (s t : State) (i : Instr), exec i s = .next t ∧ writesEnc i = false ∧ writesDec i = false ∧ writesPck i = false ∧
      writesUnp i = false ∧ writesSer i = false ∧ writesPar i = false ∧ writesComp i = false ∧ writesShared i = false :=
  ⟨State.reset, State.reset.setPaused true, .ctlPause, rfl, by decide⟩
theorem witness_OperationsWriteOnlyTheirUnits_paused :
    ∃ (s t : State) (i : Instr), exec i s = .next t ∧ writesPaused i = false :=
  ⟨State.reset, State.reset.setEnc encStart, .encInit, rfl, by decide⟩

/-- Each of the five status registers does leave `FAIL` by a next run. -/
theorem witness_FailIsLeftOnlyByANewRun :
    (∃ (s t : State) (i : Instr), exec i s = .next t ∧ s.enc.phase = .fail ∧ t.enc.phase ≠ .fail) ∧
    (∃ (s t : State) (i : Instr), exec i s = .next t ∧ s.dec.phase = .fail ∧ t.dec.phase ≠ .fail) ∧
    (∃ (s : State) (i : Instr), s.ser.phase = .fail ∧ leads (exec i s) (fun t => t.ser.phase ≠ .fail)) ∧
    (∃ (s t : State) (i : Instr), exec i s = .next t ∧ s.par.phase = .fail ∧ t.par.phase ≠ .fail) ∧
    ∃ (s : State) (i : Instr), s.comp.phase = .fail ∧ leads (exec i s) (fun t => t.comp.phase ≠ .fail) :=
  ⟨⟨encState { phase := .fail }, _, .encInit, rfl, by decide⟩, ⟨decState { phase := .fail }, _, .decInit, rfl, by decide⟩,
    ⟨{ ser := { phase := .fail }, shared := sharedS1 }, .serRun, by decide +kernel⟩,
    ⟨parState { phase := .fail }, parRun bytesK (parState { phase := .fail }), .parRun bytesK, rfl, by decide +kernel⟩,
    ⟨{ comp := { phase := .fail } }, .runDecode bytesK, by decide +kernel⟩⟩

/-- An operation, no operation, a code word, a field and the last field. -/
theorem witness_AStepRunsTheDecodedInstruction :
    (∃ s : State, s.inq = []) ∧
    (∃ (s : State) (bytes rest : List Byte) (q : List Item) (i : Instr), s.inq = .op bytes :: q ∧
      decode .op bytes = .ok (i, rest)) ∧
    (∃ (s : State) (bytes : List Byte) (q : List Item) (why : Reject), s.inq = .op bytes :: q ∧
      decode .op bytes = .error why) ∧
    (∃ (s : State) (c : Code) (q : List Item), s.inq = .code c :: q) ∧
    (∃ (s : State) (bytes rest : List Byte) (q : List Item) (i : Instr), s.inq = .cont bytes :: q ∧
      decode (.contIn s.par.next) bytes = .ok (i, rest) ∧ i ≠ .contTrailer) ∧
    ∃ (s : State) (bytes rest : List Byte) (q : List Item), s.inq = .cont bytes :: q ∧
      decode (.contIn s.par.next) bytes = .ok (.contTrailer, rest) :=
  ⟨⟨State.reset, rfl⟩, ⟨{ inq := [.op [0x11, 0x07]] }, _, [], [], .encSym 7, rfl, by decide⟩,
    ⟨{ inq := [.op [0x05]] }, _, [], .noSuchOperation 0x05, rfl, by decide⟩, ⟨{ inq := [.code 256] }, 256, [], rfl⟩,
    ⟨{ inq := [.cont signature] }, _, [], [], .contSig, rfl, by decide⟩,
    ⟨{ par := { next := .trailer }, inq := [.cont [0x3B, 0x00]] }, _, [0x00], [], rfl, by decide⟩⟩

/-- At the signature, at a fixed field, and in the colour table. -/
theorem witness_IllegalFieldsRaiseDecodeError :
    ∀ f ∈ [ContField.sig, .sflags, .gct], ∃ (s : State) (bytes : List Byte) (q : List Item) (why : Reject),
      s.paused = false ∧ s.par.next = f ∧ s.inq = .cont bytes :: q ∧ decode (.contIn s.par.next) bytes = .error why := by
  intro f hf
  refine ⟨{ par := { next := f }, inq := [.cont []] }, [], [], .truncated, rfl, rfl, rfl, ?_⟩
  simp only [List.mem_cons, List.not_mem_nil, or_false] at hf
  rcases hf with rfl | rfl | rfl <;> decide

theorem witness_DriverWritesReachTheSharedRegisters :
    ∀ w ∈ [DriverWrite.iw 1, .ih 65535, .plen 257, .pal 255 ⟨1, 2, 3⟩, .pbufClear, .pbufAppend 7],
      ∃ (s : State) (q : List Item), s.inq = .write w :: q :=
  fun w _ => ⟨{ inq := [.write w] }, [], rfl⟩

theorem witness_DecodeOfEncodeIsTheInstruction :
    Instr.wellFormed (.pckPush 4095 15) = true ∧ Instr.wellFormed (.codeDyn 258) = true ∧
    Instr.wellFormed (.codeDyn 4095) = true ∧ Instr.wellFormed (.contSubblock [0]) = true ∧
    Instr.wellFormed (.contSubblock (List.replicate 255 0)) = true ∧
    Instr.wellFormed (.contGct (List.replicate 256 ⟨0, 0, 0⟩)) = true := by decide +kernel

theorem witness_AcceptedWordsAreEncodings :
    ∃ (p : Port) (bytes rest : List Byte) (i : Instr), decode p bytes = .ok (i, rest) ∧ rest = [0x3B] :=
  ⟨.contIn .blocks, [0x00, 0x3B], [0x3B], .contTerm, by decide⟩

end Sys2Proof.Tests
end

section
/-! PROOFS. Fetch and dispatch: what one step does with the driver's oldest item (00_scope.md R15, 20_memory.md R71). -/

namespace Sys2Proof.Machine

variable {s : State} {q : List Item} {bytes rest : List Byte} {i : Instr}

/-! ### The queue -/

theorem step_of_inq_nil (h : s.inq = []) : step s = .next s := by
  simp only [step, h]

/-- One step takes the oldest item off the queue and runs it on the state without it. -/
theorem step_of_inq_cons {it : Item} (h : s.inq = it :: q) : step s = stepItem it (s.setInq q) := by
  simp only [step, h]

/-! ### The items that decode -/

theorem stepOp_of_decode_ok (h : decode .op bytes = .ok (i, rest)) : stepOp bytes s = exec i s := by
  simp only [stepOp, h]

theorem stepOp_of_decode_error {why : Reject} (h : decode .op bytes = .error why) :
    stepOp bytes s = .refused (.noOperation why) := by
  simp only [stepOp, h]

theorem stepCont_of_decode_ok (h : decode (.contIn s.par.next) bytes = .ok (i, rest)) :
    stepCont bytes s = exec i (s.setInq (afterField i rest s.inq)) := by
  simp only [stepCont, h]

/-- Settles O52: the queue's head fixes the item, and the item's bytes fix the instruction. Taking the item off the
queue leaves the parse's position, at which a container's bytes are decoded. -/
theorem aStepRunsTheDecodedInstruction : Obligations.AStepRunsTheDecodedInstruction := by
  refine ⟨fun s => step_of_inq_nil, ?operation, ?noOperation, ?codeWord, ?field⟩
  case operation =>
    intro s bytes rest q i hq hd
    exact (step_of_inq_cons hq).trans (stepOp_of_decode_ok hd)
  case noOperation =>
    intro s bytes q why hq hd
    exact (step_of_inq_cons hq).trans (stepOp_of_decode_error hd)
  case codeWord =>
    intro s c q hq
    exact step_of_inq_cons hq
  case field =>
    intro s bytes rest q i hq hd
    have hpos : decode (.contIn (s.setInq q).par.next) bytes = .ok (i, rest) := hd
    exact (step_of_inq_cons hq).trans (stepCont_of_decode_ok hpos)

end Sys2Proof.Machine
end

section
/-! PROOFS. The invariant of 10_state.md R41: it holds at reset and every step keeps it. -/

namespace Sys2Proof.Machine

variable {s t u : State} {i : Instr}

/-! ### Soundness with every unit idle -/

/-- The invariant asks nothing of a unit in `IDLE` but no error, an empty `ENC_OUT` and no parse in progress. -/
theorem sound_of_allIdle (h : AllIdle s) (hout : s.enc.out = []) (hnext : s.par.next = .sig) (hloc : s.par.loc = {}) :
    s.Sound := by
  obtain ⟨henc, hdec, hpck, hunp, hser, hpar, hcomp, herrE, herrD, herrS, herrR, herrT, -⟩ := h
  refine ⟨?enc, ?dec, ?pck, ?unp, ?ser, ?par, ?comp⟩
  case enc => exact ⟨by simp [henc], by simp [henc], by simp [hout], by simp [henc, herrE], .inl herrE⟩
  case dec => exact ⟨by simp [hdec], by simp [hdec], by simp [hdec, herrD], by simp [herrD]⟩
  case pck => exact fun hrun => nomatch hpck.symm.trans hrun
  case unp => exact fun hrun => nomatch hunp.symm.trans hrun
  case ser => exact ⟨by simp [hser, herrS], .inl herrS⟩
  case par =>
    exact ⟨.inl herrR, fun _ => ⟨hloc, by simp [hpar, herrR]⟩, fun hne => absurd hnext hne, by simp [hnext],
      by simp [hnext, fieldOffset]⟩
  case comp => simp [CompSound, hcomp, herrT]

/-- Settles O3: after reset every unit is idle. -/
theorem soundAtReset : Obligations.SoundAtReset :=
  sound_of_allIdle ⟨rfl, rfl, rfl, rfl, rfl, rfl, rfl, rfl, rfl, rfl, rfl, rfl, rfl⟩ rfl rfl rfl

/-- A cancel and the reset input leave every unit idle, whatever the free values are. -/
theorem clearAll_sound (s : State) : (clearAll s).Sound :=
  sound_of_allIdle ⟨rfl, rfl, rfl, rfl, rfl, rfl, rfl, rfl, rfl, rfl, rfl, rfl, rfl⟩ rfl rfl rfl

/-! ### Soundness under the units' operations -/

/-- Soundness says nothing of the pause and of the driver's queue. -/
theorem State.Sound.setPaused (h : s.Sound) (b : Bool) : (s.setPaused b).Sound :=
  ⟨h.enc, h.dec, h.pck, h.unp, h.ser, h.par, h.comp⟩

theorem State.Sound.setInq (h : s.Sound) (q : List Item) : (s.setInq q).Sound :=
  ⟨h.enc, h.dec, h.pck, h.unp, h.ser, h.par, h.comp⟩

theorem pckStart_sound : PckSound pckStart := fun _ => Nat.zero_le 7

theorem unpStart_sound : UnpSound unpStart := fun _ => ⟨Nat.zero_le 19, Nat.one_pos⟩

theorem execUnpFeed_keeps {b : Byte} (h : s.Sound) (ht : execUnpFeed b s = .next t) : t.Sound := by
  obtain ⟨-, hrun, hcnt, rfl⟩ := execUnpFeed_next.1 ht
  obtain ⟨hcnt', hacc'⟩ := unpFeed_sound hcnt (h.unp hrun).2 b
  exact State.Sound.setUnp h fun _ => ⟨by omega, hcnt' ▸ hacc'⟩

theorem execUnpPull_keeps {w : Width} (h : s.Sound) (ht : execUnpPull w s = .next t) : t.Sound := by
  obtain ⟨-, hrun, -, hle, rfl⟩ := execUnpPull_next.1 ht
  obtain ⟨hcnt, hacc⟩ := h.unp hrun
  obtain ⟨hcnt', hacc'⟩ := unpPull_sound hle hacc
  exact State.Sound.setUnp h fun _ => ⟨by omega, hcnt' ▸ hacc'⟩

theorem execDecCode_keeps {c : Code} (h : s.Sound) (ht : execDecCode c s = .next t) : t.Sound := by
  obtain ⟨-, ha, rfl⟩ := execDecCode_next.1 ht
  exact decEffect_keeps h (decCode_sound h.dec ha.ne_fail c)

theorem execDecEos_keeps (h : s.Sound) (ht : execDecEos s = .next t) : t.Sound := by
  obtain ⟨-, -, rfl⟩ := execDecEos_next.1 ht
  exact decEffect_keeps h (decEos_sound h.dec)

/-! ### Soundness under the container's fields -/

/-- A read of `n` bytes at a field of the fixed layout of 20_memory.md R69 stops where the next field stands, and that
field stands behind the colour table only if this one does. -/
abbrev FixedMove (f : ContField) (n : Nat) (nxt : ContField) : Prop :=
  f ≠ .sig ∧ f ≠ .blocks ∧ f ≠ .trailer ∧ nxt ≠ .sig ∧ fieldOffset f + n = fieldOffset nxt ∧
  (fieldOffset .sep ≤ fieldOffset nxt → fieldOffset .sep ≤ fieldOffset f)

/-- A field of the fixed layout other than the colour table. -/
theorem fixedField_keeps {f nxt : ContField} {n : Nat} {l : ParLocals} (h : s.Sound)
    (ht : whenEnabled [running s, atField f s] (fieldRead n nxt l s) = .next t) (hmove : FixedMove f n nxt)
    (hl : l.pal = s.par.loc.pal) : t.Sound := by
  obtain ⟨hsig, hblocks, htrailer, hnxt, hoff, htable⟩ := hmove
  obtain ⟨-, rfl, rfl⟩ : s.paused = false ∧ s.par.next = f ∧ fieldRead n nxt l s = t := by
    simpa [whenEnabled_eq_next, and_assoc] using ht
  have hpos : s.par.pos + n = fieldOffset nxt := by rw [h.par.fixed hsig hblocks htrailer, hoff]
  exact State.Sound.setPar h
    (fieldRead_sound h.par hnxt (fun _ _ => hpos) (fun _ => hpos.ge) fun hge => hl ▸ h.par.table (htable hge))

/-- The colour table, when it has its 256 entries (30_encoding.md R99). -/
theorem tableRead_keeps {l : ParLocals} (h : s.Sound) (hat : s.par.next = .gct) (hl : l.pal.length = 256) :
    (fieldRead (3 * l.pal.length) .sep l s).Sound := by
  have hpos : s.par.pos = 13 := by
    have := h.par.fixed (by simp [hat]) (by simp [hat]) (by simp [hat])
    rwa [hat] at this
  exact State.Sound.setPar h
    (fieldRead_sound h.par (by decide) (fun _ _ => by rw [hpos, hl]; rfl) (by simp) fun _ => hl)

/-- A data sub-block or the terminator: the parse stays behind the fixed layout. -/
theorem blocksRead_keeps {nxt : ContField} {n : Nat} {l : ParLocals} (h : s.Sound) (hat : s.par.next = .blocks)
    (hnxt : nxt = .blocks ∨ nxt = .trailer) (hn : 1 ≤ n) (hl : l.pal = s.par.loc.pal) :
    (fieldRead n nxt l s).Sound := by
  have hpos : 792 ≤ s.par.pos := by
    have := h.par.blocks (.inl hat)
    rwa [hat] at this
  have htable : l.pal.length = 256 := hl ▸ h.par.table (by rw [hat]; decide)
  have hge : fieldOffset nxt ≤ s.par.pos + n := by rcases hnxt with rfl | rfl <;> simp only [fieldOffset] <;> omega
  have hsig : nxt ≠ .sig := by rcases hnxt with rfl | rfl <;> decide
  exact State.Sound.setPar h
    (fieldRead_sound h.par hsig (fun hb ht => absurd hnxt (not_or.2 ⟨hb, ht⟩)) (fun _ => hge) fun _ => htable)

theorem parCommit_keeps (l : ParLocals) (pos : Nat) (h : s.Sound) : (parCommit l pos s).Sound :=
  State.Sound.setShared (State.Sound.setPar h (parCommit_sound l pos s)) _

theorem parFail_keeps (pos : Nat) (h : s.Sound) : (parFail pos s).Sound := State.Sound.setPar h (parFail_sound pos s)

/-! ### Soundness under the composites -/

/-- `fail e` of a composite (46_pipeline_control.md R260). -/
theorem compFail_keeps {e : Err} (h : s.Sound) (he : e ≠ .none) : (raise .comp e s).Sound :=
  State.Sound.setComp h ⟨fun _ => he, fun _ => rfl⟩

theorem compStart_keeps (h : s.Sound) : (compStart s).Sound := State.Sound.setComp h (by simp [CompSound])

theorem compDone_keeps (h : s.Sound) (he : s.comp.err = .none) : (compDone s).Sound :=
  State.Sound.setComp h (by simp [CompSound, he])

theorem serRun_comp (s : State) : (serRun s).comp = s.comp := by rw [serRun_only]; rfl

theorem encodeFinish_keeps (h : s.Sound) (he : s.comp.err = .none) : (encodeFinish s).Sound := by
  have hser : (serRun (packedOut (pckFlush s.pck) s)).Sound := serRun_keeps (packedOut_keeps h (pckFlush_sound _ _))
  simp only [encodeFinish]
  split
  case isTrue hfail => exact compFail_keeps hser (hser.ser.1.1 hfail)
  case isFalse => exact compDone_keeps hser (by rw [serRun_comp]; exact he)

/-- Where `ENCODE`'s symbols start: the shared registers set, ENC and PCK at the start of a run (46_pipeline_control.md
R260). -/
def encodeReady (iw ih : Dim) (pal : List RGB) (s : State) : State :=
  ((encodeSetup iw ih pal (compStart s)).setEnc encStart).setPck pckStart

theorem encodeReady_keeps (iw ih : Dim) (pal : List RGB) (h : s.Sound) : (encodeReady iw ih pal s).Sound :=
  State.Sound.setPck (State.Sound.setEnc (State.Sound.setShared (compStart_keeps h) _) encStart_sound) pckStart_sound

/-- `ENCODE` runs sound units and reports an error only of a unit that failed (46_pipeline_control.md R260, R261). -/
theorem encodeRun_keeps (iw ih : Dim) (pal : List RGB) (x : List Byte) (h : s.Sound) :
    (encodeRun iw ih pal x s).Sound := by
  have hsyms := encodeSymbols_keeps x (encodeReady_keeps iw ih pal h)
  have hend := encEffect_keeps hsyms (encFinish_sound hsyms.enc).1
  have hcomp : (encodeSymbols x (encodeReady iw ih pal s)).comp.err = .none := by rw [encodeSymbols_comp]; rfl
  simp only [encodeRun]
  split
  case isTrue => exact compFail_keeps (compStart_keeps h) nofun
  split
  case isTrue hfail => exact compFail_keeps hsyms (hsyms.enc.err.1 hfail)
  split
  case isTrue hfail => exact compFail_keeps hend (hend.enc.err.1 hfail)
  exact encodeFinish_keeps (pushPairs_keeps _ hend) (by rw [pushPairs_comp, encEffect_comp]; exact hcomp)

theorem feedUntil_keeps {w : Width} {bytes rest : List Byte} (h : s.Sound)
    (hf : feedUntil w bytes s = .next (u, rest)) : u.Sound := by
  induction bytes generalizing s with
  | nil => cases hf; exact h
  | cons b bytes ih =>
    simp only [feedUntil] at hf
    split at hf
    · obtain ⟨v, hv, hf⟩ := follow_eq_next.1 hf
      exact ih (execUnpFeed_keeps h hv) hf
    · cases hf; exact h

theorem PullLoop.keeps {bytes : List Byte} (hl : PullLoop bytes s t) (h : s.Sound) : t.Sound := by
  induction hl with
  | exhausted hf _ he => exact execDecEos_keeps (feedUntil_keeps h hf) he
  | ended hf hp _ hc _ => exact execDecCode_keeps (execUnpPull_keeps (feedUntil_keeps h hf) hp) hc
  | more hf hp _ hc _ _ _ ih => exact ih (execDecCode_keeps (execUnpPull_keeps (feedUntil_keeps h hf) hp) hc)

/-- The source's end is no end of a decoder's run (41_decoder.md R167). -/
theorem decEos_fails (ha : DecAwaits s) : (decEffect (decEos s.dec) s).dec.phase = .fail := by
  rcases ha with hp | hp | hp <;> simp [decEos, hp]

/-- The pull loop goes on until the decoder's run is over. -/
theorem PullLoop.ends {bytes : List Byte} (hl : PullLoop bytes s t) : t.dec.phase = .done ∨ t.dec.phase = .fail := by
  induction hl with
  | exhausted _ _ he =>
    obtain ⟨-, ha, rfl⟩ := execDecEos_next.1 he
    exact .inr (decEos_fails ha)
  | ended _ _ _ _ hend => exact hend
  | more _ _ _ _ _ _ _ ih => exact ih

/-- Where `DECODE`'s pull loop starts: the container parsed, UNP and DEC at the start of a run (46_pipeline_control.md
R265). -/
def decodeReady (cont : List Byte) (s : State) : State :=
  ((parRun cont (compStart s)).setUnp unpStart).setDec decStart

/-- `DECODE`'s status from the decoder's. -/
def decodeStatus (d : Dec) : Comp := if d.phase = .done then ⟨.done, .none⟩ else ⟨.fail, d.err⟩

theorem parRun_comp (cont : List Byte) (s : State) : (parRun cont s).comp = s.comp := by rw [parRun_only]; rfl

theorem parRun_paused (cont : List Byte) (s : State) : (parRun cont s).paused = s.paused := by rw [parRun_only]; rfl

theorem parRun_next (cont : List Byte) (s : State) : (parRun cont s).par.next = .sig := by
  unfold parRun; split <;> rfl

/-- `DECODE` ends with its parse, or runs the pull loop and takes its status from DEC. -/
theorem decodeRun_cases {cont : List Byte} (hp : s.paused = false) (hd : decodeRun cont s = some t) :
    (parRun cont (compStart s)).par.phase = .fail ∧
      t = raise .comp (parRun cont (compStart s)).par.err (parRun cont (compStart s)) ∨
    ∃ w, PullLoop (decodeReady cont s).shared.pbuf (decodeReady cont s) w ∧ t = w.setComp (decodeStatus w.dec) := by
  simp only [decodeRun] at hd
  split at hd
  case isTrue hfail => exact .inl ⟨hfail, (Option.some.inj hd).symm⟩
  case isFalse =>
    have hcomp : (decodeReady cont s).comp = ⟨.idle, .none⟩ := parRun_comp cont _
    obtain ⟨w, hw, -, ht⟩ := decodeLoop_pullLoop _ _ (decodeReady cont s) t ((parRun_paused cont _).trans hp) rfl
      decStart_sound (.inl rfl) hd
    exact .inr ⟨w, hw, by rw [ht, hcomp]; rfl⟩

theorem decodeRun_keeps {cont : List Byte} (h : s.Sound) (hp : s.paused = false) (hd : decodeRun cont s = some t) :
    t.Sound := by
  have hpar := parRun_keeps (compStart_keeps h) cont
  rcases decodeRun_cases hp hd with ⟨hfail, rfl⟩ | ⟨w, hw, rfl⟩
  · exact compFail_keeps hpar ((hpar.par.idle (parRun_next _ _)).2.1 hfail)
  · have hsound : w.Sound := hw.keeps (State.Sound.setDec (State.Sound.setUnp hpar unpStart_sound) decStart_sound)
    refine State.Sound.setComp hsound ?_
    unfold decodeStatus
    rcases hw.ends with hend | hend
    · simp [CompSound, hend]
    · simp [CompSound, hend, hsound.dec.err.1 hend]

/-! ### Soundness under every instruction and every step -/

/-- Every instruction keeps a sound state sound; a colour table must have its 256 entries (30_encoding.md R99). -/
theorem exec_keeps (h : s.Sound) (hgct : ∀ pal, i = .contGct pal → pal.length = 256) (ht : exec i s = .next t) :
    t.Sound := by
  cases i with
  | ctlPause => obtain ⟨-, rfl⟩ := execCtlPause_next.1 ht; exact State.Sound.setPaused h true
  | ctlResume => obtain ⟨-, rfl⟩ := execCtlResume_next.1 ht; exact State.Sound.setPaused h false
  | ctlCancel => obtain rfl := execCtlCancel_next.1 ht; exact clearAll_sound s
  | encInit => obtain ⟨-, rfl⟩ := execEncInit_next.1 ht; exact State.Sound.setEnc h encStart_sound
  | encSym k => obtain ⟨-, -, rfl⟩ := execEncSym_next.1 ht; exact encEffect_keeps h (encSymbol_sound h.enc k).1
  | encEnd => obtain ⟨-, -, rfl⟩ := execEncEnd_next.1 ht; exact encEffect_keeps h (encFinish_sound h.enc).1
  | decInit => obtain ⟨-, rfl⟩ := execDecInit_next.1 ht; exact State.Sound.setDec h decStart_sound
  | decCode c => exact execDecCode_keeps h ht
  | decEos => exact execDecEos_keeps h ht
  | pckInit => obtain ⟨-, rfl⟩ := execPckInit_next.1 ht; exact State.Sound.setPck h pckStart_sound
  | pckPush c w =>
    obtain ⟨-, -, -, rfl⟩ := execPckPush_next.1 ht
    exact State.Sound.setPck h (pckPush_sound _ _ _ _)
  | pckFlush => obtain ⟨-, -, rfl⟩ := execPckFlush_next.1 ht; exact State.Sound.setPck h (pckFlush_sound _ _)
  | unpInit => obtain ⟨-, rfl⟩ := execUnpInit_next.1 ht; exact State.Sound.setUnp h unpStart_sound
  | unpFeed b => exact execUnpFeed_keeps h ht
  | unpPull w => exact execUnpPull_keeps h ht
  | serRun => obtain ⟨-, -, rfl⟩ := execSerRun_next.1 ht; exact serRun_keeps h
  | parRun cont => obtain ⟨-, rfl⟩ := execParRun_next.1 ht; exact parRun_keeps h cont
  | runEncode iw ih pal x => obtain ⟨-, rfl⟩ := execRunEncode_next.1 ht; exact encodeRun_keeps iw ih pal x h
  | runDecode cont => obtain ⟨hp, hd⟩ := execRunDecode_next.1 ht; exact decodeRun_keeps h hp hd
  | codeClear =>
    obtain ⟨-, ha, rfl⟩ := execCodeClear_next.1 ht
    exact decEffect_keeps h (decClear_sound h.dec ha.ne_fail)
  | codeEnd => obtain ⟨-, ha, rfl⟩ := execCodeEnd_next.1 ht; exact decEffect_keeps h (decEnd_sound h.dec ha.ne_fail)
  | codeRoot k => obtain ⟨-, -, rfl⟩ := execCodeRoot_next.1 ht; exact decEffect_keeps h (decRoot_sound h.dec k)
  | codeDyn c => obtain ⟨-, -, rfl⟩ := execCodeDyn_next.1 ht; exact decEffect_keeps h (decDyn_sound h.dec c)
  | contSig => obtain ⟨-, -, rfl⟩ := execContSig_next.1 ht; exact State.Sound.setPar h fieldSig_sound
  | contLsw v => exact fixedField_keeps h ht (by decide) rfl
  | contLsh v => exact fixedField_keeps h ht (by decide) rfl
  | contSflags => exact fixedField_keeps h ht (by decide) rfl
  | contBg => exact fixedField_keeps h ht (by decide) rfl
  | contAspect => exact fixedField_keeps h ht (by decide) rfl
  | contGct pal =>
    obtain ⟨-, hat, rfl⟩ := execContGct_next.1 ht
    exact tableRead_keeps (l := { s.par.loc with pal := pal }) h hat (hgct pal rfl)
  | contSep => exact fixedField_keeps h ht (by decide) rfl
  | contLeft => exact fixedField_keeps h ht (by decide) rfl
  | contTop => exact fixedField_keeps h ht (by decide) rfl
  | contIw v => exact fixedField_keeps h ht (by decide) rfl
  | contIh v => exact fixedField_keeps h ht (by decide) rfl
  | contIflags => exact fixedField_keeps h ht (by decide) rfl
  | contMincode => exact fixedField_keeps h ht (by decide) rfl
  | contSubblock data =>
    obtain ⟨-, hat, rfl⟩ := execContSubblock_next.1 ht
    exact blocksRead_keeps h hat (.inl rfl) (by omega) rfl
  | contTerm =>
    obtain ⟨-, hat, rfl⟩ := execContTerm_next.1 ht
    exact blocksRead_keeps h hat (.inr rfl) (Nat.le_refl 1) rfl
  | contTrailer => obtain ⟨-, -, rfl⟩ := execContTrailer_next.1 ht; exact parCommit_keeps _ _ h

theorem decodeCode_ne_contGct (c : Code) (pal : List RGB) : decodeCode c ≠ .contGct pal := by
  unfold decodeCode
  repeat' split
  all_goals nofun

theorem stepItem_keeps {it : Item} (h : s.Sound) (ht : stepItem it s = .next t) : t.Sound := by
  cases it with
  | op bytes =>
    replace ht : stepOp bytes s = .next t := ht
    cases hd : decode .op bytes with
    | ok r => exact exec_keeps h (decode_contGct_length hd) ((stepOp_of_decode_ok hd).symm.trans ht)
    | error why => exact nomatch (stepOp_of_decode_error hd).symm.trans ht
  | code c => exact exec_keeps h (fun pal hpal => absurd hpal (decodeCode_ne_contGct c pal)) ht
  | cont bytes =>
    replace ht : stepCont bytes s = .next t := ht
    cases hd : decode (.contIn s.par.next) bytes with
    | ok r =>
      exact exec_keeps (State.Sound.setInq h _) (decode_contGct_length hd) ((stepCont_of_decode_ok hd).symm.trans ht)
    | error why =>
      simp only [stepCont, hd] at ht
      exact (whenEnabled_eq_next.1 ht).2 ▸ parFail_keeps _ h
  | write w => cases ht; exact State.Sound.setShared h _
  | resetInput => cases ht; exact clearAll_sound s

/-- Settles O4: taking an item off the queue touches no unit, and every kind of item keeps the units sound. -/
theorem everyStepKeepsStatesSound : Obligations.EveryStepKeepsStatesSound := by
  intro s t h ht
  cases hq : s.inq with
  | nil => cases (step_of_inq_nil hq).symm.trans ht; exact h
  | cons it q => exact stepItem_keeps (State.Sound.setInq h q) ((step_of_inq_cons hq).symm.trans ht)

end Sys2Proof.Machine
end

section
/-! PROOFS. What an operation writes and leaves alone (10_state.md R39), and the driver's writes (R34 to R36). -/

namespace Sys2Proof.Machine

variable {s t u : State} {i : Instr}

/-! ### The access table -/

/-- From `s` to `t` nothing has changed but what the row of `i` in the access table names (10_state.md R39). -/
structure KeepsOthers (i : Instr) (s t : State) : Prop where
  enc    : writesEnc i = false → t.enc = s.enc
  dec    : writesDec i = false → t.dec = s.dec
  pck    : writesPck i = false → t.pck = s.pck
  unp    : writesUnp i = false → t.unp = s.unp
  ser    : writesSer i = false → t.ser = s.ser
  par    : writesPar i = false → t.par = s.par
  comp   : writesComp i = false → t.comp = s.comp
  shared : writesShared i = false → t.shared = s.shared
  paused : writesPaused i = false → t.paused = s.paused
  inq    : t.inq = s.inq

namespace KeepsOthers

theorem refl : KeepsOthers i s s :=
  ⟨fun _ => rfl, fun _ => rfl, fun _ => rfl, fun _ => rfl, fun _ => rfl, fun _ => rfl, fun _ => rfl, fun _ => rfl,
    fun _ => rfl, rfl⟩

/-! One more write, of a unit that the row of `i` names. -/

theorem setEnc (h : KeepsOthers i s t) (hw : writesEnc i = true) (e : Enc) : KeepsOthers i s (t.setEnc e) :=
  { h with enc := fun hf => nomatch hw.symm.trans hf }
theorem setDec (h : KeepsOthers i s t) (hw : writesDec i = true) (d : Dec) : KeepsOthers i s (t.setDec d) :=
  { h with dec := fun hf => nomatch hw.symm.trans hf }
theorem setPck (h : KeepsOthers i s t) (hw : writesPck i = true) (p : Pck) : KeepsOthers i s (t.setPck p) :=
  { h with pck := fun hf => nomatch hw.symm.trans hf }
theorem setUnp (h : KeepsOthers i s t) (hw : writesUnp i = true) (v : Unp) : KeepsOthers i s (t.setUnp v) :=
  { h with unp := fun hf => nomatch hw.symm.trans hf }
theorem setSer (h : KeepsOthers i s t) (hw : writesSer i = true) (e : Ser) : KeepsOthers i s (t.setSer e) :=
  { h with ser := fun hf => nomatch hw.symm.trans hf }
theorem setPar (h : KeepsOthers i s t) (hw : writesPar i = true) (p : Par) : KeepsOthers i s (t.setPar p) :=
  { h with par := fun hf => nomatch hw.symm.trans hf }
theorem setComp (h : KeepsOthers i s t) (hw : writesComp i = true) (c : Comp) : KeepsOthers i s (t.setComp c) :=
  { h with comp := fun hf => nomatch hw.symm.trans hf }
theorem setShared (h : KeepsOthers i s t) (hw : writesShared i = true) (r : Shared) :
    KeepsOthers i s (t.setShared r) :=
  { h with shared := fun hf => nomatch hw.symm.trans hf }
theorem setPaused (h : KeepsOthers i s t) (hw : writesPaused i = true) (b : Bool) : KeepsOthers i s (t.setPaused b) :=
  { h with paused := fun hf => nomatch hw.symm.trans hf }

/-! One more effect of a unit. -/

theorem encEffect (h : KeepsOthers i s t) (hw : writesEnc i = true) (r : EncEffect) :
    KeepsOthers i s (encEffect r t).1 := by
  rw [encEffect_only]; exact h.setEnc hw _

theorem decEffect (h : KeepsOthers i s t) (hw : writesDec i = true) (r : DecEffect) :
    KeepsOthers i s (decEffect r t) := by
  rw [decEffect_only]; exact h.setDec hw _

theorem serRun (h : KeepsOthers i s t) (hw : writesSer i = true) : KeepsOthers i s (serRun t) := by
  rw [serRun_only]; exact h.setSer hw _

theorem parRun (h : KeepsOthers i s t) (hp : writesPar i = true) (hs : writesShared i = true) (cont : List Byte) :
    KeepsOthers i s (parRun cont t) := by
  rw [parRun_only]; exact (h.setPar hp _).setShared hs _

theorem packedOut (h : KeepsOthers i s t) (hp : writesPck i = true) (hs : writesShared i = true)
    (r : Pck × List Byte) : KeepsOthers i s (packedOut r t) := (h.setPck hp _).setShared hs _

/-! ### The composites -/

theorem pushPairs (h : KeepsOthers i s t) (hp : writesPck i = true) (hs : writesShared i = true) (ps : List Pair) :
    KeepsOthers i s (pushPairs ps t) := by
  induction ps generalizing t with
  | nil => exact h
  | cons p ps ih => exact ih (h.packedOut hp hs _)

theorem encodeSymbols (h : KeepsOthers i s t) (he : writesEnc i = true) (hp : writesPck i = true)
    (hs : writesShared i = true) (x : List Byte) : KeepsOthers i s (encodeSymbols x t) := by
  induction x generalizing t with
  | nil => exact h
  | cons k x ih =>
    have hstep := (h.encEffect he (encSymbol k t.enc)).pushPairs hp hs (Machine.encEffect (encSymbol k t.enc) t).2
    simp only [Machine.encodeSymbols]
    split
    · exact hstep
    · exact ih hstep

theorem encodeFinish (h : KeepsOthers i s t) (hp : writesPck i = true) (hs : writesShared i = true)
    (hr : writesSer i = true) (hc : writesComp i = true) : KeepsOthers i s (encodeFinish t) := by
  have hser := (h.packedOut hp hs (pckFlush t.pck)).serRun hr
  simp only [Machine.encodeFinish]
  split
  · exact hser.setComp hc _
  · exact hser.setComp hc _

end KeepsOthers

/-- `ENCODE` runs ENC, PCK and SER and writes the shared registers (46_pipeline_control.md R260). -/
theorem encodeRun_keepsOthers (iw ih : Dim) (pal : List RGB) (x : List Byte) (s : State) :
    KeepsOthers (.runEncode iw ih pal x) s (encodeRun iw ih pal x s) := by
  have hstart : KeepsOthers (.runEncode iw ih pal x) s (compStart s) := KeepsOthers.refl.setComp rfl _
  have hready : KeepsOthers (.runEncode iw ih pal x) s (encodeReady iw ih pal s) :=
    ((hstart.setShared rfl _).setEnc rfl encStart).setPck rfl pckStart
  have hsyms := hready.encodeSymbols rfl rfl rfl x
  have hend (r : EncEffect) := hsyms.encEffect rfl r
  simp only [encodeRun]
  split
  · exact hstart.setComp rfl _
  split
  · exact hsyms.setComp rfl _
  split
  · exact (hend _).setComp rfl _
  · exact ((hend _).pushPairs rfl rfl _).encodeFinish rfl rfl rfl rfl

theorem feedUntil_keepsOthers {w : Width} {bytes rest : List Byte} (h : KeepsOthers i s t) (hw : writesUnp i = true)
    (hf : feedUntil w bytes t = .next (u, rest)) : KeepsOthers i s u := by
  induction bytes generalizing t with
  | nil => cases hf; exact h
  | cons b bytes ih =>
    simp only [feedUntil] at hf
    split at hf
    · obtain ⟨v, hv, hf⟩ := follow_eq_next.1 hf
      obtain ⟨-, -, -, rfl⟩ := execUnpFeed_next.1 hv
      exact ih (h.setUnp hw _) hf
    · cases hf; exact h

/-- One code pulled and decoded. -/
theorem pullCode_keepsOthers {w : Width} {c : Code} {v : State} (h : KeepsOthers i s t) (hu : writesUnp i = true)
    (hd : writesDec i = true) (hp : exec (.unpPull w) t = .next u) (hc : exec (.decCode c) u = .next v) :
    KeepsOthers i s v := by
  obtain ⟨-, -, -, -, rfl⟩ := execUnpPull_next.1 hp
  obtain ⟨-, -, rfl⟩ := execDecCode_next.1 hc
  exact (h.setUnp hu _).decEffect hd _

/-- The pull loop writes UNP and DEC only (46_pipeline_control.md R266). -/
theorem PullLoop.keepsOthers {bytes : List Byte} (hl : PullLoop bytes t u) (hu : writesUnp i = true)
    (hd : writesDec i = true) (h : KeepsOthers i s t) : KeepsOthers i s u := by
  induction hl with
  | exhausted hf _ he =>
    obtain ⟨-, -, rfl⟩ := execDecEos_next.1 he
    exact (feedUntil_keepsOthers h hu hf).decEffect hd _
  | ended hf hp _ hc _ => exact pullCode_keepsOthers (feedUntil_keepsOthers h hu hf) hu hd hp hc
  | more hf hp _ hc _ _ _ ih => exact ih (pullCode_keepsOthers (feedUntil_keepsOthers h hu hf) hu hd hp hc)

/-- `DECODE` runs PAR, UNP and DEC (46_pipeline_control.md R265). -/
theorem decodeRun_keepsOthers {cont : List Byte} (hp : s.paused = false) (hd : decodeRun cont s = some t) :
    KeepsOthers (.runDecode cont) s t := by
  have hpar : KeepsOthers (.runDecode cont) s (parRun cont (compStart s)) :=
    (KeepsOthers.refl.setComp rfl _).parRun rfl rfl cont
  rcases decodeRun_cases hp hd with ⟨-, rfl⟩ | ⟨w, hw, rfl⟩
  · exact hpar.setComp rfl _
  · exact (hw.keepsOthers rfl rfl ((hpar.setUnp rfl _).setDec rfl _)).setComp rfl _

/-! ### Every instruction -/

/-- An enabled operation leaves alone what its transition leaves alone. -/
theorem KeepsOthers.whenEnabled {cs : List (Bool × Refusal)} (h : KeepsOthers i s t)
    (ht : whenEnabled cs t = .next u) : KeepsOthers i s u := (whenEnabled_eq_next.1 ht).2 ▸ h

/-- A field of the container moves the parse on; the trailer also commits it (45_parser.md R236). -/
theorem field_keepsOthers (hi : isField i = true) (ht : exec i s = .next t) : KeepsOthers i s t := by
  have hw : writesPar i = true := by simp [writesPar, hi]
  cases i
  case contTrailer => exact ((KeepsOthers.refl.setPar hw _).setShared rfl _).whenEnabled ht
  all_goals first
    | exact (KeepsOthers.refl.setPar hw _).whenEnabled ht
    | exact nomatch hi

theorem exec_keepsOthers (ht : exec i s = .next t) : KeepsOthers i s t := by
  have h : KeepsOthers i s s := .refl
  cases i with
  | ctlPause => exact (h.setPaused rfl true).whenEnabled ht
  | ctlResume => exact (h.setPaused rfl false).whenEnabled ht
  | ctlCancel =>
    obtain rfl := execCtlCancel_next.1 ht
    exact ⟨nofun, nofun, nofun, nofun, nofun, nofun, nofun, nofun, nofun, rfl⟩
  | encInit => exact (h.setEnc rfl encStart).whenEnabled ht
  | encSym k => exact (h.encEffect rfl (encSymbol k s.enc)).whenEnabled ht
  | encEnd => exact (h.encEffect rfl (encFinish s.enc)).whenEnabled ht
  | decInit => exact (h.setDec rfl decStart).whenEnabled ht
  | decCode c => exact (h.decEffect rfl (decCode c s.dec)).whenEnabled ht
  | decEos => exact (h.decEffect rfl (decEos s.dec)).whenEnabled ht
  | pckInit => exact (h.setPck rfl pckStart).whenEnabled ht
  | pckPush c w => exact (h.setPck rfl _).whenEnabled ht
  | pckFlush => exact (h.setPck rfl _).whenEnabled ht
  | unpInit => exact (h.setUnp rfl unpStart).whenEnabled ht
  | unpFeed b => exact (h.setUnp rfl (unpFeed b s.unp)).whenEnabled ht
  | unpPull w => exact (h.setUnp rfl (unpPull w s.unp)).whenEnabled ht
  | serRun => exact (h.serRun rfl).whenEnabled ht
  | parRun cont => exact (h.parRun rfl rfl cont).whenEnabled ht
  | runEncode iw ih pal x => exact (encodeRun_keepsOthers iw ih pal x s).whenEnabled ht
  | runDecode cont => obtain ⟨hp, hd⟩ := execRunDecode_next.1 ht; exact decodeRun_keepsOthers hp hd
  | codeClear => exact (h.decEffect rfl (decClear s.dec)).whenEnabled ht
  | codeEnd => exact (h.decEffect rfl (decEnd s.dec)).whenEnabled ht
  | codeRoot k => exact (h.decEffect rfl (decRoot k s.dec)).whenEnabled ht
  | codeDyn c => exact (h.decEffect rfl (decDyn c s.dec)).whenEnabled ht
  | _ => exact field_keepsOthers rfl ht

/-- Settles O50: every instruction's transition is a chain of writes that its row of the table names. -/
theorem operationsWriteOnlyTheirUnits : Obligations.OperationsWriteOnlyTheirUnits := by
  intro s t i ht
  obtain ⟨henc, hdec, hpck, hunp, hser, hpar, hcomp, hshared, hpaused, hinq⟩ := exec_keepsOthers ht
  exact ⟨henc, hdec, hpck, hunp, hser, hpar, hcomp, hshared, hpaused, hinq⟩

/-! ### The driver's writes -/

/-- One step takes the write off the queue and changes the shared registers as `Shared.write` says. -/
theorem step_of_write {w : DriverWrite} {q : List Item} (h : s.inq = .write w :: q) :
    step s = .next { s with inq := q, shared := s.shared.write w } := step_of_inq_cons h

theorem write_pal_getElem (r : Shared) (i : Byte) (c : RGB) (j : Nat) (hj : j < 256) :
    (r.write (.pal i c)).pal[j] = if j = i.toNat then c else r.pal[j] := by
  simp only [Shared.write, Vector.getElem_setIfInBounds, eq_comm]

theorem write_pal_written (r : Shared) (i : Byte) (c : RGB) (j : Nat) (hj : j < 256) :
    (r.write (.pal i c)).written.pal.getLsbD j = (decide (j = i.toNat) || r.written.pal.getLsbD j) := by
  simp only [Shared.write, BitVec.getLsbD_or, BitVec.getLsbD_ofNat, Nat.testBit_two_pow, hj, decide_true,
    Bool.true_and, Bool.or_comm, eq_comm]

/-- Settles O54: each write is one step, and says itself what it changes. -/
theorem driverWritesReachTheSharedRegisters : Obligations.DriverWritesReachTheSharedRegisters := by
  intro s q v n i b c
  refine ⟨step_of_write, step_of_write, step_of_write, step_of_write, step_of_write, fun h => ?_⟩
  exact ⟨_, step_of_write h, rfl, write_pal_getElem s.shared i c, rfl, write_pal_written s.shared i c⟩

end Sys2Proof.Machine
end

section
/-! PROOFS. What 20_memory.md fixes: the roots of the dictionaries (R80), the writes of the palette (R81) and the
container layout (R69), which the parser accepts. -/

namespace Sys2Proof.Machine

/-! ### The roots -/

/-- With `D_NEXT` at its start no code from 258 on is held. -/
theorem decHas_firstDyn {c : Code} : decHas 258 c = true ↔ c.toNat < 256 := by
  have hnext : (258 : NextCode).toNat = 258 := rfl
  simp only [decHas, hnext, Bool.or_eq_true, Bool.and_eq_true, decide_eq_true_eq]
  omega

theorem decLookup_root (d : DecDict) {c : Code} (h : c.toNat < 256) : decLookup d c = [c.setWidth 8] := if_pos h

/-- Settles O6: a phrase of another length, and a code from 256 on, could only be a dynamic entry, and there is none. -/
theorem rootsAreTheSingleSymbols : Obligations.RootsAreTheSingleSymbols := by
  refine ⟨encLookup_single encRoots, fun p hp => ?_, fun c hc => ⟨decLookup_root _ hc, decHas_firstDyn.2 hc⟩,
    fun c hc => ?_⟩
  · rw [encLookup_long _ hp]; rfl
  · exact Bool.eq_false_iff.2 fun h => absurd (decHas_firstDyn.1 h) (by omega)

/-! ### The palette -/

/-- Entries below the first index keep their value, those the list reaches are its colours, the others keep theirs. -/
theorem palWrite_getElem (pal : Palette) (i : Nat) (cs : List RGB) (j : Nat) (hj : j < 256) :
    (palWrite pal i cs)[j] = if j < i then pal[j] else cs[j - i]?.getD pal[j] := by
  induction cs generalizing pal i with
  | nil => simp [palWrite]
  | cons c cs ih =>
    rw [palWrite, ih, Vector.getElem_setIfInBounds]
    obtain hlt | rfl | hgt := Nat.lt_trichotomy j i
    · rw [if_pos (by omega), if_neg (by omega), if_pos hlt]
    · simp
    · obtain ⟨k, rfl⟩ := Nat.exists_eq_add_of_lt hgt
      rw [if_neg (by omega), if_neg (by omega), if_neg (by omega), show i + k + 1 - i = k + 1 by omega,
        show i + k + 1 - (i + 1) = k by omega, List.getElem?_cons_succ]

/-- A whole colour table written from the first entry on is the palette. -/
theorem getElem?_eq_palWrite (pal : Palette) {cs : List RGB} (h : cs.length = 256) (i : Nat) (hi : i < 256) :
    cs[i]? = some (palWrite pal 0 cs)[i] := by
  rw [palWrite_getElem, if_neg (Nat.not_lt_zero i), Nat.sub_zero, List.getElem?_eq_getElem (by omega),
    Option.getD_some]

/-! ### Reading what is laid out -/

theorem parTake_append (v rest : List Byte) (p : Nat) :
    parTake v.length ⟨p, v ++ rest⟩ = .ok (v, ⟨p + v.length, rest⟩) := by
  simp [parTake]

theorem parExpect_append (want rest : List Byte) (p : Nat) :
    parExpect want ⟨p, want ++ rest⟩ = .ok ⟨p + want.length, rest⟩ := by
  rw [parExpect, parTake_append]
  exact if_pos rfl

theorem parDim_append (v : Dim) (rest : List Byte) (p : Nat) :
    parDim ⟨p, dim16 v ++ rest⟩ = .ok (v, ⟨p + 2, rest⟩) := by
  rw [parDim, show 2 = (dim16 v).length from rfl, parTake_append]
  exact congrArg (fun w => Except.ok (w, _)) (le16_lo8_hi8 v)

theorem parTable_append (cs : List RGB) (rest : List Byte) (p : Nat) :
    parTable cs.length ⟨p, cs.flatMap RGB.bytes ++ rest⟩ = .ok (cs, ⟨p + 3 * cs.length, rest⟩) := by
  induction cs generalizing p with
  | nil => rfl
  | cons c cs ih =>
    rw [List.length_cons, parTable, List.flatMap_cons, List.append_assoc, show 3 = c.bytes.length from rfl,
      parTake_append]
    simp only [bind, Except.bind, ih]
    congr 3
    simp [RGB.bytes]
    omega

/-- A sub-block behind its length byte (30_encoding.md R105). -/
def subBlock (b : List Byte) : List Byte := BitVec.ofNat 8 b.length :: b

theorem length_subBlock (b : List Byte) : (subBlock b).length = b.length + 1 := rfl

/-- Each sub-block takes a byte at least. -/
theorem length_le_length_flatMap_subBlock (blocks : List (List Byte)) :
    blocks.length ≤ (blocks.flatMap subBlock).length := by
  induction blocks with
  | nil => exact Nat.le_refl 0
  | cons b blocks ih => simp only [List.flatMap_cons, List.length_append, List.length_cons, length_subBlock]; omega

theorem parBlocks_terminator (n : Nat) (rest : List Byte) (p : Nat) :
    parBlocks (n + 1) ⟨p, 0x00 :: rest⟩ = .ok ([], ⟨p + 1, rest⟩) := rfl

/-- A sub-block of a legal length is taken whole, and the rest of the sequence is read behind it. -/
theorem parBlocks_subBlock {b : List Byte} (h1 : 1 ≤ b.length) (h255 : b.length ≤ 255) (n : Nat) (rest : List Byte)
    (p : Nat) :
    parBlocks (n + 1) ⟨p, subBlock b ++ rest⟩ =
      (parBlocks n ⟨p + (b.length + 1), rest⟩).map fun r => (b ++ r.1, r.2) := by
  have hlen : (BitVec.ofNat 8 b.length).toNat = b.length := Nat.mod_eq_of_lt (by omega)
  have htake : parTake 1 ⟨p, subBlock b ++ rest⟩ = .ok ([BitVec.ofNat 8 b.length], ⟨p + 1, b ++ rest⟩) :=
    parTake_append [BitVec.ofNat 8 b.length] (b ++ rest) p
  rw [parBlocks, htake]
  simp only [bind, Except.bind, List.getD_cons_zero, hlen, if_neg (show b.length ≠ 0 by omega), List.length_append,
    if_neg (show ¬ b.length + rest.length < b.length by omega), List.drop_left, List.take_left,
    show p + 1 + b.length = p + (b.length + 1) by omega]
  cases parBlocks n ⟨p + (b.length + 1), rest⟩ <;> rfl

/-- Sub-blocks and their terminator are read as the bytes joined, given a bound that allows for each length byte. -/
theorem parBlocks_append {blocks : List (List Byte)} (hb : LegalBlocks blocks) {n : Nat} (hn : blocks.length < n)
    (rest : List Byte) (p : Nat) :
    parBlocks n ⟨p, blocks.flatMap subBlock ++ (0x00 :: rest)⟩ =
      .ok (blocks.flatten, ⟨p + (blocks.flatMap subBlock).length + 1, rest⟩) := by
  induction blocks generalizing n p with
  | nil => obtain ⟨m, rfl⟩ := Nat.exists_eq_add_of_lt hn; exact parBlocks_terminator _ rest p
  | cons b blocks ih =>
    obtain ⟨m, rfl⟩ : ∃ m, n = m + 1 := ⟨n - 1, by omega⟩
    obtain ⟨⟨h1, h255⟩, hbs⟩ := List.forall_mem_cons.1 hb
    rw [List.flatMap_cons, List.append_assoc, parBlocks_subBlock h1 h255, ih hbs (by simpa using hn)]
    simp only [Except.map, List.flatten_cons, List.length_append, length_subBlock, Nat.add_assoc]

/-! ### The container -/

/-- The container of the layout, field by field as the parser reads it, with more bytes behind. -/
theorem containerOf_append (lsw lsh iw ih : Dim) (pal : List RGB) (blocks : List (List Byte)) (extra : List Byte) :
    containerOf lsw lsh iw ih pal blocks ++ extra =
      signature ++ (dim16 lsw ++ (dim16 lsh ++ ([0xF7] ++ ([0x00] ++ ([0x00] ++ (pal.flatMap RGB.bytes ++ ([0x2C] ++
        ([0x00, 0x00] ++ ([0x00, 0x00] ++ (dim16 iw ++ (dim16 ih ++ ([0x00] ++ ([Config.minCodeSize] ++
          (blocks.flatMap subBlock ++ (0x00 :: ([0x3B] ++ extra)))))))))))))))) := by
  have htable : pal.flatMap (fun c => [c.r, c.g, c.b]) = pal.flatMap RGB.bytes := rfl
  have hblocks : blocks.flatMap (fun b => BitVec.ofNat 8 b.length :: b) = blocks.flatMap subBlock := rfl
  simp only [containerOf, htable, hblocks, List.append_assoc]
  rfl

theorem length_containerOf (lsw lsh iw ih : Dim) (pal : List RGB) (blocks : List (List Byte)) :
    (containerOf lsw lsh iw ih pal blocks).length = 26 + 3 * pal.length + (blocks.flatMap subBlock).length := by
  rw [← List.append_nil (containerOf ..), containerOf_append]
  simp only [List.length_append, List.length_cons, List.length_nil, length_flatMap_bytes, signature, dim16]
  omega

/-- The parse of a container of the layout, whatever follows it (45_parser.md R238 to R245). -/
theorem parParse_containerOf (lsw lsh iw ih : Dim) {pal : List RGB} {blocks : List (List Byte)} (extra : List Byte)
    (hpal : pal.length = 256) (hb : LegalBlocks blocks) :
    parParse (containerOf lsw lsh iw ih pal blocks ++ extra) =
      .ok (⟨lsw, lsh, iw, ih, pal, blocks.flatten⟩, (containerOf lsw lsh iw ih pal blocks).length) := by
  have hcount : Config.gctEntries = pal.length := hpal.symm
  have hbound (rest : List Byte) : blocks.length < (blocks.flatMap subBlock ++ rest).length + 1 := by
    have := length_le_length_flatMap_subBlock blocks
    rw [List.length_append]
    omega
  rw [parParse, containerOf_append, length_containerOf]
  simp only [hcount, parExpect_append, parDim_append, parTable_append, parBlocks_append hb (hbound _), bind,
    Except.bind]
  congr 2
  simp only [signature, List.length_cons, List.length_nil]
  omega

/-- Settles O38: the parse reads back the fields the container was laid out from, and the commit writes them. -/
theorem layoutContainersAreAccepted : Obligations.LayoutContainersAreAccepted := by
  intro s lsw lsh iw ih pal blocks extra hp hpal hb cont
  have hrun : parRun (cont ++ extra) s = parCommit ⟨lsw, lsh, iw, ih, pal, blocks.flatten⟩ cont.length s :=
    parRun_ok (parParse_containerOf lsw lsh iw ih extra hpal hb) s
  refine ⟨_, execParRun_next.2 ⟨hp, hrun⟩, ?_⟩
  exact ⟨rfl, rfl, rfl, rfl, rfl, rfl, rfl, rfl, getElem?_eq_palWrite s.shared.pal hpal⟩

end Sys2Proof.Machine
end

section
/-! PROOFS. The words of 30_encoding.md (R118, R91, R105) and 20_memory.md (R69): the decoder and the encoder undo each
other, and what the core does with a code word and with bytes that are no legal field. -/

namespace Sys2Proof.Laws.WordRoundTrip

/-- The round trip of every row of spec/opcode_table.json. -/
theorem roundTrip : ∀ i : Instr, Statement i
  | .ctlPause => ctlPause
  | .ctlResume => ctlResume
  | .ctlCancel => ctlCancel
  | .encInit => encInit
  | .encSym k => encSym k
  | .encEnd => encEnd
  | .decInit => decInit
  | .decCode c => decCode c
  | .decEos => decEos
  | .pckInit => pckInit
  | .pckPush c w => pckPush c w
  | .pckFlush => pckFlush
  | .unpInit => unpInit
  | .unpFeed b => unpFeed b
  | .unpPull w => unpPull w
  | .serRun => serRun
  | .parRun cont => parRun cont
  | .runEncode iw ih pal x => runEncode iw ih pal x
  | .runDecode cont => runDecode cont
  | .codeClear => codeClear
  | .codeEnd => codeEnd
  | .codeRoot s => codeRoot s
  | .codeDyn c => codeDyn c
  | .contSig => contSig
  | .contLsw v => contLsw v
  | .contLsh v => contLsh v
  | .contSflags => contSflags
  | .contBg => contBg
  | .contAspect => contAspect
  | .contGct pal => contGct pal
  | .contSep => contSep
  | .contLeft => contLeft
  | .contTop => contTop
  | .contIw v => contIw v
  | .contIh v => contIh v
  | .contIflags => contIflags
  | .contMincode => contMincode
  | .contSubblock data => contSubblock data
  | .contTerm => contTerm
  | .contTrailer => contTrailer

/-- Settles O56: each constructor's round trip is proved from the readers of its operands (Laws/PerInstr.lean). -/
theorem decodeOfEncodeIsTheInstruction : Obligations.DecodeOfEncodeIsTheInstruction := roundTrip

end Sys2Proof.Laws.WordRoundTrip

namespace Sys2Proof

variable {α β : Type} {p : Port} {pre bs bytes rest : List Byte} {i i₀ : Instr}

/-! ### The readers of operands take what the writers write -/

/-- What the reader takes off the bytes is what the writer writes of the value read. -/
def Inverts (take : List Byte → Take α) (write : α → List Byte) : Prop :=
  ∀ {bs rest : List Byte} {a : α}, take bs = .ok (a, rest) → bs = write a ++ rest

theorem take8_inverts : Inverts take8 fun b => [b] := by
  intro bs rest b h
  match bs, h with
  | _ :: _, h => cases h; rfl

theorem width4_setWidth {b : Byte} (hb : b.toNat < 16) : width4 (b.setWidth 4) = [b] := by
  have hback : (b.setWidth 4).setWidth 8 = b := by bv_omega
  rw [width4, hback]

theorem take4_inverts : Inverts take4 width4 := by
  intro bs rest w h
  match bs, h with
  | b :: bs, h =>
    simp only [take4] at h
    split at h
    case isTrue hb => cases h; rw [width4_setWidth hb]; rfl
    case isFalse => exact nomatch h

theorem toNat_le16 (lo hi : Byte) : (le16 lo hi).toNat = 256 * hi.toNat + lo.toNat := by
  have happend : (hi ++ lo).toNat = hi.toNat <<< 8 ||| lo.toNat := BitVec.toNat_append hi lo
  rw [le16, happend, ← Nat.shiftLeft_add_eq_or_of_lt lo.isLt, Nat.shiftLeft_eq, Nat.mul_comm]

theorem lo8_le16 (lo hi : Byte) : lo8 (le16 lo hi) = lo := BitVec.setWidth_append_eq_right

theorem hi8_le16 (lo hi : Byte) : hi8 (le16 lo hi) = hi := by
  apply BitVec.eq_of_toNat_eq
  simp only [hi8, BitVec.toNat_setWidth, BitVec.toNat_ushiftRight, toNat_le16, Nat.shiftRight_eq_div_pow]
  omega

theorem take16_inverts : Inverts take16 dim16 := by
  intro bs rest v h
  match bs, h with
  | lo :: hi :: bs, h => cases h; rw [dim16, lo8_le16, hi8_le16]; rfl

/-- With the top nibble zero, nothing is lost in 12 bits. -/
theorem code12_le16 (lo : Byte) {hi : Byte} (hhi : hi.toNat < 16) :
    code12 ((le16 lo hi).setWidth 12) = [lo, hi] := by
  have hlow : ((le16 lo hi).setWidth 12).setWidth 8 = lo := by
    rw [BitVec.setWidth_setWidth_of_le _ (by decide)]
    exact lo8_le16 lo hi
  have hhigh : ((le16 lo hi).setWidth 12 >>> 8).setWidth 8 = hi := by
    apply BitVec.eq_of_toNat_eq
    simp only [BitVec.toNat_setWidth, BitVec.toNat_ushiftRight, toNat_le16, Nat.shiftRight_eq_div_pow]
    omega
  rw [code12, hlow, hhigh]

theorem take12_inverts : Inverts take12 code12 := by
  intro bs rest c h
  match bs, h with
  | lo :: hi :: bs, h =>
    simp only [take12] at h
    split at h
    case isTrue hhi => cases h; rw [code12_le16 lo hhi]; rfl
    case isFalse => exact nomatch h

theorem takeBytes_inverts : Inverts takeBytes bytesSeq := by
  intro bs rest items h
  fun_induction takeBytes bs generalizing rest items with
  | case2 => cases h; rfl
  | case3 b more items left hmore _ ih => cases h; rw [ih hmore]; rfl
  | case1 | case4 | case5 | case6 => exact nomatch h

theorem takeRgbs_inverts : Inverts takeRgbs rgbSeq := by
  intro bs rest items h
  fun_induction takeRgbs bs generalizing rest items with
  | case2 => cases h; rfl
  | case3 r g b more items left hmore _ ih => cases h; rw [ih hmore]; rfl
  | case1 | case4 | case5 | case6 => exact nomatch h

theorem flatMap_bytes_triples :
    ∀ {n : Nat} {bs : List Byte}, bs.length = 3 * n → (triples bs).flatMap RGB.bytes = bs
  | 0, [], _ => rfl
  | n + 1, r :: g :: b :: more, h => by
    rw [triples, List.flatMap_cons, flatMap_bytes_triples (n := n) (by simpa [Nat.mul_succ] using h)]
    rfl

/-! ### The readers of instructions take words -/

/-- The bytes are the word of a well-formed instruction on that port, with the rest behind it. -/
def IsWord (p : Port) (bytes : List Byte) (i : Instr) (rest : List Byte) : Prop :=
  i.wellFormed = true ∧ (encode i).1 = p ∧ bytes = (encode i).2 ++ rest

theorem isWord_of_encode {word : List Byte} (he : encode i = (p, word)) (hw : i.wellFormed = true) :
    IsWord p (word ++ rest) i rest := by
  simp only [IsWord, he, hw, and_self]

theorem operand_eq_ok {take : List Byte → Take α} {mk : α → Instr} (h : operand take mk bs = .ok (i, rest)) :
    ∃ a, take bs = .ok (a, rest) ∧ mk a = i := by
  unfold operand at h
  split at h
  case h_1 a left htake => cases h; exact ⟨a, htake, rfl⟩
  case h_2 => exact nomatch h

theorem operand2_eq_ok {takeA : List Byte → Take α} {takeB : List Byte → Take β} {mk : α → β → Instr}
    (h : operand2 takeA takeB mk bs = .ok (i, rest)) :
    ∃ a b left, takeA bs = .ok (a, left) ∧ takeB left = .ok (b, rest) ∧ mk a b = i := by
  unfold operand2 at h
  split at h
  case h_1 a left htakeA =>
    obtain ⟨b, htakeB, hi⟩ := operand_eq_ok h
    exact ⟨a, b, left, htakeA, htakeB, hi⟩
  case h_2 => exact nomatch h

theorem takeN_eq_ok {n : Nat} {mk : List Byte → Instr} (h : takeN n mk bs = .ok (i, rest)) :
    ∃ v, v.length = n ∧ bs = v ++ rest ∧ mk v = i := by
  unfold takeN at h
  split at h
  case isTrue => exact nomatch h
  case isFalse hlen =>
    cases h
    exact ⟨bs.take n, List.length_take_of_le (Nat.le_of_not_lt hlen), (List.take_append_drop n bs).symm, rfl⟩

theorem operand_isWord {take : List Byte → Take α} {write : α → List Byte} {mk : α → Instr}
    (h : operand take mk bs = .ok (i, rest)) (ht : Inverts take write)
    (he : ∀ a, encode (mk a) = (p, pre ++ write a)) (hw : ∀ a, (mk a).wellFormed = true) :
    IsWord p (pre ++ bs) i rest := by
  obtain ⟨a, htake, rfl⟩ := operand_eq_ok h
  rw [ht htake, ← List.append_assoc]
  exact isWord_of_encode (he a) (hw a)

theorem operand2_isWord {takeA : List Byte → Take α} {takeB : List Byte → Take β} {writeA : α → List Byte}
    {writeB : β → List Byte} {mk : α → β → Instr} (h : operand2 takeA takeB mk bs = .ok (i, rest))
    (hA : Inverts takeA writeA) (hB : Inverts takeB writeB)
    (he : ∀ a b, encode (mk a b) = (p, pre ++ (writeA a ++ writeB b))) (hw : ∀ a b, (mk a b).wellFormed = true) :
    IsWord p (pre ++ bs) i rest := by
  obtain ⟨a, b, left, htakeA, htakeB, rfl⟩ := operand2_eq_ok h
  rw [hA htakeA, hB htakeB, ← List.append_assoc, ← List.append_assoc, List.append_assoc pre]
  exact isWord_of_encode (he a b) (hw a b)

/-! ### Operations (30_encoding.md R118) -/

/-- The select code, from the number the decoder tests. -/
theorem select_eq {op : Byte} {n : Nat} (hop : op.toNat = n) : op = BitVec.ofNat 8 n := by
  rw [← hop, BitVec.ofNat_toNat, BitVec.setWidth_eq]

/-- An operation with no operand. -/
theorem bareOp_isWord {op : Byte} {n : Nat} (hop : op.toNat = n) (h : (.ok (i₀, bs) : Take Instr) = .ok (i, rest))
    (he : encode i₀ = (.op, [BitVec.ofNat 8 n])) (hw : i₀.wellFormed = true) : IsWord .op (op :: bs) i rest := by
  cases h
  rw [select_eq hop]
  exact isWord_of_encode he hw

/-- An operation with one operand. -/
theorem operandOp_isWord {op : Byte} {n : Nat} {take : List Byte → Take α} {write : α → List Byte} {mk : α → Instr}
    (hop : op.toNat = n) (h : operand take mk bs = .ok (i, rest)) (ht : Inverts take write)
    (he : ∀ a, encode (mk a) = (.op, BitVec.ofNat 8 n :: write a)) (hw : ∀ a, (mk a).wellFormed = true) :
    IsWord .op (op :: bs) i rest := by
  rw [select_eq hop]
  exact operand_isWord (pre := [_]) h ht he hw

theorem decodeOp_isWord (h : decodeOp bytes = .ok (i, rest)) : IsWord .op bytes i rest := by
  match bytes, h with
  | op :: bs, h =>
    simp only [decodeOp] at h
    split at h <;> rename_i hop
    · exact bareOp_isWord (i₀ := .ctlPause) hop h rfl rfl
    · exact bareOp_isWord (i₀ := .ctlResume) hop h rfl rfl
    · exact bareOp_isWord (i₀ := .ctlCancel) hop h rfl rfl
    · exact bareOp_isWord (i₀ := .encInit) hop h rfl rfl
    · exact operandOp_isWord (mk := .encSym) hop h take8_inverts (fun _ => rfl) fun _ => rfl
    · exact bareOp_isWord (i₀ := .encEnd) hop h rfl rfl
    · exact bareOp_isWord (i₀ := .decInit) hop h rfl rfl
    · exact operandOp_isWord (mk := .decCode) hop h take12_inverts (fun _ => rfl) fun _ => rfl
    · exact bareOp_isWord (i₀ := .decEos) hop h rfl rfl
    · exact bareOp_isWord (i₀ := .pckInit) hop h rfl rfl
    · rw [select_eq hop]
      exact operand2_isWord (mk := .pckPush) (pre := [0x31]) h take12_inverts take4_inverts (fun _ _ => rfl)
        fun _ _ => rfl
    · exact bareOp_isWord (i₀ := .pckFlush) hop h rfl rfl
    · exact bareOp_isWord (i₀ := .unpInit) hop h rfl rfl
    · exact operandOp_isWord (mk := .unpFeed) hop h take8_inverts (fun _ => rfl) fun _ => rfl
    · exact operandOp_isWord (mk := .unpPull) hop h take4_inverts (fun _ => rfl) fun _ => rfl
    · exact bareOp_isWord (i₀ := .serRun) hop h rfl rfl
    · exact operandOp_isWord (mk := .parRun) hop h takeBytes_inverts (fun _ => rfl) fun _ => rfl
    · rw [select_eq hop]
      split at h
      case h_2 => exact nomatch h
      case h_1 iw afterIw hiw =>
        split at h
        case h_2 => exact nomatch h
        case h_1 ih afterIh hih =>
          rw [take16_inverts hiw, take16_inverts hih, ← List.append_assoc]
          exact operand2_isWord (mk := .runEncode iw ih) (pre := 0x70 :: (dim16 iw ++ dim16 ih)) h takeRgbs_inverts
            takeBytes_inverts (fun pal x => by simp [encode]) fun _ _ => rfl
    · exact operandOp_isWord (mk := .runDecode) hop h takeBytes_inverts (fun _ => rfl) fun _ => rfl
    · exact nomatch h

/-! ### Code words (30_encoding.md R91) -/

/-- The classes partition the codes, and each writes the code it was read from. -/
theorem encode_decodeCode (c : Code) :
    encode (decodeCode c) = (.codeIn, code12 c) ∧ (decodeCode c).wellFormed = true := by
  unfold decodeCode
  split_ifs with hclear hend hroot
  · rw [hclear]; exact ⟨rfl, rfl⟩
  · rw [hend]; exact ⟨rfl, rfl⟩
  · have hback : (c.setWidth 8).setWidth 12 = c := by bv_omega
    rw [encode, hback]
    exact ⟨rfl, rfl⟩
  · have hdyn : 258 ≤ c.toNat := by
      simp only [Config.clear, Config.endCode] at hclear hend
      bv_omega
    exact ⟨rfl, decide_eq_true hdyn⟩

theorem decode_codeIn_isWord (h : decode .codeIn bytes = .ok (i, rest)) : IsWord .codeIn bytes i rest :=
  operand_isWord (pre := []) h take12_inverts (fun c => (encode_decodeCode c).1) fun c => (encode_decodeCode c).2

/-! ### Fields of the container (20_memory.md R69) -/

theorem fixedField_isWord {want : List Byte} (h : fixedField want i₀ bs = .ok (i, rest)) (he : encode i₀ = (p, want))
    (hw : i₀.wellFormed = true) : IsWord p bs i rest := by
  unfold fixedField at h
  split_ifs at h with hlen hval
  cases h
  have hsplit : bs = want ++ bs.drop want.length := by
    conv => lhs; rw [← List.take_append_drop want.length bs, hval]
  rw [hsplit, List.drop_left]
  exact isWord_of_encode he hw

/-- A colour table of 768 bytes is 256 entries (30_encoding.md R99). -/
theorem colourTable_isWord (h : takeN 768 (fun bs => .contGct (triples bs)) bs = .ok (i, rest)) :
    IsWord (.contIn .gct) bs i rest := by
  obtain ⟨v, hlen, rfl, rfl⟩ := takeN_eq_ok h
  have htable : encode (.contGct (triples v)) = (.contIn .gct, v) := by
    rw [encode, flatMap_bytes_triples (n := 256) hlen]
  have hentries : (triples v).length = 256 := Machine.length_triples 256 v hlen
  exact isWord_of_encode htable (by rw [Instr.wellFormed, hentries]; rfl)

/-- A length byte other than 0 is 1 to 255 (30_encoding.md R101). -/
theorem subBlock_isWord {n : Byte} (hn : n ≠ 0) (h : takeN n.toNat .contSubblock bs = .ok (i, rest)) :
    IsWord (.contIn .blocks) (n :: bs) i rest := by
  obtain ⟨v, hlen, rfl, rfl⟩ := takeN_eq_ok h
  have hblock : encode (.contSubblock v) = (.contIn .blocks, n :: v) := by rw [encode, ← select_eq hlen.symm]
  have hlegal : 1 ≤ v.length ∧ v.length ≤ Config.subblockMax := by
    simp only [Config.subblockMax]
    bv_omega
  exact isWord_of_encode hblock (by simpa only [Instr.wellFormed, Bool.and_eq_true, decide_eq_true_eq] using hlegal)

theorem decodeField_blocks_isWord (h : decodeField .blocks bytes = .ok (i, rest)) :
    IsWord (.contIn .blocks) bytes i rest := by
  match bytes, h with
  | n :: bs, h =>
    simp only [decodeField] at h
    split at h
    case isTrue hn => cases h; rw [hn]; exact isWord_of_encode (i := .contTerm) rfl rfl
    case isFalse hn => exact subBlock_isWord hn h

theorem decodeField_isWord {f : ContField} (h : decodeField f bytes = .ok (i, rest)) :
    IsWord (.contIn f) bytes i rest := by
  cases f with
  | lsw | lsh | iw | ih => exact operand_isWord (pre := []) h take16_inverts (fun _ => rfl) fun _ => rfl
  | gct => exact colourTable_isWord h
  | blocks => exact decodeField_blocks_isWord h
  | sig | sflags | bg | aspect | sep | left | top | iflags | mincode | trailer => exact fixedField_isWord h rfl rfl

/-- Settles O57: port by port, what a reader accepts is what the encoder writes. -/
theorem acceptedWordsAreEncodings : Obligations.AcceptedWordsAreEncodings := by
  intro p bytes rest i h
  cases p with
  | op => exact decodeOp_isWord h
  | codeIn => exact decode_codeIn_isWord h
  | contIn f => exact decodeField_isWord h

/-- Settles O55: each word is read by computation. -/
theorem specWordsDecode : Obligations.SpecWordsDecode :=
  ⟨rfl, rfl, rfl, rfl, rfl, rfl, rfl, rfl, rfl, rfl, rfl, rfl⟩

end Sys2Proof

namespace Sys2Proof.Machine

variable {s : State} {bytes : List Byte} {why : Reject}

/-! ### Code words -/

/-- Settles O21: the decoder of words and `DEC.CODE` test the same classes in the same order. -/
theorem codeWordsActAsTheirDecCode : Obligations.CodeWordsActAsTheirDecCode := by
  intro s c
  show exec (decodeCode c) s = whenEnabled [running s, decOpen s] (decEffect (decCode c s.dec) s)
  unfold decodeCode decCode
  split_ifs with hclear hend hroot
  · exact (rfl : exec .codeClear s = execCodeClear s)
  · exact (rfl : exec .codeEnd s = execCodeEnd s)
  · exact (rfl : exec (.codeRoot (c.setWidth 8)) s = execCodeRoot (c.setWidth 8) s)
  · exact (rfl : exec (.codeDyn c) s = execCodeDyn c s)

/-! ### Bytes that are no legal field -/

theorem stepCont_of_decode_error (hp : s.paused = false) (h : decode (.contIn s.par.next) bytes = .error why) :
    stepCont bytes s = .next (fieldIllegal bytes s) := by
  simp only [stepCont, h, running, hp, whenEnabled_cons, whenEnabled_nil, Bool.not_false, if_pos]

/-- At the signature the failing field is at 0, in the colour table it is the entry that is cut. -/
theorem fieldIllegal_eq (bytes : List Byte) (s : State) :
    fieldIllegal bytes s = s.setPar ⟨.fail, .decodeError,
      if s.par.next = .sig then 0
      else if s.par.next = .gct then s.par.pos + 3 * (bytes.length / 3) else s.par.pos, .sig, {}⟩ := by
  have hpos : (if s.par.next = .gct then fieldStart s + 3 * (bytes.length / 3) else fieldStart s) =
      if s.par.next = .sig then 0
      else if s.par.next = .gct then s.par.pos + 3 * (bytes.length / 3) else s.par.pos := by
    by_cases hsig : s.par.next = .sig
    · simp [fieldStart, hsig]
    · simp [fieldStart, hsig]
  rw [fieldIllegal, hpos]
  rfl

/-- Settles O53: the item leaves the queue, its bytes do not decode, and the parse fails at the failing field. -/
theorem illegalFieldsRaiseDecodeError : Obligations.IllegalFieldsRaiseDecodeError := by
  intro s bytes q why hp hq hd
  calc step s = stepCont bytes (s.setInq q) := step_of_inq_cons hq
    _ = .next (fieldIllegal bytes (s.setInq q)) := stepCont_of_decode_error hp hd
    _ = _ := congrArg _ (fieldIllegal_eq bytes (s.setInq q))

end Sys2Proof.Machine
end

section
/-! PROOFS. The encoder operation by operation (40_encoder.md R131 to R138), and its run on a whole input (R143). -/

namespace Sys2Proof.Machine

variable {s : State} {e : Enc} {k : Byte} {c : Code}

/-! ### The operations of ENC where they are enabled -/

theorem exec_encInit (hp : s.paused = false) : exec .encInit s = .next (s.setEnc encStart) :=
  execEncInit_next.2 ⟨hp, rfl⟩

theorem exec_encSym (hp : s.paused = false) (ho : s.enc.phase = .first ∨ s.enc.phase = .run) (k : Byte) :
    exec (.encSym k) s = .next (encEffect (encSymbol k s.enc) s).1 :=
  execEncSym_next.2 ⟨hp, ho, rfl⟩

theorem exec_encEnd (hp : s.paused = false) (ho : s.enc.phase = .first ∨ s.enc.phase = .run) :
    exec .encEnd s = .next (encEffect (encFinish s.enc) s).1 :=
  execEncEnd_next.2 ⟨hp, ho, rfl⟩

/-! ### What a symbol and the end of the input do, by phase and dictionary -/

theorem encSymbol_first (h : e.phase = .first) (k : Byte) :
    encSymbol k e = .ok ({ e with w := [k], phase := .run }, [⟨256, e.width⟩]) := by
  simp only [encSymbol, h]; rfl

theorem encSymbol_hit (h : e.phase = .run) (hk : encHas e.dict (e.w ++ [k]) = true) :
    encSymbol k e = .ok ({ e with w := e.w ++ [k] }, []) := by
  simp only [encSymbol, h, hk, if_true]

theorem encSymbol_miss (h : e.phase = .run) (hk : encHas e.dict (e.w ++ [k]) = false) :
    encSymbol k e = encMiss k e := by
  simp only [encSymbol, h, hk, Bool.false_eq_true, if_false]

theorem encFinish_first (h : e.phase = .first) : encFinish e = .error .invalidInput := by
  simp only [encFinish, h]

theorem encFinish_run (h : e.phase = .run) :
    encFinish e = .ok ({ e with phase := .done }, [⟨encCode e.dict e.w, e.width⟩, ⟨257, e.width⟩]) := by
  simp only [encFinish, h]; rfl

theorem encCode_of_lookup {d : EncDict} {p : Phrase} (h : encLookup d p = some c) : encCode d p = c := by
  rw [encCode, h, Option.getD_some]

theorem dictFull_true {n : NextCode} (h : 4096 ≤ n.toNat) : dictFull n = true := decide_eq_true h

theorem encMiss_full (h : 4096 ≤ e.next.toNat) : encMiss k e = .error .dictionaryOverflow :=
  if_pos (dictFull_true h)

/-- The width after a miss is grown by the number of the next code (R135). -/
theorem encAssign_width (h : e.next.toNat ≤ 4095) (k : Byte) :
    (encAssign k e).width = growWidth (e.next.toNat + 1) e.width :=
  congrArg (growWidth · e.width) (next_succ h)

theorem encAssign_next_toNat (h : e.next.toNat ≤ 4095) (k : Byte) :
    (encAssign k e).next.toNat = e.next.toNat + 1 := next_succ h

/-- Resetting the dictionary keeps the phase, and emits no code but CLEAR (R136). -/
theorem encReset_phase (e : Enc) : (encReset e).1.phase = e.phase := by
  unfold encReset; split <;> rfl

theorem encReset_emits_clear {p : Pair} (hp : p ∈ (encReset e).2) : p.code = 256 := by
  by_cases h : e.next.toNat = 4096
  · rw [encReset_full h] at hp
    rw [List.mem_singleton.1 hp]
  · rw [encReset_not_full h] at hp
    exact absurd hp List.not_mem_nil

/-! ### The starting values and the single operations -/

/-- Settles O5: each INIT is enabled in every phase. -/
theorem initStartsARun : Obligations.InitStartsARun := by
  intro s hp
  exact ⟨exec_encInit hp, execDecInit_next.2 ⟨hp, rfl⟩, execPckInit_next.2 ⟨hp, rfl⟩, execUnpInit_next.2 ⟨hp, rfl⟩⟩

/-- Settles O7: in `FIRST` a sound encoder still has the width of the start. -/
theorem firstSymbolEmitsClear : Obligations.FirstSymbolEmitsClear := by
  intro s k hp hfirst
  refine ⟨⟨[k], rfl⟩, ?_, fun hs => ?_⟩
  · rw [exec_encSym hp (.inl hfirst), encSymbol_first hfirst]; rfl
  · obtain ⟨-, hwidth, -⟩ := hs.first hfirst
    exact hwidth

/-- Settles O8: a hit emits no pair, so the port keeps what it holds. -/
theorem hitExtendsThePhrase : Obligations.HitExtendsThePhrase := by
  intro s k hp hrun hhit
  rw [exec_encSym hp (.inr hrun), encSymbol_hit hrun hhit, encEffect_ok, List.append_nil]
  rfl

/-- Settles O9, by whether the insertion fills the dictionary. -/
theorem missEmitsAndInserts : Obligations.MissEmitsAndInserts := by
  intro s k c hp hrun hmiss hc hle n grown
  have hnext : (encAssign k s.enc).next.toNat = n := encAssign_next_toNat hle k
  have hgrown : (encAssign k s.enc).width = grown := encAssign_width hle k
  rw [exec_encSym hp (.inr hrun), encSymbol_miss hrun hmiss, encMiss_eq k hle, encCode_of_lookup hc]
  by_cases hfull : n = 4096
  · rw [encReset_full (hnext.trans hfull), hgrown]
    simp only [if_pos hfull]
    rfl
  · have hn : (encAssign k s.enc).next = BitVec.ofNat 13 n := by rw [← hnext, BitVec.ofNat_toNat, BitVec.setWidth_eq]
    rw [encReset_not_full (hnext.trans_ne hfull)]
    simp only [if_neg hfull, ← hn, ← hgrown, BitVec.ofNat_toNat]
    rfl

/-- `ENC.END` behind a symbol ends the run. -/
theorem exec_encEnd_run (hp : s.paused = false) (hrun : s.enc.phase = .run) :
    exec .encEnd s = .next (s.setEnc { s.enc with
      phase := .done
      out := s.enc.out ++ [⟨encCode s.enc.dict s.enc.w, s.enc.width⟩, ⟨257, s.enc.width⟩] }) := by
  rw [exec_encEnd hp (.inr hrun), encFinish_run hrun, encEffect_ok]

/-- Settles O11: the pending phrase is present, so its code is the one looked up. -/
theorem endEmitsPendingPhraseAndEnd : Obligations.EndEmitsPendingPhraseAndEnd := by
  intro s c hp hrun hc
  refine ⟨⟨[], rfl⟩, ?_⟩
  rw [exec_encEnd_run hp hrun, encCode_of_lookup hc]
  rfl

/-- The end of an input of which no symbol came raises the error. -/
theorem exec_encEnd_first (hp : s.paused = false) (hfirst : s.enc.phase = .first) :
    exec .encEnd s = .next (raise .enc .invalidInput s) := by
  rw [exec_encEnd hp (.inl hfirst), encFinish_first hfirst, encEffect_error]

/-- Settles O12: the run of the empty input is `ENC.END` on the unit that `ENC.INIT` leaves. -/
theorem endOfEmptyInputRaisesInvalidInput : Obligations.EndOfEmptyInputRaisesInvalidInput := by
  refine ⟨fun s hp hfirst => ⟨exec_encEnd_first hp hfirst, fun hs => ?_⟩, fun s hp => ?_⟩
  · obtain ⟨-, -, -, -, hout⟩ := hs.first hfirst
    exact hout
  · have hend : exec .encEnd (s.setEnc encStart) = .next (raise .enc .invalidInput (s.setEnc encStart)) :=
      exec_encEnd_first hp rfl
    refine ⟨raise .enc .invalidInput (s.setEnc encStart), ?_, rfl, rfl, rfl⟩
    show runAll [.encInit, .encEnd] s = _
    rw [runAll_cons, exec_encInit hp, follow_next, runAll_cons, hend, follow_next, runAll_nil]

/-! ### The full dictionary -/

/-- A data code in `RUN` is looked up by its number, whichever class it is of (41_decoder.md R158). -/
theorem decCode_of_data {d : Dec} (h : d.phase = .run) (hclear : c ≠ 256) (hend : c ≠ 257) :
    decCode c d = decData c d := by
  rw [decCode, if_neg (show c ≠ Config.clear from hclear), if_neg (show c ≠ Config.endCode from hend)]
  split_ifs with hroot
  · have hback : (c.setWidth 8).setWidth 12 = c := by bv_omega
    simp only [decRoot, h, hback]
  · simp only [decDyn, h]

/-- With every code taken each data code is present. -/
theorem decHas_of_full {n : NextCode} (h : 4096 ≤ n.toNat) (hclear : c ≠ 256) (hend : c ≠ 257) :
    decHas n c = true := by
  simp only [decHas, Bool.or_eq_true, Bool.and_eq_true, decide_eq_true_eq]
  bv_omega

theorem decTail_full {d : Dec} (p : Phrase) (h : 4096 ≤ d.next.toNat) : decTail p d = .error .dictionaryOverflow :=
  if_pos (dictFull_true h)

/-- Settles O10: with the next code at 4096 a data code of DEC is present, so both units reach their insertion. -/
theorem fullDictionaryRaisesOverflow : Obligations.FullDictionaryRaisesOverflow := by
  constructor
  · intro s k hp hrun hmiss hfull
    rw [exec_encSym hp (.inr hrun), encSymbol_miss hrun hmiss, encMiss_full hfull]
    rfl
  · intro s c hp hrun hclear hend hfull
    have hraise : decCode c s.dec = .error .dictionaryOverflow := by
      rw [decCode_of_data hrun hclear hend, decData, if_pos (decHas_of_full hfull hclear hend), decTail_full _ hfull]
    refine execDecCode_next.2 ⟨hp, .inr (.inr hrun), ?_⟩
    rw [hraise]
    rfl

/-! ### The run on a whole input -/

theorem EncSound.err_none (h : EncSound e) (hp : e.phase ≠ .fail) : e.err = .none := by
  by_contra hc; exact hp (h.err.2 hc)

/-- The pending phrase has the code of a root or of an entry, never END's (R141). -/
theorem EncRunning.code_ne_end (h : EncRunning e) : encCode e.dict e.w ≠ 257 := by
  obtain ⟨c, hc⟩ := Option.isSome_iff_exists.1 h.key
  rw [encCode_of_lookup hc]
  by_cases hone : e.w.length = 1
  · obtain ⟨k, hk⟩ := List.length_eq_one_iff.1 hone
    rw [hk, encLookup_single] at hc
    have hroot : k.setWidth 12 = c := Option.some.inj hc
    bv_omega
  · rw [encLookup_long _ hone] at hc
    have hdyn : c.toNat ∈ dynCodes e.next.toNat := h.codes ▸ List.mem_map.2 ⟨_, encFind_mem hc, rfl⟩
    have hlow : 258 ≤ c.toNat := (mem_dynCodes.1 hdyn).1
    bv_omega

/-- A symbol in `RUN` leaves the encoder in `RUN` and emits no END. -/
theorem encSymbol_run (h : e.phase = .run) (hr : EncRunning e) (k : Byte) :
    ∃ (f : Enc) (ps : List Pair), encSymbol k e = .ok (f, ps) ∧ f.phase = .run ∧ ∀ p ∈ ps, p.code ≠ 257 := by
  cases hk : encHas e.dict (e.w ++ [k])
  case true => exact ⟨_, _, encSymbol_hit h hk, h, by simp⟩
  case false =>
    refine ⟨_, _, (encSymbol_miss h hk).trans (encMiss_eq k hr.high), (encReset_phase _).trans h, fun p hp => ?_⟩
    rcases List.mem_cons.1 hp with rfl | hp
    · exact hr.code_ne_end
    · rw [encReset_emits_clear hp]; decide

/-- ENC within a run, at least one symbol taken: what stands on `ENC_OUT` is the leading CLEAR and pairs without END. -/
structure EncStreaming (e : Enc) : Prop where
  sound : EncSound e
  phase : e.phase = .run
  out   : ∃ body, e.out = ⟨256, 9⟩ :: body ∧ ∀ p ∈ body, p.code ≠ 257

/-- The first symbol of a run (R132). -/
theorem exec_encSym_start (hp : s.paused = false) (he : s.enc = encStart) (k : Byte) :
    ∃ e, exec (.encSym k) s = .next (s.setEnc e) ∧ EncStreaming e := by
  have hfirst : s.enc.phase = .first := by rw [he]; rfl
  have hsound := (encSymbol_sound (s := s) (he ▸ encStart_sound) k).1
  rw [exec_encSym hp (.inl hfirst)]
  rw [encSymbol_first hfirst, encEffect_ok] at hsound ⊢
  exact ⟨_, rfl, hsound, rfl, [], by rw [he]; rfl, by simp⟩

/-- A further symbol of a run. -/
theorem exec_encSym_streaming (hp : s.paused = false) (h : EncStreaming s.enc) (k : Byte) :
    ∃ e, exec (.encSym k) s = .next (s.setEnc e) ∧ EncStreaming e := by
  obtain ⟨hsound, hrun, body, hout, hbody⟩ := h
  obtain ⟨f, ps, hsym, hf, hps⟩ := encSymbol_run hrun (hsound.run hrun) k
  have hsound' := (encSymbol_sound hsound k).1
  rw [exec_encSym hp (.inr hrun)]
  rw [hsym, encEffect_ok] at hsound' ⊢
  refine ⟨_, rfl, hsound', hf, body ++ ps, ?_, fun p hmem => ?_⟩
  · rw [hout]; rfl
  · exact (List.mem_append.1 hmem).elim (hbody p) (hps p)

theorem runAll_encSym (x : List Byte) (hp : s.paused = false) (h : EncStreaming s.enc) :
    ∃ e, runAll (x.map .encSym) s = .next (s.setEnc e) ∧ EncStreaming e := by
  induction x generalizing s with
  | nil => exact ⟨s.enc, rfl, h⟩
  | cons k x ih =>
    obtain ⟨e, hexec, he⟩ := exec_encSym_streaming hp h k
    obtain ⟨f, hrun, hf⟩ := ih (s := s.setEnc e) hp he
    exact ⟨f, by rw [List.map_cons, runAll_cons, hexec, follow_next, hrun]; rfl, hf⟩

/-- A run on a non-empty input is in the stream when its symbols are taken. -/
theorem runAll_encInit_encSym (k : Byte) (x : List Byte) (hp : s.paused = false) :
    ∃ e, runAll (.encInit :: (k :: x).map .encSym) s = .next (s.setEnc e) ∧ EncStreaming e := by
  obtain ⟨e, hfirst, he⟩ := exec_encSym_start (s := s.setEnc encStart) hp rfl k
  obtain ⟨f, hrest, hf⟩ := runAll_encSym (s := s.setEnc e) x hp he
  refine ⟨f, ?_, hf⟩
  rw [runAll_cons, exec_encInit hp, follow_next, List.map_cons, runAll_cons, hfirst, follow_next]
  exact hrest

/-- A run on a non-empty input ends in `ENC.END` on a unit in the stream. -/
theorem encRun_cons (k : Byte) (x : List Byte) (hp : s.paused = false) :
    ∃ e, EncStreaming e ∧ encRun (k :: x) s = .next (s.setEnc { e with
      phase := .done, out := e.out ++ [⟨encCode e.dict e.w, e.width⟩, ⟨257, e.width⟩] }) := by
  obtain ⟨e, hsyms, he⟩ := runAll_encInit_encSym k x hp
  have hend := exec_encEnd_run (s := s.setEnc e) hp he.phase
  refine ⟨e, he, ?_⟩
  rw [encRun, ← List.cons_append, runAll_append, hsyms, follow_next, runAll_cons, hend, follow_next, runAll_nil]
  rfl

/-- Settles O13: the symbols keep ENC in the stream, and `ENC.END` adds the pending phrase and END at one width. -/
theorem encodedStreamBeginsWithClearEndsWithEnd : Obligations.EncodedStreamBeginsWithClearEndsWithEnd := by
  intro s x hp hx
  obtain ⟨k, x, rfl⟩ := List.exists_cons_of_ne_nil hx
  obtain ⟨e, ⟨hsound, hphase, body, hout, hbody⟩, hrun⟩ := encRun_cons k x hp
  have hr := hsound.run hphase
  refine ⟨_, hrun, rfl, rfl, hsound.err_none (by simp [hphase]), body ++ [⟨encCode e.dict e.w, e.width⟩], e.width,
    by simp [hout], by simp, fun p hmem => ?_, by simp, rfl⟩
  rcases List.mem_append.1 hmem with hmem | hmem
  · exact ⟨hbody p hmem, hsound.fits p (hout ▸ List.mem_cons_of_mem _ hmem)⟩
  · rw [List.mem_singleton.1 hmem]
    exact ⟨hr.code_ne_end, hr.code_fits⟩

end Sys2Proof.Machine
end

section
/-! PROOFS. The decoder operation by operation (41_decoder.md R152 to R167), and its runs over a list of codes. -/

namespace Sys2Proof.Machine

variable {s : State} {d : Dec} {c : Code} {x : Err} {codes : List Code}

/-! ### The operations of DEC where they are enabled -/

theorem exec_decInit (hp : s.paused = false) : exec .decInit s = .next (s.setDec decStart) :=
  execDecInit_next.2 ⟨hp, rfl⟩

theorem exec_decCode_ok (hp : s.paused = false) (ha : DecAwaits s) (h : decCode c s.dec = .ok d) :
    exec (.decCode c) s = .next (s.setDec d) :=
  execDecCode_next.2 ⟨hp, ha, by rw [h, decEffect_ok]⟩

theorem exec_decCode_error (hp : s.paused = false) (ha : DecAwaits s) (h : decCode c s.dec = .error x) :
    exec (.decCode c) s = .next (raise .dec x s) :=
  execDecCode_next.2 ⟨hp, ha, by rw [h, decEffect_error]⟩

theorem exec_decEos_error (hp : s.paused = false) (ha : DecAwaits s) (h : decEos s.dec = .error x) :
    exec .decEos s = .next (raise .dec x s) :=
  execDecEos_next.2 ⟨hp, ha, by rw [h, decEffect_error]⟩

/-- The code word of a dynamic code is its `DEC.CODE` (log 8). -/
theorem exec_codeDyn (hc : 258 ≤ c.toNat) (s : State) : exec (.codeDyn c) s = exec (.decCode c) s :=
  decodeCode_dyn hc ▸ codeWordsActAsTheirDecCode s c

/-- The code word of a root is its `DEC.CODE` (log 8). -/
theorem exec_codeRoot (k : Byte) (s : State) : exec (.codeRoot k) s = exec (.decCode (k.setWidth 12)) s :=
  decodeCode_root k ▸ codeWordsActAsTheirDecCode s (k.setWidth 12)

theorem setWidth_of_root (hc : c.toNat < 256) : (c.setWidth 8 : Byte).setWidth 12 = c := by bv_omega

/-! ### What a code does, by class and phase -/

theorem decCode_clear (d : Dec) : decCode 256 d = decClear d := rfl

theorem decCode_end (d : Dec) : decCode 257 d = decEnd d := rfl

/-- A root where a first data code is expected (R154). -/
theorem decCode_root_first (h : d.phase = .start ∨ d.phase = .first) (k : Byte) :
    decCode (k.setWidth 12) d = decFirst k d := by
  have hclear : (k.setWidth 12 : Code) ≠ Config.clear := by rw [Config.clear]; bv_omega
  have hend : (k.setWidth 12 : Code) ≠ Config.endCode := by rw [Config.endCode]; bv_omega
  have hroot : (k.setWidth 12 : Code).toNat < 256 := by bv_omega
  have hback : (k.setWidth 12 : Code).setWidth 8 = k := by bv_omega
  rw [decCode, if_neg hclear, if_neg hend, if_pos hroot, hback]
  rcases h with h | h <;> simp only [decRoot, h]

/-- A dynamic code where a first data code is expected (R155). -/
theorem decCode_dyn_first (h : d.phase = .start ∨ d.phase = .first) (hc : 258 ≤ c.toNat) :
    decCode c d = .error .decodeError := by
  have hclear : c ≠ Config.clear := by rw [Config.clear]; bv_omega
  have hend : c ≠ Config.endCode := by rw [Config.endCode]; bv_omega
  rw [decCode, if_neg hclear, if_neg hend, if_neg (by omega)]
  rcases h with h | h <;> simp only [decDyn, h]

theorem decHas_dyn {n : NextCode} (hc : 258 ≤ c.toNat) : decHas n c = decide (c.toNat < n.toNat) := by
  simp [decHas, hc, show ¬ c.toNat < 256 by omega]

/-- A code above the next one (R160). -/
theorem decCode_above (h : d.phase = .run) (hc : 258 ≤ c.toNat) (habove : d.next.toNat < c.toNat) :
    decCode c d = .error .decodeError := by
  rw [decCode_of_data h (by bv_omega) (by bv_omega), decData, decHas_dyn hc, decide_eq_false (by omega),
    if_neg (by simp), if_neg (by omega)]

/-- `f :: q` is the phrase of the data code `c` in `RUN`: a root's (R158), an entry's (R158), or for the next code the
previous phrase with its own first symbol (R159). -/
def DecPhrase (d : Dec) (c : Code) (f : Byte) (q : Phrase) : Prop :=
  (c.toNat < 256 ∧ f = c.setWidth 8 ∧ q = []) ∨
  (258 ≤ c.toNat ∧ c.toNat < d.next.toNat ∧ decFind d.dict c = some (f :: q)) ∨
  (258 ≤ c.toNat ∧ c.toNat = d.next.toNat ∧ ∃ r, d.prev = f :: r ∧ q = r ++ [f])

/-- A data code with a phrase goes to the common tail with it (R158, R159, R164). -/
theorem decCode_of_phrase {f : Byte} {q : Phrase} (h : d.phase = .run) (hc : DecPhrase d c f q) :
    decCode c d = decTail (f :: q) d := by
  rcases hc with ⟨hroot, rfl, rfl⟩ | ⟨hlow, hnext, hfind⟩ | ⟨hlow, hnext, r, hprev, rfl⟩
  · rw [decCode_of_data h (by bv_omega) (by bv_omega), decData, if_pos (by simp [decHas, hroot]), decLookup_root _ hroot]
  · rw [decCode_of_data h (by bv_omega) (by bv_omega), decData, decHas_dyn hlow, if_pos (decide_eq_true hnext),
      decLookup, if_neg (by omega), hfind, Option.getD_some]
  · rw [decCode_of_data h (by bv_omega) (by bv_omega), decData, decHas_dyn hlow, decide_eq_false (by omega),
      if_neg (by simp), if_pos hnext, hprev]
    rfl

/-- The insertion that fills the dictionary is undone with all others (R165). -/
theorem decTail_last (f : Byte) (q : Phrase) (h : d.next.toNat = 4095) :
    decTail (f :: q) d = .ok { d with
      dict := decRoots
      trace := d.trace ++ [(d.next.setWidth 12, d.prev ++ [f])]
      next := 258
      width := 9
      idx := d.idx ++ f :: q
      prev := f :: q } := by
  have hfull : (decAssign (d.prev ++ [firstSymbol (f :: q)]) d).next.toNat = 4096 := (next_succ h.le).trans (by omega)
  rw [decTail_eq _ h.le, decReset_full hfull]
  rfl

/-- Any other insertion stays, and the width grows by the number after the next code's (R161, R162, R166). -/
theorem decTail_below (f : Byte) (q : Phrase) (h : d.next.toNat < 4095) :
    decTail (f :: q) d = .ok { d with
      dict := decInsert d.dict d.next (d.prev ++ [f])
      trace := d.trace ++ [(d.next.setWidth 12, d.prev ++ [f])]
      next := d.next + 1
      width := growWidth (d.next.toNat + 1 + 1) d.width
      idx := d.idx ++ f :: q
      prev := f :: q } := by
  have hnext := next_succ h.le
  have hroom : (decAssign (d.prev ++ [firstSymbol (f :: q)]) d).next.toNat ≠ 4096 := hnext.trans_ne (by omega)
  rw [decTail_eq _ h.le, decReset_not_full hroom, ← hnext]
  rfl

/-! ### The single operations -/

/-- Settles O14: CLEAR does the same in every phase that takes a code. -/
theorem clearStartsANewSegment : Obligations.ClearStartsANewSegment := by
  intro s hp ha
  exact ⟨exec_decCode_ok hp ha (decCode_clear s.dec), execCodeClear_next.2 ⟨hp, ha, rfl⟩⟩

/-- Settles O15: END does the same in every phase that takes a code. -/
theorem endCodeEndsTheRun : Obligations.EndCodeEndsTheRun := by
  intro s hp ha
  exact ⟨exec_decCode_ok hp ha (decCode_end s.dec), execCodeEnd_next.2 ⟨hp, ha, rfl⟩⟩

theorem decAwaits_of_first (h : s.dec.phase = .start ∨ s.dec.phase = .first) : DecAwaits s :=
  h.imp_right .inl

/-- Settles O16: a root is no CLEAR and no END. -/
theorem firstDataCodeIsOutput : Obligations.FirstDataCodeIsOutput := by
  intro s k hp hfirst
  exact exec_decCode_ok hp (decAwaits_of_first hfirst) (decCode_root_first hfirst k)

/-- Settles O19: a code above `D_NEXT` is absent and is not the next one. -/
theorem codeAboveNextRaisesDecodeError : Obligations.CodeAboveNextRaisesDecodeError := by
  intro s c hp hrun hc habove
  have hcode := exec_decCode_error hp (.inr (.inr hrun)) (decCode_above hrun hc habove)
  exact ⟨hcode, (exec_codeDyn hc s).trans hcode⟩

/-- Settles O18: whichever of the three the phrase is, the common tail does the rest; it resets by whether the insertion
fills the dictionary. -/
theorem dataCodeInsertsAndOutputs : Obligations.DataCodeInsertsAndOutputs := by
  intro s c f q hp hrun hle hphrase n entry code t
  have htail : decCode c s.dec = decTail (f :: q) s.dec := decCode_of_phrase hrun hphrase
  have hcode : exec (.decCode c) s = .next t := by
    by_cases hfull : n = 4096
    · rw [exec_decCode_ok hp (.inr (.inr hrun)) (htail.trans (decTail_last f q (by omega)))]
      simp only [t, if_pos hfull]
      rfl
    · have hn : BitVec.ofNat 13 n = s.dec.next + 1 := by
        rw [show n = (s.dec.next + 1).toNat from (next_succ hle).symm, BitVec.ofNat_toNat, BitVec.setWidth_eq]
      rw [exec_decCode_ok hp (.inr (.inr hrun)) (htail.trans (decTail_below f q (by omega)))]
      simp only [t, if_neg hfull, hn]
      rfl
  refine ⟨hcode, fun hroot => ?_, fun hdyn => (exec_codeDyn hdyn s).trans hcode⟩
  rw [exec_codeRoot, setWidth_of_root hroot, hcode]

/-! ### Runs over a list of codes -/

/-- `DecAwaits` of the unit alone. -/
def Dec.Awaits (d : Dec) : Prop := d.phase = .start ∨ d.phase = .first ∨ d.phase = .run

theorem decAwaits_iff : DecAwaits s ↔ s.dec.Awaits := Iff.rfl

theorem Dec.Awaits.ongoing (h : d.Awaits) : ¬ (d.phase = .done ∨ d.phase = .fail) := by
  rcases h with h | h | h <;> simp [h]

theorem decRun_eq (hp : s.paused = false) : decRun codes s = decCodes codes (s.setDec decStart) := by
  rw [decRun, exec_decInit hp, follow_next]

/-- A code that ends no run goes on with the codes behind it. -/
theorem decCodes_cons_ok (hp : s.paused = false) (ha : DecAwaits s) (h : decCode c s.dec = .ok d)
    (hd : d.Awaits) : decCodes (c :: codes) s = decCodes codes (s.setDec d) := by
  rw [decCodes, exec_decCode_ok hp ha h, follow_next]
  exact if_neg hd.ongoing

/-- END is the last code that is read. -/
theorem decCodes_cons_end (hp : s.paused = false) (ha : DecAwaits s) :
    decCodes (257 :: codes) s = .next (s.setDec { s.dec with phase := .done }) := by
  rw [decCodes, exec_decCode_ok hp ha (decCode_end s.dec), follow_next, if_pos (.inl rfl)]

/-- A code that raises is the last one that is read. -/
theorem decCodes_cons_error (hp : s.paused = false) (ha : DecAwaits s) (h : decCode c s.dec = .error x) :
    decCodes (c :: codes) s = .next (raise .dec x s) := by
  rw [decCodes, exec_decCode_error hp ha h, follow_next, if_pos (.inr rfl)]

/-- No code is left and there was no END. -/
theorem decCodes_nil (hp : s.paused = false) (ha : DecAwaits s) (h : decEos s.dec = .error x) :
    decCodes [] s = .next (raise .dec x s) :=
  exec_decEos_error hp ha h

theorem decEos_start (h : d.phase = .start) : decEos d = .error .invalidInput := by
  simp only [decEos, h]

theorem decEos_after_code (h : d.phase = .first ∨ d.phase = .run) : decEos d = .error .decodeError := by
  rcases h with h | h <;> simp only [decEos, h]

/-- DEC after a leading CLEAR (R152). -/
def decFresh : Dec := { decStart with phase := .first }

/-- A leading CLEAR of a run. -/
theorem decRun_clear (hp : s.paused = false) : decRun (256 :: codes) s = decCodes codes (s.setDec decFresh) := by
  rw [decRun_eq hp]
  exact decCodes_cons_ok hp (.inl rfl) (decCode_clear decStart) (.inr (.inl rfl))

/-- Settles O17: a sound decoder awaiting a first data code has the roots only, among which there is no such code. -/
theorem firstDataCodeAboveRootsRaisesDecodeError : Obligations.FirstDataCodeAboveRootsRaisesDecodeError := by
  intro s c hp hc
  refine ⟨fun hfirst => ?step, ?run⟩
  case step =>
    have hcode := exec_decCode_error hp (decAwaits_of_first hfirst) (decCode_dyn_first hfirst hc)
    refine ⟨hcode, (exec_codeDyn hc s).trans hcode, fun hsound => ?_⟩
    obtain ⟨hnext, -, hprev, -⟩ := hsound.fresh hfirst
    refine ⟨hnext, hprev, ?_⟩
    rw [hnext, decHas_dyn hc, decide_eq_false (by simpa using hc)]
  case run =>
    rintro codes (rfl | rfl)
    · refine ⟨raise .dec .decodeError (s.setDec decStart), ?_, rfl, rfl, rfl⟩
      rw [decRun_eq hp]
      exact decCodes_cons_error hp (.inl rfl) (decCode_dyn_first (.inl rfl) hc)
    · refine ⟨raise .dec .decodeError (s.setDec decFresh), ?_, rfl, rfl, rfl⟩
      rw [decRun_clear hp]
      exact decCodes_cons_error hp (.inr (.inl rfl)) (decCode_dyn_first (.inr rfl) hc)

/-- Settles O20: the phase tells whether there was a code. -/
theorem endOfSourceWithoutEndRaises : Obligations.EndOfSourceWithoutEndRaises := by
  intro s hp
  refine ⟨⟨[], rfl⟩, fun h => exec_decEos_error hp (.inl h) (decEos_start h),
    fun h => exec_decEos_error hp (.inr h) (decEos_after_code h), ?noCode, fun k => ?root, ?clear⟩
  case noCode =>
    refine ⟨raise .dec .invalidInput (s.setDec decStart), ?_, rfl, rfl⟩
    rw [decRun_eq hp]
    exact decCodes_nil hp (.inl rfl) (decEos_start rfl)
  case root =>
    refine ⟨raise .dec .decodeError (s.setDec { decFresh with idx := [k], prev := [k], phase := .run }), ?_, rfl, rfl⟩
    rw [decRun_clear hp]
    exact (decCodes_cons_ok (s := s.setDec decFresh) hp (.inr (.inl rfl)) (decCode_root_first (.inr rfl) k)
      (.inr (.inr rfl))).trans (decCodes_nil hp (.inr (.inr rfl)) (decEos_after_code (.inr rfl)))
  case clear =>
    refine ⟨raise .dec .decodeError (s.setDec decFresh), ?_, rfl, rfl⟩
    rw [decRun_clear hp]
    exact decCodes_nil hp (.inr (.inl rfl)) (decEos_after_code (.inl rfl))

end Sys2Proof.Machine
end

section
/-! PROOFS. The decoder undoes the encoder at the level of codes (41_decoder.md R170, R171), by a simulation: behind the
codes emitted so far DEC lacks the pending phrase, and with it the newest entry of the dictionary. -/

namespace Sys2Proof.Machine

variable {s : State} {e : Enc} {d d' : Dec} {c : Code} {codes : List Code} {y : List Byte}

/-! ### The two dictionaries -/

/-- Numbers differ, so an entry is the one that is found. -/
theorem decFind_of_mem {dict : DecDict} {p : Phrase} (h : (dict.map Prod.fst).Nodup) (hm : (c, p) ∈ dict) :
    decFind dict c = some p := by
  induction dict with
  | nil => exact absurd hm List.not_mem_nil
  | cons x dict ih =>
    obtain ⟨q, r⟩ := x
    obtain ⟨hq, hnodup⟩ := List.nodup_cons.1 h
    rcases List.mem_cons.1 hm with heq | hrest
    · cases heq
      exact if_pos rfl
    · have hne : q ≠ c := fun hqc => hq (List.mem_map.2 ⟨_, hrest, hqc.symm⟩)
      exact (if_neg hne).trans (ih hnodup hrest)

theorem DecRunning.nodup (h : DecRunning d) : (d.dict.map Prod.fst).Nodup := by
  have hcodes : ((d.dict.map Prod.fst).map BitVec.toNat).Nodup := by
    rw [List.map_map]
    exact h.codes ▸ List.nodup_reverse.2 List.nodup_range'
  exact hcodes.of_map _

theorem DecRunning.code_range {p : Phrase} (h : DecRunning d) (hm : (c, p) ∈ d.dict) :
    258 ≤ c.toNat ∧ c.toNat < d.next.toNat :=
  mem_dynCodes.1 (h.codes ▸ List.mem_map_of_mem (f := fun x => x.1.toNat) hm)

/-- A key with more than one symbol is an entry's. -/
theorem encLookup_mem {dict : EncDict} {p : Phrase} (h : encLookup dict p = some c) :
    (∃ k, p = [k] ∧ c = k.setWidth 12) ∨ (p, c) ∈ dict := by
  by_cases hone : p.length = 1
  · obtain ⟨k, rfl⟩ := List.length_eq_one_iff.1 hone
    exact .inl ⟨k, rfl, (Option.some.inj h).symm⟩
  · exact .inr (encFind_mem (encLookup_long dict hone ▸ h))

/-- The entries of the decoder as those of the encoder. -/
def Dec.entries (d : Dec) : EncDict := d.dict.map Prod.swap

/-! ### The simulation -/

/-- DEC has read every code of ENC but the pending phrase's. Behind a CLEAR both have the roots only; later ENC has one
entry more, the previous phrase with the first symbol of the pending one. -/
inductive DecBehind (e : Enc) (d : Dec) : Prop where
  | fresh (phase : d.phase = .first) (next : d.next = e.next) (enc : e.dict = []) (dec : d.dict = [])
  | entry (phase : d.phase = .run) (next : d.next + 1 = e.next)
      (dict : e.dict = encInsert d.entries (d.prev ++ [firstSymbol e.w]) d.next)

/-- DEC has read the pending phrase's code as well: the dictionaries are the same. -/
structure DecLevel (e : Enc) (d : Dec) : Prop where
  phase : d.phase = .run
  next  : d.next = e.next
  prev  : d.prev = e.w
  dict  : e.dict = d.entries

/-- What DEC takes the pending phrase's code for, when ENC is one entry ahead: a root, an entry, or the next code. -/
theorem decPhrase_pending {f : Byte} {q : Phrase} (hd : DecRunning d) (hc : encLookup e.dict (f :: q) = some c)
    (hdict : e.dict = encInsert d.entries (d.prev ++ [f]) d.next) : DecPhrase d c f q := by
  rcases encLookup_mem hc with ⟨k, hk, rfl⟩ | hmem
  · obtain ⟨rfl, rfl⟩ := List.cons.inj hk
    exact .inl ⟨by bv_omega, by bv_omega, rfl⟩
  rcases List.mem_cons.1 (hdict ▸ hmem) with hnew | hold
  · obtain ⟨hphrase, rfl⟩ := Prod.mk.inj hnew
    obtain ⟨a, r, hprev⟩ := List.exists_cons_of_ne_nil hd.prev
    obtain ⟨rfl, hq⟩ := List.cons.inj (hprev ▸ hphrase)
    have hlow := hd.low
    have hhigh := hd.high
    have hnext : (d.next.setWidth 12 : Code).toNat = d.next.toNat := by bv_omega
    exact .inr (.inr ⟨by omega, hnext, r, hprev, hq⟩)
  · have hentry : (c, f :: q) ∈ d.dict := (List.mem_map_swap _ _ _).1 hold
    obtain ⟨hlow, hnext⟩ := hd.code_range hentry
    exact .inr (.inl ⟨hlow, hnext, decFind_of_mem hd.nodup hentry⟩)

/-- The pending phrase's code makes DEC emit the phrase and brings it level with ENC (R154, R158, R159). -/
theorem DecBehind.decCode_pending (he : EncRunning e) (hd : DecSound d) (h : DecBehind e d) :
    ∃ d', decCode (encCode e.dict e.w) d = .ok d' ∧ DecLevel e d' ∧ d'.idx = d.idx ++ e.w := by
  obtain ⟨c, hc⟩ := Option.isSome_iff_exists.1 he.key
  rw [encCode_of_lookup hc]
  cases h with
  | fresh hphase hnext henc hdec =>
    rcases encLookup_mem hc with ⟨k, hk, rfl⟩ | hmem
    · refine ⟨_, decCode_root_first (.inr hphase) k, ⟨rfl, hnext, hk.symm, ?_⟩, by rw [hk]⟩
      rw [henc, Dec.entries, hdec, List.map_nil]
    · exact absurd (henc ▸ hmem) List.not_mem_nil
  | entry hphase hnext hdict =>
    obtain ⟨f, q, hw⟩ := List.exists_cons_of_ne_nil he.w_ne_nil
    rw [hw] at hc hdict ⊢
    have hd := hd.run hphase
    have hsucc := next_succ hd.high
    have hhigh := he.high
    rw [← hnext] at hhigh
    refine ⟨_, (decCode_of_phrase hphase (decPhrase_pending hd hc hdict)).trans (decTail_below f q (by omega)),
      ⟨hphase, hnext, hw.symm, hdict⟩, rfl⟩

/-- A hit leaves the first symbol of the pending phrase. -/
theorem DecBehind.extend (h : DecBehind e d) (hw : e.w ≠ []) (k : Byte) (out : List Pair) :
    DecBehind { e with w := e.w ++ [k], out := out } d := by
  cases h with
  | fresh hphase hnext henc hdec => exact .fresh hphase hnext henc hdec
  | entry hphase hnext hdict =>
    obtain ⟨f, q, hw⟩ := List.exists_cons_of_ne_nil hw
    exact .entry hphase hnext (by rw [hdict, hw]; rfl)

/-- A miss that leaves room inserts the entry that DEC does not have yet. -/
theorem DecLevel.behind_assign (h : DecLevel e d) (k : Byte) (out : List Pair) :
    DecBehind { encAssign k e with w := [k], out := out } d :=
  .entry h.phase (congrArg (· + 1) h.next) <| by
    show encInsert e.dict (e.w ++ [k]) e.next = encInsert d.entries (d.prev ++ [k]) d.next
    rw [h.dict, h.prev, h.next]

/-! ### The simulation along a run -/

/-- A decode run on these codes, and more behind them, comes to the unit `d` and the codes behind. -/
def DecReads (codes : List Code) (d : Dec) : Prop :=
  ∀ (s : State) (rest : List Code), s.paused = false → decRun (codes ++ rest) s = decCodes rest (s.setDec d)

theorem decReads_clear : DecReads [256] decFresh := fun _ _ hp => decRun_clear hp

theorem DecReads.snoc (h : DecReads codes d) (hd : d.Awaits) (hc : decCode c d = .ok d') (hd' : d'.Awaits) :
    DecReads (codes ++ [c]) d' := by
  intro s rest hp
  rw [List.append_assoc, h s _ hp]
  exact decCodes_cons_ok hp (decAwaits_iff.2 hd) hc hd'

theorem DecReads.decRun_end (h : DecReads codes d) (hd : d.Awaits) (hp : s.paused = false) :
    decRun (codes ++ [257]) s = .next (s.setDec { d with phase := .done }) :=
  (h s [257] hp).trans (decCodes_cons_end hp (decAwaits_iff.2 hd))

/-- ENC within a run has taken `y`, and a decode run on what it has emitted comes to `d`. -/
structure DecFollows (y : List Byte) (e : Enc) (d : Dec) : Prop where
  enc    : EncSound e
  phase  : e.phase = .run
  dec    : DecSound d
  behind : DecBehind e d
  input  : d.idx ++ e.w = y
  reads  : DecReads (e.out.map Pair.code) d

theorem DecLevel.awaits (h : DecLevel e d) : d.Awaits := .inr (.inr h.phase)

theorem DecBehind.awaits (h : DecBehind e d) : d.Awaits := by
  cases h with
  | fresh hphase => exact .inr (.inl hphase)
  | entry hphase => exact .inr (.inr hphase)

/-- With the pending phrase's code read DEC has emitted all of the input. -/
theorem DecFollows.level (h : DecFollows y e d) :
    ∃ d', DecLevel e d' ∧ DecSound d' ∧ d'.idx = y ∧ DecReads (e.out.map Pair.code ++ [encCode e.dict e.w]) d' := by
  obtain ⟨d', hcode, hlevel, hidx⟩ := h.behind.decCode_pending (h.enc.run h.phase) h.dec
  have hsound := decCode_sound h.dec (not_or.1 h.behind.awaits.ongoing).2 (encCode e.dict e.w)
  rw [hcode] at hsound
  exact ⟨d', hlevel, hsound, hidx.trans h.input, h.reads.snoc h.behind.awaits hcode hlevel.awaits⟩

/-- The first symbol makes ENC emit the leading CLEAR (R132), which DEC reads. -/
theorem exec_encSym_start_follows (hp : s.paused = false) (he : s.enc = encStart) (k : Byte) :
    ∃ e, exec (.encSym k) s = .next (s.setEnc e) ∧ DecFollows [k] e decFresh := by
  have hfirst : s.enc.phase = .first := by rw [he]; rfl
  have hsound := (encSymbol_sound (s := s) (he ▸ encStart_sound) k).1
  rw [exec_encSym hp (.inl hfirst)]
  rw [encSymbol_first hfirst, encEffect_ok] at hsound ⊢
  refine ⟨_, rfl, hsound, rfl, decClear_sound decStart_sound nofun, ?_, rfl, ?_⟩
  · rw [he]; exact .fresh rfl rfl rfl rfl
  · rw [he]; exact decReads_clear

/-- A further symbol of a run: a hit emits nothing, behind a miss DEC is level, and a CLEAR starts both anew. -/
theorem exec_encSym_follows (hp : s.paused = false) (h : DecFollows y s.enc d) (k : Byte) :
    ∃ e d', exec (.encSym k) s = .next (s.setEnc e) ∧ DecFollows (y ++ [k]) e d' := by
  have hr := h.enc.run h.phase
  have hsound := (encSymbol_sound h.enc k).1
  rw [exec_encSym hp (.inr h.phase)]
  cases hk : encHas s.enc.dict (s.enc.w ++ [k])
  case true =>
    rw [encSymbol_hit h.phase hk, encEffect_ok] at hsound ⊢
    refine ⟨_, d, rfl, hsound, h.phase, h.dec, h.behind.extend hr.w_ne_nil k _, ?_, ?_⟩
    · rw [← h.input, List.append_assoc]
    · rw [List.append_nil]; exact h.reads
  case false =>
    obtain ⟨d', hlevel, hdec, hidx, hreads⟩ := h.level
    rw [encSymbol_miss h.phase hk, encMiss_eq k hr.high, encEffect_ok] at hsound ⊢
    by_cases hfull : (encAssign k s.enc).next.toNat = 4096
    · rw [encReset_full hfull] at hsound ⊢
      refine ⟨_, _, rfl, hsound, h.phase, decClear_sound hdec (by simp [hlevel.phase]), .fresh rfl rfl rfl rfl, ?_, ?_⟩
      · rw [← hidx]
      · have hclear := hreads.snoc hlevel.awaits (decCode_clear d') (.inr (.inl rfl))
        simpa using hclear
    · rw [encReset_not_full hfull] at hsound ⊢
      refine ⟨_, d', rfl, hsound, h.phase, hdec, hlevel.behind_assign k _, by rw [hidx], ?_⟩
      simpa using hreads

theorem runAll_encSym_follows (x : List Byte) (hp : s.paused = false) (h : DecFollows y s.enc d) :
    ∃ e d', runAll (x.map .encSym) s = .next (s.setEnc e) ∧ DecFollows (y ++ x) e d' := by
  induction x generalizing s y d with
  | nil => exact ⟨s.enc, d, rfl, by rwa [List.append_nil]⟩
  | cons k x ih =>
    obtain ⟨e, d₁, hexec, he⟩ := exec_encSym_follows hp h k
    obtain ⟨f, d₂, hrun, hf⟩ := ih (s := s.setEnc e) hp he
    refine ⟨f, d₂, ?_, by rwa [List.append_assoc] at hf⟩
    rw [List.map_cons, runAll_cons, hexec, follow_next, hrun]
    rfl

/-- An encode run on a non-empty input ends in `ENC.END` on a unit that a decoder follows. -/
theorem encRun_cons_follows (k : Byte) (x : List Byte) (hp : s.paused = false) :
    ∃ e d, DecFollows (k :: x) e d ∧ encRun (k :: x) s = .next (s.setEnc { e with
      phase := .done, out := e.out ++ [⟨encCode e.dict e.w, e.width⟩, ⟨257, e.width⟩] }) := by
  obtain ⟨e₁, hfirst, he₁⟩ := exec_encSym_start_follows (s := s.setEnc encStart) hp rfl k
  obtain ⟨e, d, hrest, he⟩ := runAll_encSym_follows (s := (s.setEnc encStart).setEnc e₁) x hp he₁
  have hend := exec_encEnd_run (s := ((s.setEnc encStart).setEnc e₁).setEnc e) hp he.phase
  refine ⟨e, d, he, ?_⟩
  rw [encRun, runAll_cons, exec_encInit hp, follow_next, List.map_cons, List.cons_append, runAll_cons, hfirst, follow_next,
    runAll_append, hrest, follow_next, runAll_cons, hend, follow_next, runAll_nil]
  rfl

/-- Settles O23: the last two codes bring DEC level with ENC and end its run. -/
theorem decodingAnEncodedStreamGivesTheInput : Obligations.DecodingAnEncodedStreamGivesTheInput := by
  intro s x hp hx
  obtain ⟨k, x, rfl⟩ := List.exists_cons_of_ne_nil hx
  obtain ⟨e, d, hfollows, hrun⟩ := encRun_cons_follows k x hp
  obtain ⟨d', hlevel, hsound, hidx, hreads⟩ := hfollows.level
  refine ⟨_, _, hrun, (congrArg (decRun · _) ?codes).trans (hreads.decRun_end hlevel.awaits hp), rfl,
    hsound.err_none (by simp [hlevel.phase]), hidx, hlevel.next⟩
  case codes => simp

end Sys2Proof.Machine
end

section
/-! PROOFS. The packer operation by operation (42_bitpacker.md R182 to R184), the operands that it and the unpacker refuse
(R185, 43_bitunpacker.md R204), and the packer's run as one integer (R186). -/

namespace Sys2Proof.Machine

variable {s : State} {p : Pck} {c : Code} {w : Width} {v n : Nat}

/-! ### Conditions that hold, and the first that fails -/

theorem whenEnabled_pass {x : Bool × Refusal} {cs : List (Bool × Refusal)} {t : State} (h : x.1 = true) :
    whenEnabled (x :: cs) t = whenEnabled cs t := if_pos h

theorem whenEnabled_stop {x : Bool × Refusal} {cs : List (Bool × Refusal)} {t : State} (h : x.1 = false) :
    whenEnabled (x :: cs) t = .refused x.2 := if_neg (Bool.eq_false_iff.1 h)

theorem running_true (hp : s.paused = false) : (running s).1 = true := by rw [running_fst, hp]; rfl

theorem pckOpen_true (hrun : s.pck.phase = .run) : (pckOpen s).1 = true := decide_eq_true hrun

theorem unpOpen_true (hrun : s.unp.phase = .run) : (unpOpen s).1 = true := decide_eq_true hrun

theorem legalWidth_false (hw : w.toNat < 9 ∨ 12 < w.toNat) : legalWidth w = false := by
  rw [Bool.eq_false_iff, Ne, legalWidth_iff]
  omega

/-- Settles O28: the conditions before the one that names the reason hold. -/
theorem operandsOutOfRangeAreRefused : Obligations.OperandsOutOfRangeAreRefused := by
  intro s c w b hp
  have hrunning := running_true hp
  refine ⟨fun hrun hw => ?push, fun hrun hw => ?pull, fun hrun h9 h12 hfew => ?few, fun hrun hmany => ?many⟩
  case push =>
    show execPckPush c w s = _
    rw [execPckPush, whenEnabled_pass hrunning, whenEnabled_pass (pckOpen_true hrun), whenEnabled_stop (legalWidth_false hw)]
  case pull =>
    show execUnpPull w s = _
    rw [execUnpPull, whenEnabled_pass hrunning, whenEnabled_pass (unpOpen_true hrun), whenEnabled_stop (legalWidth_false hw)]
  case few =>
    show execUnpPull w s = _
    rw [execUnpPull, whenEnabled_pass hrunning, whenEnabled_pass (unpOpen_true hrun),
      whenEnabled_pass (legalWidth_iff.2 ⟨h9, h12⟩), whenEnabled_stop (decide_eq_false (by omega))]
  case many =>
    show execUnpFeed b s = _
    rw [execUnpFeed, whenEnabled_pass hrunning, whenEnabled_pass (unpOpen_true hrun),
      whenEnabled_stop (decide_eq_false (by omega))]

/-! ### The operations of PCK where they are enabled -/

theorem exec_pckInit (hp : s.paused = false) : exec .pckInit s = .next (s.setPck pckStart) :=
  execPckInit_next.2 ⟨hp, rfl⟩

theorem exec_pckPush (hp : s.paused = false) (hrun : s.pck.phase = .run) (h9 : 9 ≤ w.toNat) (h12 : w.toNat ≤ 12)
    (c : Code) : exec (.pckPush c w) s = .next (pckEffect (pckPush c w s.pck) s) :=
  execPckPush_next.2 ⟨hp, hrun, legalWidth_iff.2 ⟨h9, h12⟩, rfl⟩

theorem exec_pckFlush (hp : s.paused = false) (hrun : s.pck.phase = .run) :
    exec .pckFlush s = .next (pckEffect (pckFlush s.pck) s) :=
  execPckFlush_next.2 ⟨hp, hrun, rfl⟩

/-! ### What a push and the flush do -/

/-- The unit with a code put above its bits, before the drain (R182). -/
def Pck.load (c : Code) (w : Width) (p : Pck) : Pck :=
  { p with acc := p.acc ||| (c.setWidth 19 <<< p.cnt.toNat), cnt := p.cnt + w.setWidth 5 }

theorem pckPush_eq (c : Code) (w : Width) (p : Pck) : pckPush c w p = pckDrain 4 (p.load c w) := rfl

theorem Pck.load_cnt (hcnt : p.cnt.toNat ≤ 7) (c : Code) (w : Width) :
    (p.load c w).cnt.toNat = p.cnt.toNat + w.toNat := by
  show (p.cnt + w.setWidth 5).toNat = _
  bv_omega

/-- A counter of 8 to 15 gives one byte. -/
theorem pckDrain_one (h8 : 8 ≤ p.cnt.toNat) (h16 : p.cnt.toNat < 16) (n : Nat) :
    pckDrain (n + 1) p =
      ({ p with acc := p.acc >>> 8, cnt := BitVec.ofNat 5 (p.cnt.toNat - 8) }, [p.acc.setWidth 8]) := by
  have hcnt : p.cnt - 8 = BitVec.ofNat 5 (p.cnt.toNat - 8) := by bv_omega
  have hsub := sub_eight h8
  rw [pckDrain_more n h8, pckDrain_done n (by show (p.cnt - 8).toNat < 8; omega), hcnt]

/-- A counter of 16 to 23 gives two bytes. -/
theorem pckDrain_two (h16 : 16 ≤ p.cnt.toNat) (h24 : p.cnt.toNat < 24) (n : Nat) :
    pckDrain (n + 2) p =
      ({ p with acc := p.acc >>> 16, cnt := BitVec.ofNat 5 (p.cnt.toNat - 16) },
        [p.acc.setWidth 8, (p.acc >>> 8).setWidth 8]) := by
  have h8 : 8 ≤ p.cnt.toNat := by omega
  have hsub := sub_eight h8
  rw [pckDrain_more (n + 1) h8, pckDrain_one (by show 8 ≤ (p.cnt - 8).toNat; omega)
    (by show (p.cnt - 8).toNat < 16; omega) n]
  simp only [hsub, ← BitVec.shiftRight_add, Nat.sub_sub]

/-- Settles O24: the drain takes one round below 16 bits and two from there on. -/
theorem pushEmitsOneOrTwoBytes : Obligations.PushEmitsOneOrTwoBytes := by
  intro s c w hp hrun hcnt h9 h12 a n
  have hn : (s.pck.load c w).cnt.toNat = n := Pck.load_cnt hcnt c w
  have hlow : 9 ≤ n := by omega
  have hhigh : n ≤ 19 := by omega
  rw [exec_pckPush hp hrun h9 h12, pckPush_eq]
  by_cases hbits : n < 16
  · rw [pckDrain_one (by omega) (by omega), hn]
    simp only [if_pos hbits]
    rfl
  · rw [pckDrain_two (by omega) (by omega), hn]
    simp only [if_neg hbits]
    rfl

theorem pckFlush_bits (h : 0 < p.cnt.toNat) :
    pckFlush p = ({ p with acc := 0, cnt := 0, phase := .done }, [p.acc.setWidth 8]) := if_pos h

theorem pckFlush_empty (h : p.cnt.toNat = 0) : pckFlush p = ({ p with phase := .done }, []) := if_neg (by omega)

theorem exec_pckFlush_bits (hp : s.paused = false) (hrun : s.pck.phase = .run) (h : 0 < s.pck.cnt.toNat) :
    exec .pckFlush s = .next (s.setPck ⟨.done, 0, 0, s.pck.out ++ [s.pck.acc.setWidth 8]⟩) := by
  rw [exec_pckFlush hp hrun, pckFlush_bits h]
  rfl

theorem exec_pckFlush_empty (hp : s.paused = false) (hrun : s.pck.phase = .run) (h : s.pck.cnt.toNat = 0) :
    exec .pckFlush s = .next (s.setPck { s.pck with phase := .done }) := by
  rw [exec_pckFlush hp hrun, pckFlush_empty h, pckEffect, List.append_nil]

/-- Settles O25: the run of no pair flushes the unit that `PCK.INIT` leaves, which holds no bit. -/
theorem flushEmitsTheRemainingBits : Obligations.FlushEmitsTheRemainingBits := by
  intro s hp
  refine ⟨fun hrun => ⟨⟨[], rfl⟩, exec_pckFlush_bits hp hrun, exec_pckFlush_empty hp hrun, fun hacc => ?bits⟩, ?run⟩
  case bits =>
    rw [BitVec.toNat_setWidth]
    exact (Nat.mod_le _ _).trans_lt hacc
  case run =>
    refine ⟨s.setPck { pckStart with phase := .done }, ?_, rfl, rfl⟩
    show runAll [.pckInit, .pckFlush] s = _
    rw [runAll_cons, exec_pckInit hp, follow_next, runAll_cons, exec_pckFlush_empty (s := s.setPck pckStart) hp rfl rfl]
    rfl

/-! ### Bytes as an integer -/

/-- The integer whose digits to the base 256 are these bytes, the least significant first. -/
def bytesValue (bs : List Byte) : Nat := Nat.ofDigits 256 (bs.map BitVec.toNat)

@[simp] theorem bytesValue_nil : bytesValue [] = 0 := rfl

@[simp] theorem bytesValue_cons (b : Byte) (bs : List Byte) : bytesValue (b :: bs) = b.toNat + 256 * bytesValue bs := rfl

theorem bytesValue_append (as bs : List Byte) :
    bytesValue (as ++ bs) = bytesValue as + 256 ^ as.length * bytesValue bs := by
  rw [bytesValue, List.map_append, Nat.ofDigits_append, List.length_map]
  rfl

/-- Each byte is its digit. -/
theorem getElem?_eq_digit {bs : List Byte} {i : Nat} (hi : i < bs.length) :
    bs[i]? = some (BitVec.ofNat 8 (bytesValue bs / 256 ^ i)) := by
  induction bs generalizing i with
  | nil => exact absurd hi (Nat.not_lt_zero i)
  | cons b bs ih =>
    have hb := b.isLt
    rw [bytesValue_cons]
    cases i with
    | zero =>
      rw [List.getElem?_cons_zero, pow_zero, Nat.div_one]
      congr 1
      bv_omega
    | succ i =>
      have htail : (b.toNat + 256 * bytesValue bs) / 256 = bytesValue bs := by omega
      rw [List.getElem?_cons_succ, ih (Nat.lt_of_succ_lt_succ hi), pow_succ', ← Nat.div_div_eq_div_mul, htail]

/-! ### The run as one integer -/

/-- The drain keeps the accumulator's value: what it emits are the low digits (R182). -/
theorem pckDrain_value (n : Nat) (p : Pck) :
    bytesValue (pckDrain n p).2 + 256 ^ (pckDrain n p).2.length * (pckDrain n p).1.acc.toNat = p.acc.toNat := by
  induction n generalizing p with
  | zero => simp [pckDrain]
  | succ n ih =>
    rcases Nat.lt_or_ge p.cnt.toNat 8 with h8 | h8
    · simp [pckDrain_done _ h8]
    · have hrest := ih { p with acc := p.acc >>> 8, cnt := p.cnt - 8 }
      simp only [BitVec.toNat_ushiftRight, Nat.shiftRight_eq_div_pow] at hrest
      rw [pckDrain_more n h8]
      simp only [bytesValue_cons, List.length_cons, pow_succ', Nat.mul_assoc, BitVec.toNat_setWidth]
      omega

/-- The drain keeps the number of bits: what it emits are whole bytes (R182). -/
theorem pckDrain_bits (n : Nat) (p : Pck) : 8 * (pckDrain n p).2.length + (pckDrain n p).1.cnt.toNat = p.cnt.toNat := by
  induction n generalizing p with
  | zero => simp [pckDrain]
  | succ n ih =>
    rcases Nat.lt_or_ge p.cnt.toNat 8 with h8 | h8
    · simp [pckDrain_done _ h8]
    · have hrest := ih { p with acc := p.acc >>> 8, cnt := p.cnt - 8 }
      simp only [sub_eight h8] at hrest
      rw [pckDrain_more n h8]
      simp only [List.length_cons]
      omega

/-- A code goes in above the bits held, clear of them. -/
theorem Pck.load_acc (hcnt : p.cnt.toNat ≤ 7) (hacc : p.acc.toNat < 2 ^ p.cnt.toNat) (c : Code) (w : Width) :
    (p.load c w).acc.toNat = p.acc.toNat + 2 ^ p.cnt.toNat * c.toNat := by
  have hc := c.isLt
  have hpow : 2 ^ p.cnt.toNat ≤ 2 ^ 7 := Nat.pow_le_pow_right (by omega) hcnt
  have hmul := Nat.mul_le_mul hpow (Nat.le_of_lt_succ hc)
  have hfits : 2 ^ p.cnt.toNat * c.toNat < 2 ^ 19 := by omega
  have hcode : (c.setWidth 19 : Acc).toNat = c.toNat := by bv_omega
  have hshift : (c.setWidth 19 <<< p.cnt.toNat : Acc).toNat = 2 ^ p.cnt.toNat * c.toNat := by
    rw [BitVec.toNat_shiftLeft, hcode, Nat.shiftLeft_eq, Nat.mul_comm, Nat.mod_eq_of_lt hfits]
  show (p.acc ||| (c.setWidth 19 <<< p.cnt.toNat)).toNat = _
  rw [BitVec.toNat_or, hshift, Nat.or_comm, ← Nat.two_pow_add_eq_or_of_lt hacc, Nat.add_comm]

/-- PCK has taken a stream of `n` bits with the value `v`: the bytes emitted are its low digits, the accumulator the rest. -/
structure Packed (p : Pck) (v n : Nat) : Prop where
  acc   : p.acc.toNat < 2 ^ p.cnt.toNat
  bits  : 8 * p.out.length + p.cnt.toNat = n
  value : bytesValue p.out + 256 ^ p.out.length * p.acc.toNat = v

/-- The same at an operation boundary within a run (R187). -/
structure Packing (p : Pck) (v n : Nat) : Prop extends Packed p v n where
  phase : p.phase = .run
  cnt   : p.cnt.toNat ≤ 7

theorem two_pow_bits (k m : Nat) : 2 ^ (8 * k + m) = 256 ^ k * 2 ^ m := by
  rw [pow_add, pow_mul]
  rfl

/-- A code that fits its width stands above the stream's bits (R182, R184). -/
theorem Packed.load (h : Packed p v n) (hcnt : p.cnt.toNat ≤ 7) (hc : c.toNat < 2 ^ w.toNat) :
    Packed (p.load c w) (v + 2 ^ n * c.toNat) (n + w.toNat) := by
  obtain ⟨hacc, hbits, hvalue⟩ := h
  refine ⟨?acc, ?bits, ?value⟩
  case acc =>
    rw [Pck.load_acc hcnt hacc, Pck.load_cnt hcnt, pow_add]
    calc p.acc.toNat + 2 ^ p.cnt.toNat * c.toNat
        < 2 ^ p.cnt.toNat * (c.toNat + 1) := by rw [Nat.mul_succ]; omega
      _ ≤ 2 ^ p.cnt.toNat * 2 ^ w.toNat := Nat.mul_le_mul_left _ hc
  case bits =>
    rw [Pck.load_cnt hcnt, ← Nat.add_assoc]
    exact congrArg (· + w.toNat) hbits
  case value =>
    rw [Pck.load_acc hcnt hacc, Nat.mul_add, ← Nat.add_assoc, ← Nat.mul_assoc, ← two_pow_bits, ← hvalue, ← hbits]
    rfl

/-- The drain moves bits from the accumulator to the port. -/
theorem Packed.drain (h : Packed p v n) (k : Nat) :
    Packed { (pckDrain k p).1 with out := p.out ++ (pckDrain k p).2 } v n := by
  obtain ⟨hacc, hbits, hvalue⟩ := h
  have hkeepBits := pckDrain_bits k p
  have hkeepValue := pckDrain_value k p
  refine ⟨?acc, ?bits, ?value⟩
  case acc =>
    rw [← hkeepBits, two_pow_bits] at hacc
    exact Nat.lt_of_mul_lt_mul_left ((hkeepValue ▸ Nat.le_add_left _ _).trans_lt hacc)
  case bits =>
    simp only [List.length_append]
    omega
  case value =>
    rw [bytesValue_append, List.length_append, pow_add, Nat.mul_assoc, Nat.add_assoc, ← Nat.mul_add, hkeepValue, hvalue]

theorem pckStart_packing : Packing pckStart 0 0 := ⟨⟨by decide, rfl, rfl⟩, rfl, by decide⟩

/-- A push appends its code to the stream. -/
theorem exec_pckPush_packing (hp : s.paused = false) (h : Packing s.pck v n) {x : Pair} (hx : Pair.Fits x) :
    ∃ p, exec (.pckPush x.code x.width) s = .next (s.setPck p) ∧
      Packing p (v + 2 ^ n * x.code.toNat) (n + x.width.toNat) := by
  obtain ⟨hcode, h9, h12⟩ := hx
  have hphase := (pckPush_phase x.code x.width s.pck).trans h.phase
  exact ⟨_, exec_pckPush hp h.phase h9 h12 x.code, (h.toPacked.load h.cnt hcode).drain 4, hphase,
    pckPush_sound x.code x.width s.pck _ hphase⟩

theorem runAll_pckPush_packing (ps : List Pair) (hp : s.paused = false) (hps : ∀ x ∈ ps, Pair.Fits x)
    (h : Packing s.pck v n) :
    ∃ p, runAll (ps.map fun x => .pckPush x.code x.width) s = .next (s.setPck p) ∧
      Packing p (v + 2 ^ n * streamValue ps) (n + bitLength ps) := by
  induction ps generalizing s v n with
  | nil => exact ⟨s.pck, rfl, h⟩
  | cons x ps ih =>
    obtain ⟨hx, hps⟩ := List.forall_mem_cons.1 hps
    obtain ⟨p, hexec, hpush⟩ := exec_pckPush_packing hp h hx
    obtain ⟨q, hrun, hrest⟩ := ih (s := s.setPck p) hp hps hpush
    refine ⟨q, ?_, ?_⟩
    · rw [List.map_cons, runAll_cons, hexec, follow_next, hrun]
      rfl
    · have hvalue : v + 2 ^ n * streamValue (x :: ps) =
          v + 2 ^ n * x.code.toNat + 2 ^ (n + x.width.toNat) * streamValue ps := by
        rw [streamValue, pow_add]; ring
      have hbits : n + bitLength (x :: ps) = n + x.width.toNat + bitLength ps := by
        rw [bitLength, List.map_cons, List.sum_cons, Nat.add_assoc]; rfl
      rw [hvalue, hbits]
      exact hrest

/-- The flush emits what the accumulator holds, so that the bytes are the whole stream (R183). -/
theorem exec_pckFlush_packing (hp : s.paused = false) (h : Packing s.pck v n) :
    ∃ p, exec .pckFlush s = .next (s.setPck p) ∧ p.phase = .done ∧ p.out.length = (n + 7) / 8 ∧ bytesValue p.out = v := by
  obtain ⟨⟨hacc, hbits, hvalue⟩, hphase, hcnt⟩ := h
  rcases Nat.eq_zero_or_pos s.pck.cnt.toNat with hzero | hpos
  · refine ⟨_, exec_pckFlush_empty hp hphase hzero, rfl, by show s.pck.out.length = _; omega, ?_⟩
    rw [hzero, pow_zero, Nat.lt_one_iff] at hacc
    rwa [hacc, Nat.mul_zero, Nat.add_zero] at hvalue
  · refine ⟨_, exec_pckFlush_bits hp hphase hpos, rfl, ?_, ?_⟩
    · rw [List.length_append, List.length_singleton]
      omega
    · have hbyte : (s.pck.acc.setWidth 8 : Byte).toNat = s.pck.acc.toNat := by
        have hpow : 2 ^ s.pck.cnt.toNat ≤ 2 ^ 7 := Nat.pow_le_pow_right (by omega) hcnt
        rw [BitVec.toNat_setWidth]
        omega
      rw [bytesValue_append, bytesValue_cons, bytesValue_nil, hbyte]
      exact hvalue

/-- A packer run on fitting pairs changes PCK only and leaves the stream's integer on the port, in whole bytes. -/
theorem pckRun_eq (ps : List Pair) (hp : s.paused = false) (hps : ∀ x ∈ ps, Pair.Fits x) :
    ∃ p, pckRun ps s = .next (s.setPck p) ∧ p.phase = .done ∧ p.out.length = (bitLength ps + 7) / 8 ∧
      bytesValue p.out = streamValue ps := by
  obtain ⟨q, hpush, hq⟩ := runAll_pckPush_packing (s := s.setPck pckStart) ps hp hps pckStart_packing
  rw [pow_zero, Nat.one_mul, Nat.zero_add, Nat.zero_add] at hq
  obtain ⟨p, hflush, hdone⟩ := exec_pckFlush_packing (s := (s.setPck pckStart).setPck q) hp hq
  refine ⟨p, ?_, hdone⟩
  rw [pckRun, runAll_cons, exec_pckInit hp, follow_next, runAll_append, hpush, follow_next, runAll_cons, hflush]
  rfl

/-- Settles O26: every byte is a digit of the integer that the run leaves on the port. -/
theorem packedBytesAreTheStreamInteger : Obligations.PackedBytesAreTheStreamInteger := by
  intro s ps hp hps
  obtain ⟨p, hrun, hphase, hlength, hvalue⟩ := pckRun_eq ps hp hps
  exact ⟨s.setPck p, hrun, rfl, hphase, hlength, fun i hi => hvalue ▸ getElem?_eq_digit hi⟩

end Sys2Proof.Machine
end

section
/-! PROOFS. The unpacker operation by operation (43_bitunpacker.md R202, R203), and its run over packed bytes (R209): what it
holds and what it is still to be fed are, at every pull, the integer of the codes not yet pulled. -/

namespace Sys2Proof.Machine

variable {s : State} {u : Unp} {b : Byte} {w : Width} {c : Code} {bytes : List Byte} {cs : List Code} {v n : Nat}

/-! ### The operations of UNP where they are enabled -/

theorem exec_unpInit (hp : s.paused = false) : exec .unpInit s = .next (s.setUnp unpStart) :=
  execUnpInit_next.2 ⟨hp, rfl⟩

theorem exec_unpFeed (hp : s.paused = false) (hrun : s.unp.phase = .run) (hcnt : s.unp.cnt.toNat ≤ 11) (b : Byte) :
    exec (.unpFeed b) s = .next (s.setUnp (unpFeed b s.unp)) :=
  execUnpFeed_next.2 ⟨hp, hrun, hcnt, rfl⟩

theorem exec_unpPull (hp : s.paused = false) (hrun : s.unp.phase = .run) (h9 : 9 ≤ w.toNat) (h12 : w.toNat ≤ 12)
    (hw : w.toNat ≤ s.unp.cnt.toNat) : exec (.unpPull w) s = .next (s.setUnp (unpPull w s.unp)) :=
  execUnpPull_next.2 ⟨hp, hrun, legalWidth_iff.2 ⟨h9, h12⟩, hw, rfl⟩

/-! ### The single operations -/

/-- The counter is a 5-bit register: written as a number, the sum is taken modulo 32. -/
theorem unpFeed_cnt (b : Byte) (u : Unp) : (unpFeed b u).cnt = BitVec.ofNat 5 (u.cnt.toNat + 8) := by
  show u.cnt + 8 = _
  bv_omega

theorem unpPull_cnt (hw : w.toNat ≤ u.cnt.toNat) : (unpPull w u).cnt = BitVec.ofNat 5 (u.cnt.toNat - w.toNat) := by
  show u.cnt - w.setWidth 5 = _
  bv_omega

theorem unpCode_eq (hw : w.toNat ≤ 12) (u : Unp) : unpCode w u = BitVec.ofNat 12 (u.acc.toNat % 2 ^ w.toNat) := by
  rw [← unpCode_toNat hw, BitVec.ofNat_toNat, BitVec.setWidth_eq]

/-- Settles O27: what is left of the two operations is the counter and the code written as numbers. -/
theorem feedAndPullMoveTheLowBits : Obligations.FeedAndPullMoveTheLowBits := by
  refine ⟨fun s b hp hrun hcnt => ?feed, fun s w hp hrun h9 h12 hw => ?pull⟩
  case feed =>
    rw [exec_unpFeed hp hrun hcnt, ← unpFeed_cnt b s.unp]
    rfl
  case pull =>
    rw [exec_unpPull hp hrun h9 h12 hw, ← unpPull_cnt hw, ← unpCode_eq h12]
    rfl

/-! ### The run as one integer -/

/-- A byte goes in above the bits held, clear of them. -/
theorem unpFeed_acc (hcnt : u.cnt.toNat ≤ 11) (hacc : u.acc.toNat < 2 ^ u.cnt.toNat) (b : Byte) :
    (unpFeed b u).acc.toNat = u.acc.toNat + 2 ^ u.cnt.toNat * b.toNat := by
  have hb := b.isLt
  have hpow : 2 ^ u.cnt.toNat ≤ 2 ^ 11 := Nat.pow_le_pow_right (by omega) hcnt
  have hmul := Nat.mul_le_mul hpow (Nat.le_of_lt_succ hb)
  have hfits : 2 ^ u.cnt.toNat * b.toNat < 2 ^ 19 := by omega
  have hbyte : (b.setWidth 19 : Acc).toNat = b.toNat := by bv_omega
  have hshift : (b.setWidth 19 <<< u.cnt.toNat : Acc).toNat = 2 ^ u.cnt.toNat * b.toNat := by
    rw [BitVec.toNat_shiftLeft, hbyte, Nat.shiftLeft_eq, Nat.mul_comm, Nat.mod_eq_of_lt hfits]
  show (u.acc ||| (b.setWidth 19 <<< u.cnt.toNat)).toNat = _
  rw [BitVec.toNat_or, hshift, Nat.or_comm, ← Nat.two_pow_add_eq_or_of_lt hacc, Nat.add_comm]

/-- UNP in a run that has given the codes `cs` and has `bytes` still to be fed: what it holds and these bytes are the value
`v`, in at least `n` bits (43_bitunpacker.md R208, R209). -/
structure Unpacking (u : Unp) (bytes : List Byte) (cs : List Code) (v n : Nat) : Prop where
  phase : u.phase = .run
  acc   : u.acc.toNat < 2 ^ u.cnt.toNat
  bits  : n ≤ u.cnt.toNat + 8 * bytes.length
  value : u.acc.toNat + 2 ^ u.cnt.toNat * bytesValue bytes = v
  out   : u.out = cs

theorem unpStart_unpacking (h : n ≤ 8 * bytes.length) : Unpacking unpStart bytes [] (bytesValue bytes) n where
  phase := rfl
  acc   := by decide
  bits  := h.trans (Nat.le_add_left _ _)
  value := (Nat.zero_add _).trans (Nat.one_mul _)
  out   := rfl

/-- A feed moves a byte from the bytes to the accumulator (R202). -/
theorem Unpacking.feed (h : Unpacking u (b :: bytes) cs v n) (hcnt : u.cnt.toNat ≤ 11) :
    Unpacking (unpFeed b u) bytes cs v n := by
  obtain ⟨hphase, hacc, hbits, hvalue, hout⟩ := h
  obtain ⟨hcnt', hacc'⟩ := unpFeed_sound hcnt hacc b
  refine ⟨hphase, hcnt' ▸ hacc', ?bits, ?value, hout⟩
  case bits =>
    rw [List.length_cons] at hbits
    omega
  case value =>
    rw [unpFeed_acc hcnt hacc, hcnt', ← hvalue, bytesValue_cons, pow_add]
    ring

/-- A pull takes the lowest code off the value (R203). -/
theorem Unpacking.pull (h : Unpacking u bytes cs (c.toNat + 2 ^ w.toNat * v) (w.toNat + n)) (hc : c.toNat < 2 ^ w.toNat)
    (h12 : w.toNat ≤ 12) (hw : w.toNat ≤ u.cnt.toNat) : Unpacking (unpPull w u) bytes (cs ++ [c]) v n := by
  obtain ⟨hphase, hacc, hbits, hvalue, hout⟩ := h
  obtain ⟨hcnt', hacc'⟩ := unpPull_sound hw hacc
  have hpos := Nat.two_pow_pos w.toNat
  have hsplit : u.acc.toNat + 2 ^ w.toNat * (2 ^ (u.cnt.toNat - w.toNat) * bytesValue bytes) =
      c.toNat + 2 ^ w.toNat * v := by
    rw [← Nat.mul_assoc, ← pow_add, Nat.add_sub_cancel' hw, hvalue]
  refine ⟨hphase, hcnt' ▸ hacc', by omega, ?value, ?out⟩
  case value =>
    have hdiv := congrArg (· / 2 ^ w.toNat) hsplit
    simp only [Nat.add_mul_div_left _ _ hpos, Nat.div_eq_of_lt hc, Nat.zero_add] at hdiv
    show (u.acc >>> w.toNat).toNat + _ = v
    rw [hcnt', BitVec.toNat_ushiftRight, Nat.shiftRight_eq_div_pow, hdiv]
  case out =>
    have hmod := congrArg (· % 2 ^ w.toNat) hsplit
    simp only [Nat.add_mul_mod_self_left, Nat.mod_eq_of_lt hc] at hmod
    have hcode : unpCode w u = c := BitVec.eq_of_toNat_eq ((unpCode_toNat h12).trans hmod)
    show u.out ++ [unpCode w u] = _
    rw [hout, hcode]

/-- While enough bits are left, feeding changes UNP only and stops with a whole code held. -/
theorem feedUntil_unpacking (hp : s.paused = false) (h12 : w.toNat ≤ 12) (hn : w.toNat ≤ n)
    (h : Unpacking s.unp bytes cs v n) :
    ∃ u rest, feedUntil w bytes s = .next (s.setUnp u, rest) ∧ Unpacking u rest cs v n ∧ w.toNat ≤ u.cnt.toNat := by
  induction bytes generalizing s with
  | nil => exact ⟨s.unp, [], rfl, h, hn.trans h.bits⟩
  | cons b bytes ih =>
    rw [feedUntil]
    split
    case isTrue hlow =>
      have hcnt : s.unp.cnt.toNat ≤ 11 := by omega
      rw [exec_unpFeed hp h.phase hcnt, follow_next]
      exact ih (s := s.setUnp (unpFeed b s.unp)) hp (h.feed hcnt)
    case isFalse henough => exact ⟨s.unp, b :: bytes, rfl, h, Nat.le_of_not_lt henough⟩

/-- From the integer of fitting pairs the pulls with their widths give their codes, and change UNP only. -/
theorem unpPulls_unpacking (ps : List Pair) (hp : s.paused = false) (hps : ∀ x ∈ ps, Pair.Fits x)
    (h : Unpacking s.unp bytes cs (streamValue ps) (bitLength ps)) :
    ∃ u, unpPulls (ps.map Pair.width) bytes s = .next (s.setUnp u) ∧ u.out = cs ++ ps.map Pair.code := by
  induction ps generalizing s bytes cs with
  | nil => exact ⟨s.unp, rfl, h.out.trans (List.append_nil cs).symm⟩
  | cons x ps ih =>
    obtain ⟨⟨hcode, h9, h12⟩, hps⟩ := List.forall_mem_cons.1 hps
    have hbits : bitLength (x :: ps) = x.width.toNat + bitLength ps := List.sum_cons
    rw [hbits] at h
    obtain ⟨u, rest, hfeed, hu, hw⟩ := feedUntil_unpacking hp h12 (Nat.le_add_right _ _) h
    have hpull := exec_unpPull (s := s.setUnp u) hp hu.phase h9 h12 hw
    obtain ⟨t, hrun, hout⟩ := ih (s := s.setUnp (unpPull x.width u)) hp hps (hu.pull hcode h12 hw)
    refine ⟨t, ?_, by rw [hout, List.append_assoc]; rfl⟩
    rw [List.map_cons, unpPulls, hfeed, follow_next, hpull, follow_next]
    exact hrun

/-- The run over bytes whose integer is that of fitting pairs gives their codes. -/
theorem unpRun_eq (ps : List Pair) (hp : s.paused = false) (hps : ∀ x ∈ ps, Pair.Fits x)
    (hbits : bitLength ps ≤ 8 * bytes.length) (hvalue : bytesValue bytes = streamValue ps) :
    ∃ u, unpRun bytes (ps.map Pair.width) s = .next (s.setUnp u) ∧ u.out = ps.map Pair.code := by
  have hstart := unpStart_unpacking hbits
  rw [hvalue] at hstart
  obtain ⟨u, hrun, hout⟩ := unpPulls_unpacking (s := s.setUnp unpStart) ps hp hps hstart
  refine ⟨u, ?_, hout⟩
  rw [unpRun, exec_unpInit hp, follow_next, hrun]
  rfl

/-- Settles O29: the packer's bytes are the stream's integer, in enough bits for every pull. -/
theorem unpackerInvertsThePacker : Obligations.UnpackerInvertsThePacker := by
  intro s ps hp hps
  obtain ⟨p, hpack, -, hlength, hvalue⟩ := pckRun_eq ps hp hps
  have hbits : bitLength ps ≤ 8 * p.out.length := by omega
  obtain ⟨u, hunpack, hout⟩ := unpRun_eq (s := s.setPck p) ps hp hps hbits hvalue
  exact ⟨_, _, hpack, hunpack, hout⟩

end Sys2Proof.Machine
end

section
/-! PROOFS. When `SER.RUN` is enabled and what counts as written (44_serializer.md R216), what it raises (R225), and the
palette entries it reads (R220). -/

namespace Sys2Proof.Machine

variable {s : State} {r : Shared}

/-! ### What counts as written (R216) -/

/-- With a legal `C_PLEN` the enabling test is that everything the container is made of has been written. -/
theorem serEnabled_of_le (hn : s.shared.plen ≤ 256) : (serEnabled s).1 = true ↔ ReadableBySer s := by
  have hnot : ¬ Config.palMax < s.shared.plen := Nat.not_lt.2 hn
  simp [serEnabled, hnot, palWritten_iff hn, ReadableBySer, and_assoc]

/-- With a `C_PLEN` that is too large only `C_PLEN` is read. -/
theorem serEnabled_of_gt (hn : 256 < s.shared.plen) : (serEnabled s).1 = s.shared.written.plen := by
  have hlarge : Config.palMax < s.shared.plen := hn
  simp [serEnabled, hlarge]

theorem serEnabled_of_plen_unwritten (h : s.shared.written.plen = false) : (serEnabled s).1 = false := by
  simp [serEnabled, h]

theorem exec_serRun (hp : s.paused = false) (h : (serEnabled s).1 = true) : exec .serRun s = .next (serRun s) :=
  execSerRun_next.2 ⟨hp, h, rfl⟩

theorem exec_serRun_refused (hp : s.paused = false) (h : (serEnabled s).1 = false) :
    exec .serRun s = .refused .notWritten := by
  show execSerRun s = _
  rw [execSerRun, whenEnabled_pass (running_true hp), whenEnabled_stop h]
  rfl

/-- A cancel and the reset input leave nothing written and the pause off. -/
theorem exec_serRun_clearAll (s : State) : exec .serRun (clearAll s) = .refused .notWritten :=
  exec_serRun_refused rfl (serEnabled_of_plen_unwritten rfl)

theorem step_of_resetInput {q : List Item} (h : s.inq = .resetInput :: q) :
    step s = .next (clearAll (s.setInq q)) := step_of_inq_cons h

/-- Settles O32: the enabling test is the condition on the registers, and a reset or a cancel leaves nothing written. -/
theorem serializerNeedsWrittenRegisters : Obligations.SerializerNeedsWrittenRegisters := by
  refine ⟨fun s hp hn => ?legal, fun s hp hn => ?tooLarge, ?atReset, fun s t ht => ?cancel, fun s t q hq ht => ?reset⟩
  case legal =>
    exact ⟨fun h => ⟨_, exec_serRun hp ((serEnabled_of_le hn).2 h)⟩,
      fun h => exec_serRun_refused hp (Bool.eq_false_iff.2 (mt (serEnabled_of_le hn).1 h))⟩
  case tooLarge =>
    exact ⟨fun h => ⟨_, exec_serRun hp ((serEnabled_of_gt hn).trans h)⟩,
      fun h => exec_serRun_refused hp ((serEnabled_of_gt hn).trans h)⟩
  case atReset => exact exec_serRun_refused rfl (serEnabled_of_plen_unwritten rfl)
  case cancel =>
    obtain rfl := execCtlCancel_next.1 ht
    exact exec_serRun_clearAll s
  case reset =>
    cases (step_of_resetInput hq).symm.trans ht
    exact exec_serRun_clearAll _

/-! ### The record of the writes -/

theorem not_readable_reset : ¬ ReadableBySer State.reset := fun ⟨hplen, _⟩ => nomatch hplen

/-- A completed parse has written all there is to read (45_parser.md R236, R240). -/
theorem parCommit_readable (l : ParLocals) (pos : Nat) (s : State) : ReadableBySer (parCommit l pos s) := by
  refine ⟨rfl, rfl, rfl, rfl, fun i hi => ?_⟩
  have hi256 : i < 256 := hi
  show (s.shared.written.pal ||| firstEntries 256).getLsbD i = true
  simp [firstEntries_getLsbD hi256, hi256]

theorem encodeReady_readable (iw ih : Dim) {pal : List RGB} (hn : pal.length ≤ 256) (s : State) :
    ReadableBySer (encodeReady iw ih pal s) := by
  refine ⟨rfl, rfl, rfl, rfl, fun i hi => ?_⟩
  have hlen : i < pal.length := hi
  show (s.shared.written.pal ||| firstEntries pal.length).getLsbD i = true
  simp [BitVec.getLsbD_or, firstEntries_getLsbD (Nat.lt_of_lt_of_le hlen hn), hlen]

namespace ReadableBySer

/-! The units of `ENCODE` leave the record and `C_PLEN` alone: of the shared registers they write `PBUF` only. -/

theorem encEffect (h : ReadableBySer s) (e : EncEffect) : ReadableBySer (encEffect e s).1 := by
  rw [encEffect_only]; exact h

theorem serRun (h : ReadableBySer s) : ReadableBySer (serRun s) := by
  rw [serRun_only]; exact h

theorem packedOut (h : ReadableBySer s) (p : Pck × List Byte) : ReadableBySer (packedOut p s) := h

theorem pushPairs (h : ReadableBySer s) (ps : List Pair) : ReadableBySer (pushPairs ps s) := by
  induction ps generalizing s with
  | nil => exact h
  | cons p ps ih => exact ih (h.packedOut _)

theorem encodeSymbols (h : ReadableBySer s) (x : List Byte) : ReadableBySer (encodeSymbols x s) := by
  induction x generalizing s with
  | nil => exact h
  | cons k x ih =>
    have hstep := (h.encEffect (encSymbol k s.enc)).pushPairs (Machine.encEffect (encSymbol k s.enc) s).2
    simp only [Machine.encodeSymbols]
    split
    · exact hstep
    · exact ih hstep

theorem encodeFinish (h : ReadableBySer s) : ReadableBySer (encodeFinish s) := by
  have hser := (h.packedOut (pckFlush s.pck)).serRun
  simp only [Machine.encodeFinish]
  split
  · exact hser
  · exact hser

end ReadableBySer

theorem encodeRun_long (iw ih : Dim) {pal : List RGB} (x : List Byte) (hn : 256 < pal.length) (s : State) :
    encodeRun iw ih pal x s = s.setComp ⟨.fail, .paletteOverflow⟩ := if_pos hn

theorem encodeRun_readable (iw ih : Dim) {pal : List RGB} (x : List Byte) (hn : pal.length ≤ 256) (s : State) :
    ReadableBySer (encodeRun iw ih pal x s) := by
  have hsyms := (encodeReady_readable iw ih hn s).encodeSymbols x
  have hend (e : EncEffect) := hsyms.encEffect e
  simp only [encodeRun]
  split
  case isTrue hlong => exact absurd hlong (Nat.not_lt.2 hn)
  split
  · exact hsyms
  split
  · exact hend _
  · exact ((hend _).pushPairs _).encodeFinish

theorem parRun_record (cont : List Byte) (s : State) :
    ((parRun cont s).par.phase = .done → ReadableBySer (parRun cont s)) ∧
    ((parRun cont s).par.phase = .fail → (parRun cont s).shared.written = s.shared.written) := by
  cases h : parParse cont with
  | ok l => rw [parRun_ok h]; exact ⟨fun _ => parCommit_readable _ _ _, nofun⟩
  | error pos => rw [parRun_error h]; exact ⟨nofun, fun _ => rfl⟩

/-- Settles O59: what writes the shared registers records it, and what fails before it does so records nothing. -/
theorem writtenRegistersAreRecorded : Obligations.WrittenRegistersAreRecorded := by
  refine ⟨rfl, not_readable_reset, fun s t ht => ?cancel, fun s t q hq ht => ?reset,
    fun s t cont ht => ?parse, fun s t ht => ?trailer, fun s t iw ih pal x ht => ?encode⟩
  case cancel => rw [← execCtlCancel_next.1 ht]; rfl
  case reset => cases (step_of_resetInput hq).symm.trans ht; rfl
  case parse =>
    obtain ⟨-, rfl⟩ := execParRun_next.1 ht
    exact parRun_record cont s
  case trailer =>
    obtain ⟨-, -, rfl⟩ := execContTrailer_next.1 ht
    exact parCommit_readable _ _ s
  case encode =>
    obtain ⟨-, rfl⟩ := execRunEncode_next.1 ht
    exact ⟨fun hn => encodeRun_readable iw ih x hn s, fun hn => by rw [encodeRun_long iw ih x hn]; rfl⟩

/-! ### The palette's length (R225) and the palette (R220) -/

theorem serRun_long (hn : 256 < s.shared.plen) : serRun s = raise .ser .paletteOverflow s := if_pos hn

theorem serRun_fits (hn : s.shared.plen ≤ 256) :
    serRun s = s.setSer { phase := .done, err := .none, out := serContainer s.shared } := if_neg (Nat.not_lt.2 hn)

theorem exec_serRun_fits (hp : s.paused = false) (hn : s.shared.plen ≤ 256) (hw : ReadableBySer s) :
    exec .serRun s = .next (s.setSer ⟨.done, .none, serContainer s.shared⟩) := by
  rw [exec_serRun hp ((serEnabled_of_le hn).2 hw), serRun_fits hn]

/-- Settles O31: both make the test on the number of entries first. -/
theorem tooLongAPaletteRaisesPaletteOverflow : Obligations.TooLongAPaletteRaisesPaletteOverflow := by
  refine ⟨fun s hp hn hw => ?_, fun s iw ih pal x hp hn => ?_⟩
  · rw [exec_serRun hp ((serEnabled_of_gt hn).trans hw), serRun_long hn]
    rfl
  · exact execRunEncode_next.2 ⟨hp, encodeRun_long iw ih x hn s⟩

/-- The 256 entries of the colour table: those below `C_PLEN`, then black (R220). -/
def serEntries (r : Shared) : List RGB :=
  r.pal.toList.take r.plen ++ List.replicate (Config.gctEntries - r.plen) RGB.black

theorem serTable_eq (r : Shared) : serTable r = (serEntries r).flatMap RGB.bytes := rfl

theorem length_serEntries (hn : r.plen ≤ 256) : (serEntries r).length = 256 := by
  simp [serEntries, Config.gctEntries]
  omega

theorem serEntries_getElem? {i : Nat} (hi : i < 256) :
    (serEntries r)[i]? = some (if i < r.plen then r.pal[i] else ⟨0, 0, 0⟩) := by
  rw [serEntries, List.getElem?_append]
  simp only [List.length_take, Vector.length_toList, List.getElem?_take, List.getElem?_replicate, Config.gctEntries]
  split
  · rw [if_pos (by omega), if_pos (by omega)]; simp [hi]
  · rw [if_pos (by omega), if_neg (by omega)]; rfl

/-- Palettes that agree below `C_PLEN` give the same container. -/
theorem serContainer_pal {pal : Palette} (h : ∀ (i : Nat) (hi : i < 256), i < r.plen → pal[i] = r.pal[i]) :
    serContainer { r with pal := pal } = serContainer r := by
  have htake : pal.toList.take r.plen = r.pal.toList.take r.plen := by
    refine List.ext_getElem (by simp) fun i h1 _ => ?_
    rw [List.length_take, Vector.length_toList] at h1
    simpa using h i (by omega) (by omega)
  have htable : serTable { r with pal := pal } = serTable r := by simp only [serTable, htake]
  simp only [serContainer, htable]
  rfl

theorem serRun_setShared_pal {pal : Palette}
    (h : ∀ (i : Nat) (hi : i < 256), i < s.shared.plen → pal[i] = s.shared.pal[i]) :
    serRun (s.setShared { s.shared with pal := pal }) = (serRun s).setShared { s.shared with pal := pal } := by
  obtain hn | hn := Nat.lt_or_ge 256 s.shared.plen
  · rw [serRun_long hn, serRun_long (by exact hn)]
    rfl
  · rw [serRun_fits hn, serRun_fits (by exact hn), State.setShared_shared, serContainer_pal h]
    rfl

/-- Settles O33: neither the enabling test nor the container depends on the entries from `C_PLEN` on. -/
theorem paletteBeyondItsLengthIsNotRead : Obligations.PaletteBeyondItsLengthIsNotRead := by
  rintro s _ t h pal hpal rfl
  obtain ⟨hp, hw, rfl⟩ := execSerRun_next.1 h
  exact execSerRun_next.2 ⟨hp, hw, serRun_setShared_pal hpal⟩

end Sys2Proof.Machine
end

section
/-! PROOFS. The container that `SER.RUN` lays out (44_serializer.md R217 to R226): the parser takes it back (R232), and
its bytes one by one. -/

namespace Sys2Proof.Machine

variable {s : State} {r : Shared}

/-! ### The data sub-blocks (R223) -/

/-- The packed bytes cut into chunks of 255, the last with what remains. The first argument bounds the number of
chunks. -/
def packedBlocks : Nat → List Byte → List (List Byte)
  | 0, _ => []
  | n + 1, bs => if bs = [] then [] else bs.take 255 :: packedBlocks n (bs.drop 255)

/-- The serializer writes each chunk behind its length byte. -/
theorem serChunks_eq (n : Nat) (bs : List Byte) : serChunks n bs = (packedBlocks n bs).flatMap subBlock := by
  induction n generalizing bs with
  | zero => rfl
  | succ n ih =>
    rw [serChunks, packedBlocks]
    split
    · rfl
    · rw [ih]; rfl

theorem packedBlocks_legal (n : Nat) (bs : List Byte) : LegalBlocks (packedBlocks n bs) := by
  induction n generalizing bs with
  | zero => exact nofun
  | succ n ih =>
    rw [packedBlocks]
    split
    case isTrue => exact nofun
    case isFalse hbs =>
      have hpos : 0 < bs.length := List.length_pos_iff.2 hbs
      exact List.forall_mem_cons.2 ⟨by rw [List.length_take]; omega, ih _⟩

theorem packedBlocks_flatten {n : Nat} {bs : List Byte} (h : bs.length ≤ n) : (packedBlocks n bs).flatten = bs := by
  induction n generalizing bs with
  | zero => exact (List.length_eq_zero_iff.1 (Nat.le_zero.1 h)).symm
  | succ n ih =>
    rw [packedBlocks]
    split
    case isTrue hbs => exact hbs.symm
    case isFalse => rw [List.flatten_cons, ih (by rw [List.length_drop]; omega), List.take_append_drop]

/-! ### The container is one of the layout (20_memory.md R69) -/

theorem serContainer_eq (r : Shared) :
    serContainer r = containerOf r.iw r.ih r.iw r.ih (serEntries r) (packedBlocks r.pbuf.length r.pbuf) := by
  rw [← List.append_nil (containerOf ..), containerOf_append, serContainer, serChunks_eq, serTable_eq]
  simp only [serScreen, serImage, List.append_assoc]
  rfl

/-- Settles O34: the container is one of the layout, and its parse gives back the fields it was laid out from. -/
theorem parserInvertsTheSerializer : Obligations.ParserInvertsTheSerializer := by
  intro s hp hn hw
  have hlen := length_serEntries hn
  have hparse := parParse_containerOf s.shared.iw s.shared.ih s.shared.iw s.shared.ih [] hlen
    (packedBlocks_legal s.shared.pbuf.length s.shared.pbuf)
  rw [List.append_nil, ← serContainer_eq] at hparse
  refine ⟨_, _, exec_serRun_fits hp hn hw, execParRun_next.2 ⟨hp, parRun_ok hparse _⟩, rfl, rfl, rfl, rfl, rfl, rfl,
    rfl, packedBlocks_flatten (Nat.le_refl _), rfl, fun i hi => ?_⟩
  exact Option.some.inj ((getElem?_eq_palWrite s.shared.pal hlen i hi).symm.trans (serEntries_getElem? hi))

/-! ### The bytes of the sub-blocks, chunk by chunk (R223) -/

theorem serChunks_of_ne_nil {bs : List Byte} (h : bs ≠ []) (n : Nat) :
    serChunks (n + 1) bs =
      BitVec.ofNat 8 (min 255 bs.length) :: (bs.take 255 ++ serChunks n (bs.drop 255)) := by
  rw [serChunks, if_neg h, List.length_take]
  rfl

theorem length_serChunks {n : Nat} {bs : List Byte} (h : bs.length ≤ n) :
    (serChunks n bs).length = bs.length + (bs.length + 254) / 255 := by
  induction n generalizing bs with
  | zero => rw [Nat.le_zero.1 h]; rfl
  | succ n ih =>
    obtain rfl | hbs := eq_or_ne bs []
    · rfl
    · have hpos : 0 < bs.length := List.length_pos_iff.2 hbs
      rw [serChunks_of_ne_nil hbs, List.length_cons, List.length_append, ih (by rw [List.length_drop]; omega),
        List.length_take, List.length_drop]
      omega

/-- Behind a whole chunk and its length byte the rest is cut in the same way. -/
theorem serChunks_next {bs : List Byte} (h : 255 ≤ bs.length) (n i : Nat) :
    (serChunks (n + 1) bs)[256 + i]? = (serChunks n (bs.drop 255))[i]? := by
  have htake : (bs.take 255).length = 255 := by rw [List.length_take]; omega
  rw [serChunks_of_ne_nil (List.length_pos_iff.1 (by omega)), show 256 + i = 255 + i + 1 by omega,
    List.getElem?_cons_succ, List.getElem?_append_right (by omega), htake, Nat.add_sub_cancel_left]

theorem serChunks_lengthByte {n : Nat} {bs : List Byte} (h : bs.length ≤ n) {q : Nat} (hq : 255 * q < bs.length) :
    (serChunks n bs)[256 * q]? = some (BitVec.ofNat 8 (min 255 (bs.length - 255 * q))) := by
  induction q generalizing n bs with
  | zero =>
    obtain ⟨n, rfl⟩ : ∃ m, n = m + 1 := ⟨n - 1, by omega⟩
    rw [serChunks_of_ne_nil (List.length_pos_iff.1 (by omega)), Nat.mul_zero, Nat.sub_zero,
      List.getElem?_cons_zero]
  | succ q ih =>
    obtain ⟨n, rfl⟩ : ∃ m, n = m + 1 := ⟨n - 1, by omega⟩
    rw [show 256 * (q + 1) = 256 + 256 * q by omega, serChunks_next (by omega),
      ih (by rw [List.length_drop]; omega) (by rw [List.length_drop]; omega), List.length_drop, Nat.sub_sub,
      show 255 + 255 * q = 255 * (q + 1) by omega]

theorem serChunks_dataByte {n : Nat} {bs : List Byte} (h : bs.length ≤ n) {q i : Nat} (hi : i < 255)
    (hq : 255 * q + i < bs.length) : (serChunks n bs)[1 + 256 * q + i]? = bs[255 * q + i]? := by
  induction q generalizing n bs with
  | zero =>
    obtain ⟨n, rfl⟩ : ∃ m, n = m + 1 := ⟨n - 1, by omega⟩
    rw [serChunks_of_ne_nil (List.length_pos_iff.1 (by omega)), show 1 + 256 * 0 + i = i + 1 by omega,
      List.getElem?_cons_succ, List.getElem?_append_left (by rw [List.length_take]; omega),
      List.getElem?_take_of_lt hi, Nat.mul_zero, Nat.zero_add]
  | succ q ih =>
    obtain ⟨n, rfl⟩ : ∃ m, n = m + 1 := ⟨n - 1, by omega⟩
    rw [show 1 + 256 * (q + 1) + i = 256 + (1 + 256 * q + i) by omega, serChunks_next (by omega),
      ih (by rw [List.length_drop]; omega) (by rw [List.length_drop]; omega), List.getElem?_drop,
      show 255 + (255 * q + i) = 255 * (q + 1) + i by omega]

/-! ### The bytes of the container (R217 to R224, R226) -/

/-- Byte `j` of entry `i` of a colour table. -/
theorem getElem?_flatMap_bytes (cs : List RGB) (i : Nat) {j : Nat} (hj : j < 3) :
    (cs.flatMap RGB.bytes)[3 * i + j]? = cs[i]?.bind fun c => c.bytes[j]? := by
  induction cs generalizing i with
  | nil => rfl
  | cons c cs ih =>
    have hlen : c.bytes.length = 3 := rfl
    rw [List.flatMap_cons]
    cases i with
    | zero => rw [Nat.mul_zero, Nat.zero_add, List.getElem?_append_left (by omega)]; rfl
    | succ i =>
      rw [List.getElem?_append_right (by omega), hlen, show 3 * (i + 1) + j - 3 = 3 * i + j by omega, ih,
        List.getElem?_cons_succ]

theorem length_serScreen (r : Shared) : (serScreen r).length = 13 := rfl

theorem length_serImage (r : Shared) : (serImage r).length = 11 := rfl

theorem length_serTable (hn : r.plen ≤ 256) : (serTable r).length = 768 := by
  rw [serTable_eq, length_flatMap_bytes, length_serEntries hn]

theorem length_serContainer (hn : r.plen ≤ 256) :
    (serContainer r).length = 794 + r.pbuf.length + (r.pbuf.length + 254) / 255 := by
  simp only [serContainer, List.length_append, length_serScreen, length_serTable hn, length_serImage,
    length_serChunks (Nat.le_refl _), List.length_cons, List.length_nil]
  omega

theorem serContainer_take_screen (r : Shared) : (serContainer r).take 13 = serScreen r := by
  simp only [serContainer, List.append_assoc]
  exact List.take_left' (length_serScreen r)

theorem serContainer_drop_screen (r : Shared) :
    (serContainer r).drop 13 = serTable r ++ (serImage r ++ (serChunks r.pbuf.length r.pbuf ++ [0x00, 0x3B])) := by
  simp only [serContainer, List.append_assoc]
  exact List.drop_left' (length_serScreen r)

theorem serContainer_drop_table (hn : r.plen ≤ 256) :
    (serContainer r).drop 781 = serImage r ++ (serChunks r.pbuf.length r.pbuf ++ [0x00, 0x3B]) := by
  rw [show 781 = 13 + 768 from rfl, ← List.drop_drop, serContainer_drop_screen, List.drop_left' (length_serTable hn)]

theorem serContainer_drop_image (hn : r.plen ≤ 256) :
    (serContainer r).drop 792 = serChunks r.pbuf.length r.pbuf ++ [0x00, 0x3B] := by
  rw [show 792 = 781 + 11 from rfl, ← List.drop_drop, serContainer_drop_table hn, List.drop_left' (length_serImage r)]

theorem serContainer_drop_chunks (hn : r.plen ≤ 256) :
    (serContainer r).drop (792 + r.pbuf.length + (r.pbuf.length + 254) / 255) = [0x00, 0x3B] := by
  rw [Nat.add_assoc, ← List.drop_drop, serContainer_drop_image hn, List.drop_left' (length_serChunks (Nat.le_refl _))]

/-- A byte of the colour table. -/
theorem serContainer_entry (hn : r.plen ≤ 256) {i j : Nat} (hi : i < 256) (hj : j < 3) :
    (serContainer r)[13 + (3 * i + j)]? = (if i < r.plen then r.pal[i] else ⟨0, 0, 0⟩ : RGB).bytes[j]? := by
  rw [← List.getElem?_drop, serContainer_drop_screen, List.getElem?_append_left (by rw [length_serTable hn]; omega),
    serTable_eq, getElem?_flatMap_bytes _ _ hj, serEntries_getElem? hi, Option.bind_some]

/-- A byte of the sub-blocks. -/
theorem serContainer_chunk (hn : r.plen ≤ 256) {i : Nat} {b : Byte}
    (h : (serChunks r.pbuf.length r.pbuf)[i]? = some b) : (serContainer r)[792 + i]? = some b := by
  obtain ⟨hi, -⟩ := List.getElem?_eq_some_iff.1 h
  rw [← List.getElem?_drop, serContainer_drop_image hn, List.getElem?_append_left hi, h]

/-- Settles O30: the container is the screen, the table, the image, the chunks and the trailer, of these lengths. -/
theorem serializerWritesTheLayout : Obligations.SerializerWritesTheLayout := by
  intro s hp hn hw
  refine ⟨_, exec_serRun_fits hp hn hw, rfl, rfl, rfl, length_serContainer hn, serContainer_take_screen _, ?table,
    ?image, ?lengthByte, ?dataByte, serContainer_drop_chunks hn⟩
  case table =>
    intro i hi
    refine ⟨serContainer_entry (j := 0) hn hi (by decide), ?_, ?_⟩
    · rw [show 14 + 3 * i = 13 + (3 * i + 1) by omega]
      exact serContainer_entry hn hi (by decide)
    · rw [show 15 + 3 * i = 13 + (3 * i + 2) by omega]
      exact serContainer_entry hn hi (by decide)
  case image =>
    show ((serContainer s.shared).drop 781).take 11 = serImage s.shared
    rw [serContainer_drop_table hn, List.take_left' (length_serImage _)]
  case lengthByte => exact fun j hj => serContainer_chunk hn (serChunks_lengthByte (Nat.le_refl _) hj)
  case dataByte =>
    intro j hj
    have hsplit : 255 * (j / 255) + j % 255 = j := Nat.div_add_mod j 255
    have hdata := serChunks_dataByte (Nat.le_refl _) (Nat.mod_lt j (by decide)) (hsplit.symm ▸ hj)
    rw [hsplit, List.getElem?_eq_getElem hj] at hdata
    rw [List.getElem?_eq_getElem hj,
      show 793 + 256 * (j / 255) + j % 255 = 792 + (1 + 256 * (j / 255) + j % 255) by omega]
    exact serContainer_chunk hn hdata

end Sys2Proof.Machine
end

section
/-! PROOFS. The parser's readers, field by field (45_parser.md R238 to R244): a field stands at the cursor and is read,
or its decoder rejects the bytes and the parser fails there. -/

namespace Sys2Proof.Machine

/-! ### What can stand at a field -/

theorem parExpect_cases (want bs : List Byte) (p : Nat) :
    (∃ rest, bs = want ++ rest) ∨
    parExpect want ⟨p, bs⟩ = .error p ∧ ∀ i, ∃ why, fixedField want i bs = .error why := by
  by_cases hval : bs.take want.length = want
  · exact .inl ⟨bs.drop want.length, by conv => lhs; rw [← List.take_append_drop want.length bs, hval]⟩
  · refine .inr ⟨?_, fun i => ?_⟩
    · by_cases hlen : bs.length < want.length <;> simp [parExpect, parTake, bind, Except.bind, hlen, hval]
    · by_cases hlen : bs.length < want.length <;> simp [fixedField, hlen, hval]

theorem parDim_cases (bs : List Byte) (p : Nat) :
    (∃ v rest, bs = dim16 v ++ rest) ∨ parDim ⟨p, bs⟩ = .error p ∧ ∃ why, take16 bs = .error why := by
  match bs with
  | [] | [_] => exact .inr ⟨rfl, _, rfl⟩
  | lo :: hi :: rest => exact .inl ⟨le16 lo hi, rest, take16_inverts rfl⟩

/-- A table that is cut fails at the entry it ends in (R240). -/
theorem parTable_short {n : Nat} {bs : List Byte} (h : bs.length < 3 * n) (p : Nat) :
    parTable n ⟨p, bs⟩ = .error (p + 3 * (bs.length / 3)) := by
  induction n generalizing bs p with
  | zero => omega
  | succ n ih =>
    match bs with
    | [] | [_] | [_, _] => simp [parTable, parTake, bind, Except.bind]
    | r :: g :: b :: more =>
      have htake : parTake 3 ⟨p, r :: g :: b :: more⟩ = .ok ([r, g, b], ⟨p + 3, more⟩) :=
        parTake_append [r, g, b] more p
      simp only [List.length_cons] at h ⊢
      rw [parTable, htake]
      simp only [bind, Except.bind, ih (show more.length < 3 * n by omega)]
      congr 1
      omega

theorem parTable_cases (n : Nat) (bs : List Byte) (p : Nat) :
    (∃ (cs : List RGB) (rest : List Byte), cs.length = n ∧ bs = cs.flatMap RGB.bytes ++ rest) ∨
    parTable n ⟨p, bs⟩ = .error (p + 3 * (bs.length / 3)) ∧ bs.length < 3 * n := by
  obtain h | h := Nat.lt_or_ge bs.length (3 * n)
  · exact .inr ⟨parTable_short h p, h⟩
  · have htake : (bs.take (3 * n)).length = 3 * n := List.length_take_of_le h
    exact .inl ⟨triples (bs.take (3 * n)), bs.drop (3 * n), length_triples n _ htake,
      by rw [flatMap_bytes_triples htake, List.take_append_drop]⟩

theorem decodeField_blocks_cons {b : Byte} (hb : b ≠ 0) (rest : List Byte) :
    decodeField .blocks (b :: rest) = takeN b.toNat .contSubblock rest := if_neg hb

/-- At the sub-blocks: the terminator, a whole sub-block, or neither. -/
theorem parBlocks_cases (bs : List Byte) :
    (∃ rest, bs = 0x00 :: rest) ∨
    (∃ b rest, (1 ≤ b.length ∧ b.length ≤ 255) ∧ bs = subBlock b ++ rest) ∨
    (∀ n p, parBlocks n ⟨p, bs⟩ = .error p) ∧ ∃ why, decodeField .blocks bs = .error why := by
  match bs with
  | [] => exact .inr (.inr ⟨fun n p => by cases n <;> rfl, _, rfl⟩)
  | b :: more =>
    by_cases hb : b = 0
    · exact .inl ⟨more, by rw [hb]⟩
    have hpos : b.toNat ≠ 0 := fun h => hb (BitVec.eq_of_toNat_eq h)
    obtain hlen | hlen := Nat.lt_or_ge more.length b.toNat
    · refine .inr (.inr ⟨fun n p => ?_, .truncated, (decodeField_blocks_cons hb more).trans (if_pos hlen)⟩)
      cases n with
      | zero => rfl
      | succ n => simp [parBlocks, parTake, bind, Except.bind, hpos, hlen]
    · have htake : (more.take b.toNat).length = b.toNat := List.length_take_of_le hlen
      refine .inr (.inl ⟨more.take b.toNat, more.drop b.toNat, by have := b.isLt; omega, ?_⟩)
      rw [subBlock, htake, ← select_eq rfl, List.cons_append, List.take_append_drop]

/-- A parse reads on behind a sub-block with its bytes in front. -/
theorem parBlocks_subBlock_bind {α : Type} {b : List Byte} (hb : 1 ≤ b.length ∧ b.length ≤ 255) (n : Nat)
    (rest : List Byte) (p : Nat) (k : List Byte × Cursor → Except Nat α) :
    parBlocks (n + 1) ⟨p, subBlock b ++ rest⟩ >>= k =
      parBlocks n ⟨p + (b.length + 1), rest⟩ >>= fun r => k (b ++ r.1, r.2) := by
  rw [parBlocks_subBlock hb.1 hb.2]
  exact bind_map_left _ _ _

/-! ### What a parse answers (20_memory.md R69, 45_parser.md R236) -/

variable {pre want rest cont : List Byte}

/-- A parse that completes has read a container of the layout from the start, and stands behind it; a parse that fails
stands inside the bytes. -/
def ParseOf (cont : List Byte) : Except Nat (ParLocals × Nat) → Prop
  | .ok (l, pos) => l.pal.length = 256 ∧ ∃ blocks extra, LegalBlocks blocks ∧ l.buf = blocks.flatten ∧
      cont = containerOf l.lsw l.lsh l.iw l.ih l.pal blocks ++ extra ∧
      pos = (containerOf l.lsw l.lsh l.iw l.ih l.pal blocks).length
  | .error pos => pos ≤ cont.length

/-! One reader behind the bytes `pre` already read. -/

theorem ParseOf.fail {n : Nat} (h : n ≤ rest.length) : ParseOf (pre ++ rest) (.error (pre.length + n)) := by
  simpa [ParseOf] using h

/-- The bytes read join those before the cursor. -/
theorem ParseOf.read {v : List Byte} {n : Nat} (hn : v.length = n) (k : Cursor → Except Nat (ParLocals × Nat))
    (h : ParseOf (pre ++ v ++ rest) (k ⟨(pre ++ v).length, rest⟩)) :
    ParseOf (pre ++ (v ++ rest)) (k ⟨pre.length + n, rest⟩) := by
  rwa [List.length_append, hn, List.append_assoc] at h

theorem ParseOf.expect {k : Cursor → Except Nat (ParLocals × Nat)}
    (h : ∀ rest, ParseOf (pre ++ want ++ rest) (k ⟨(pre ++ want).length, rest⟩)) :
    ParseOf (pre ++ rest) (parExpect want ⟨pre.length, rest⟩ >>= k) := by
  obtain ⟨rest, rfl⟩ | ⟨hfail, -⟩ := parExpect_cases want rest pre.length
  · rw [parExpect_append]
    exact .read rfl k (h rest)
  · rw [hfail]
    exact .fail (Nat.zero_le _)

theorem ParseOf.dim {k : Dim × Cursor → Except Nat (ParLocals × Nat)}
    (h : ∀ v rest, ParseOf (pre ++ dim16 v ++ rest) (k (v, ⟨(pre ++ dim16 v).length, rest⟩))) :
    ParseOf (pre ++ rest) (parDim ⟨pre.length, rest⟩ >>= k) := by
  obtain ⟨v, rest, rfl⟩ | ⟨hfail, -⟩ := parDim_cases rest pre.length
  · rw [parDim_append]
    exact .read rfl (fun c => k (v, c)) (h v rest)
  · rw [hfail]
    exact .fail (Nat.zero_le _)

theorem ParseOf.table {n : Nat} {k : List RGB × Cursor → Except Nat (ParLocals × Nat)}
    (h : ∀ cs rest, cs.length = n →
      ParseOf (pre ++ cs.flatMap RGB.bytes ++ rest) (k (cs, ⟨(pre ++ cs.flatMap RGB.bytes).length, rest⟩))) :
    ParseOf (pre ++ rest) (parTable n ⟨pre.length, rest⟩ >>= k) := by
  obtain ⟨cs, rest, rfl, rfl⟩ | ⟨hfail, -⟩ := parTable_cases n rest pre.length
  · rw [parTable_append]
    exact .read (length_flatMap_bytes cs) (fun c => k (cs, c)) (h cs rest rfl)
  · rw [hfail]
    exact .fail (Nat.mul_div_le ..)

/-- The sub-blocks and their terminator; the bytes behind one sub-block are read as the sequence without it. -/
theorem ParseOf.blocks {n : Nat} {k : List Byte × Cursor → Except Nat (ParLocals × Nat)}
    (h : ∀ blocks rest, LegalBlocks blocks →
      ParseOf (pre ++ (blocks.flatMap subBlock ++ [0x00]) ++ rest)
        (k (blocks.flatten, ⟨(pre ++ (blocks.flatMap subBlock ++ [0x00])).length, rest⟩))) :
    ParseOf (pre ++ rest) (parBlocks n ⟨pre.length, rest⟩ >>= k) := by
  induction n generalizing pre rest k with
  | zero => exact .fail (Nat.zero_le _)
  | succ n ihn =>
    obtain ⟨rest, rfl⟩ | ⟨b, rest, hb, rfl⟩ | ⟨hfail, -⟩ := parBlocks_cases rest
    · rw [parBlocks_terminator]
      exact .read (v := [0x00]) rfl (fun c => k ([], c)) (h [] rest nofun)
    · rw [parBlocks_subBlock_bind hb]
      refine .read (length_subBlock b) (fun c => parBlocks n c >>= _) (ihn fun blocks rest hbs => ?_)
      have := h (b :: blocks) rest (List.forall_mem_cons.2 ⟨hb, hbs⟩)
      simpa only [List.flatMap_cons, List.flatten_cons, List.append_assoc] using this
    · rw [hfail]
      exact .fail (Nat.zero_le _)

/-- The readers in byte order; the bytes they leave before the cursor are the layout's. -/
theorem parParse_parseOf (cont : List Byte) : ParseOf cont (parParse cont) := by
  refine ParseOf.expect (pre := []) fun _ => ?_
  refine ParseOf.dim fun lsw _ => ?_
  refine ParseOf.dim fun lsh _ => ?_
  refine ParseOf.expect fun _ => ParseOf.expect fun _ => ParseOf.expect fun _ => ?_
  refine ParseOf.table fun pal _ hpal => ?_
  refine ParseOf.expect fun _ => ParseOf.expect fun _ => ParseOf.expect fun _ => ?_
  refine ParseOf.dim fun iw _ => ?_
  refine ParseOf.dim fun ih _ => ?_
  refine ParseOf.expect fun _ => ParseOf.expect fun _ => ?_
  refine ParseOf.blocks fun blocks _ hb => ?_
  refine ParseOf.expect fun extra => ?_
  have hcont := containerOf_append lsw lsh iw ih pal blocks []
  rw [List.append_nil] at hcont
  exact ⟨hpal, blocks, extra, hb, rfl, by simp [hcont], by simp [hcont]⟩

end Sys2Proof.Machine
end

section
/-! PROOFS. The parse done one field a step (45_parser.md R252, log 9): from each field on it does what `PAR.RUN` does
from there on. -/

namespace Sys2Proof.Machine

variable {s t u : State} {i : Instr} {f nxt : ContField} {l : ParLocals} {c : Cursor} {n : Nat} {want : List Byte}
  {k : Cursor → Except Nat (ParLocals × Nat)} {r : Except Nat (ParLocals × Nat)}

/-! ### The container fields as instructions -/

/-- Every container field asks first that the core is not paused, then that the parse stands at it. -/
theorem exec_of_encode_contIn (h : (encode i).1 = .contIn f) (s : State) :
    ∃ t, exec i s = whenEnabled [running s, atField f s] t := by
  cases i <;> cases h <;> exact ⟨_, rfl⟩

theorem exec_atField (hx : exec i s = whenEnabled [running s, atField f s] t) (hp : s.paused = false)
    (hf : s.par.next = f) : exec i s = .next t := by
  rw [hx, whenEnabled_pass (running_true hp), whenEnabled_pass (decide_eq_true hf), whenEnabled_nil]

theorem exec_notAtField (hx : exec i s = whenEnabled [running s, atField f s] t) (hp : s.paused = false)
    (hf : s.par.next ≠ f) : exec i s = .refused .notAtField := by
  rw [hx, whenEnabled_pass (running_true hp), whenEnabled_stop (decide_eq_false hf)]
  rfl

/-- Settles O42: each field's meaning is its read behind the two tests; the trailer's is the commit of the locals. -/
theorem fieldsAreReadInOrder : Obligations.FieldsAreReadInOrder := by
  intro s v pal data hp p read
  refine ⟨exec_atField rfl hp, exec_atField rfl hp, exec_atField rfl hp, exec_atField rfl hp, exec_atField rfl hp,
    exec_atField rfl hp, ?table, exec_atField rfl hp, exec_atField rfl hp, exec_atField rfl hp, exec_atField rfl hp,
    exec_atField rfl hp, exec_atField rfl hp, exec_atField rfl hp, exec_atField rfl hp, exec_atField rfl hp, ?trailer,
    ?elsewhere⟩
  case table =>
    intro hat hpal
    have h768 : 768 = 3 * pal.length := by omega
    simp only [read, h768]
    exact exec_atField rfl hp hat
  case trailer =>
    intro hat hpal
    exact ⟨_, exec_atField rfl hp hat, rfl, rfl, rfl, rfl, rfl, rfl, rfl, rfl, getElem?_eq_palWrite s.shared.pal hpal⟩
  case elsewhere =>
    intro i f hi hne
    obtain ⟨t, hx⟩ := exec_of_encode_contIn hi s
    exact exec_notAtField hx hp hne

/-! ### Runs of steps -/

theorem run_succ_of_next {M : Host.Core} {a b : M.State} (h : M.step a = .next b) (k : Nat) :
    M.run (k + 1) a = M.run k b := by
  simp only [Host.Core.run, h]

theorem run_succ_of_step (h : step s = .next u) (k : Nat) : Host.Core.run core (k + 1) s = Host.Core.run core k u :=
  run_succ_of_next h k

/-- How a parse with this answer ends. -/
def parEnd : Except Nat (ParLocals × Nat) → State → State
  | .ok (l, pos), s => parCommit l pos s
  | .error pos, s => parFail pos s

theorem parRun_eq_parEnd (cont : List Byte) (s : State) : parRun cont s = parEnd (parParse cont) s := by
  unfold parRun
  cases parParse cont <;> rfl

/-- The end of a parse does not depend on unit PAR before it. -/
theorem parEnd_setPar (r : Except Nat (ParLocals × Nat)) (p : Par) (s : State) :
    parEnd r (s.setPar p) = parEnd r s := by
  cases r <;> rfl

/-- A parse field by field stands at `f` with the locals `l`, and all that is issued are the bytes from the cursor on. -/
structure StandsAt (f : ContField) (l : ParLocals) (c : Cursor) (s : State) : Prop where
  paused : s.paused = false
  next   : s.par.next = f
  loc    : s.par.loc = l
  start  : fieldStart s = c.pos
  inq    : s.inq = [.cont c.rest]

/-- From there on the steps end as a parse with the answer `r` does. -/
def StepsTo (f : ContField) (l : ParLocals) (c : Cursor) (r : Except Nat (ParLocals × Nat)) : Prop :=
  ∀ s, StandsAt f l c s → ∃ k, Host.Core.run core k s = .next (parEnd r (s.setInq []))

theorem step_of_standsAt (h : StandsAt f l c s) : step s = stepCont c.rest (s.setInq []) := step_of_inq_cons h.inq

/-- The word of a field there is read, and what is behind it stays issued. -/
theorem step_of_word (h : StandsAt f l ⟨c.pos, (encode i).2 ++ c.rest⟩ s) (hw : i.wellFormed = true)
    (he : (encode i).1 = .contIn f) : step s = exec i (s.setInq (afterField i c.rest [])) := by
  have hd : decode (.contIn (s.setInq []).par.next) ((encode i).2 ++ c.rest) = .ok (i, c.rest) := by
    have := Laws.WordRoundTrip.roundTrip i hw c.rest
    rwa [he, ← h.next] at this
  exact (step_of_standsAt h).trans (stepCont_of_decode_ok hd)

/-- One step that leaves the parse at another field, with bytes left. -/
theorem StepsTo.of_step {g : ContField} {m : ParLocals} {d : Cursor} (hr : StepsTo g m d r) (hg : g ≠ .sig)
    (h : ∀ s, StandsAt f l c s → ∃ p, step s = .next ((s.setInq [.cont d.rest]).setPar p) ∧
      p.next = g ∧ p.loc = m ∧ p.pos = d.pos) : StepsTo f l c r := by
  intro s hs
  obtain ⟨p, hstep, hnext, hloc, hpos⟩ := h s hs
  obtain ⟨k, hk⟩ := hr ((s.setInq [.cont d.rest]).setPar p)
    ⟨hs.paused, hnext, hloc, (if_neg (hnext ▸ hg)).trans hpos, rfl⟩
  exact ⟨k + 1, by rw [run_succ_of_step hstep, hk]; exact congrArg _ (parEnd_setPar r p (s.setInq []))⟩

/-- Bytes that are no legal field, but for the colour table (R246). -/
theorem StepsTo.illegal {bs : List Byte} {p : Nat} (hf : f ≠ .gct) (h : ∃ why, decodeField f bs = .error why) :
    StepsTo f l ⟨p, bs⟩ (.error p) := by
  intro s hs
  obtain ⟨why, hd⟩ := h
  have hstep := (step_of_standsAt hs).trans (stepCont_of_decode_error hs.paused (by rw [← hd, ← hs.next]; rfl))
  have hfail : fieldIllegal bs (s.setInq []) = parFail p (s.setInq []) := by
    rw [fieldIllegal, if_neg (by rw [← hs.next] at hf; exact hf)]
    exact congrArg (parFail · _) hs.start
  exact ⟨1, by rw [run_succ_of_step hstep, hfail]; rfl⟩

/-- A field other than the signature and the trailer is read. -/
theorem StepsTo.word {g : ParLocals → ParLocals} {rest : List Byte} {p : Nat} (hw : i.wellFormed = true)
    (he : (encode i).1 = .contIn f)
    (hx : ∀ s, exec i s = whenEnabled [running s, atField f s] (fieldRead n nxt (g s.par.loc) s))
    (hf : f ≠ .sig ∧ f ≠ .trailer ∧ nxt ≠ .sig) (hr : StepsTo nxt (g l) ⟨p + n, rest⟩ r) :
    StepsTo f l ⟨p, (encode i).2 ++ rest⟩ r := by
  obtain ⟨hsig, htrailer, hnxt⟩ := hf
  have hi : i ≠ .contTrailer := by rintro rfl; exact htrailer (Port.contIn.inj he).symm
  refine hr.of_step hnxt fun s hs => ?_
  have hstart : s.par.pos = p := (if_neg (hs.next ▸ hsig)).symm.trans hs.start
  have hstep : step s = exec i (s.setInq (afterField i rest [])) := step_of_word (c := ⟨p, rest⟩) hs hw he
  rw [afterField, if_neg hi] at hstep
  exact ⟨_, hstep.trans (exec_atField (hx _) hs.paused hs.next), rfl, congrArg g hs.loc, congrArg (· + n) hstart⟩

/-! ### The readers of `PAR.RUN`, each with the field it reads -/

theorem StepsTo.sig (hk : ∀ c, StepsTo .lsw {} c (k c)) (bs : List Byte) :
    StepsTo .sig l ⟨0, bs⟩ (parExpect signature ⟨0, bs⟩ >>= k) := by
  obtain ⟨rest, rfl⟩ | ⟨hfail, hdecode⟩ := parExpect_cases signature bs 0
  · rw [parExpect_append]
    refine (hk ⟨_, rest⟩).of_step (by decide) fun s hs => ?_
    have hstep : step s = exec .contSig (s.setInq [.cont rest]) :=
      step_of_word (i := .contSig) (c := ⟨0, rest⟩) hs rfl rfl
    exact ⟨_, hstep.trans (exec_atField rfl hs.paused hs.next), rfl, rfl, rfl⟩
  · rw [hfail]
    exact .illegal (by decide) (hdecode _)

theorem StepsTo.expect (i : Instr) (he : encode i = (.contIn f, want)) (hd : decodeField f = fixedField want i)
    (hx : ∀ s, exec i s = whenEnabled [running s, atField f s] (fieldRead want.length nxt s.par.loc s))
    (hk : ∀ c, StepsTo nxt l c (k c)) (hw : i.wellFormed = true := by rfl)
    (hf : f ≠ .sig ∧ f ≠ .trailer ∧ nxt ≠ .sig := by decide) (hgct : f ≠ .gct := by decide) :
    StepsTo f l c (parExpect want c >>= k) := by
  obtain ⟨rest, hrest⟩ | ⟨hfail, hdecode⟩ := parExpect_cases want c.rest c.pos
  · obtain ⟨p, bs⟩ := c
    obtain rfl : bs = want ++ rest := hrest
    rw [parExpect_append]
    have := StepsTo.word (p := p) hw (congrArg Prod.fst he) (g := id) hx hf (hk ⟨_, rest⟩)
    rwa [he] at this
  · rw [hfail]
    exact .illegal hgct (hd ▸ hdecode i)

theorem StepsTo.dim {k : Dim × Cursor → Except Nat (ParLocals × Nat)} (mk : Dim → Instr)
    (g : Dim → ParLocals → ParLocals) (he : ∀ v, encode (mk v) = (.contIn f, dim16 v))
    (hd : decodeField f = operand take16 mk)
    (hx : ∀ v s, exec (mk v) s = whenEnabled [running s, atField f s] (fieldRead 2 nxt (g v s.par.loc) s))
    (hk : ∀ v c, StepsTo nxt (g v l) c (k (v, c))) (hw : ∀ v, (mk v).wellFormed = true := by intro v; rfl)
    (hf : f ≠ .sig ∧ f ≠ .trailer ∧ nxt ≠ .sig := by decide) (hgct : f ≠ .gct := by decide) :
    StepsTo f l c (parDim c >>= k) := by
  obtain ⟨v, rest, hrest⟩ | ⟨hfail, why, hdecode⟩ := parDim_cases c.rest c.pos
  · obtain ⟨p, bs⟩ := c
    obtain rfl : bs = dim16 v ++ rest := hrest
    rw [parDim_append]
    have := StepsTo.word (p := p) (hw v) (congrArg Prod.fst (he v)) (hx v) hf (hk v ⟨_, rest⟩)
    rwa [he] at this
  · rw [hfail]
    exact .illegal hgct ⟨why, by rw [hd, operand, hdecode]⟩

theorem StepsTo.table {k : List RGB × Cursor → Except Nat (ParLocals × Nat)}
    (hk : ∀ pal c, StepsTo .sep { l with pal := pal } c (k (pal, c))) :
    StepsTo .gct l c (parTable Config.gctEntries c >>= k) := by
  obtain ⟨pal, rest, hpal, hrest⟩ | ⟨hfail, hshort⟩ := parTable_cases Config.gctEntries c.rest c.pos
  · obtain ⟨p, bs⟩ := c
    obtain rfl : bs = pal.flatMap RGB.bytes ++ rest := hrest
    rw [← hpal, parTable_append]
    exact StepsTo.word (i := .contGct pal) (g := fun l => { l with pal := pal }) (decide_eq_true hpal) rfl
      (fun _ => rfl) (by decide) (hk pal ⟨_, rest⟩)
  · rw [hfail]
    intro s hs
    have hstep := (step_of_standsAt hs).trans
      (stepCont_of_decode_error hs.paused (why := .truncated) (by rw [State.setInq_par, hs.next]; exact if_pos hshort))
    have hend : fieldIllegal c.rest (s.setInq []) = parFail (c.pos + 3 * (c.rest.length / 3)) (s.setInq []) := by
      rw [fieldIllegal, if_pos (by exact hs.next)]
      exact congrArg (fun p => parFail (p + _) _) hs.start
    exact ⟨1, by rw [run_succ_of_step hstep, hend]; rfl⟩

theorem StepsTo.blocks {k : List Byte × Cursor → Except Nat (ParLocals × Nat)} (hn : c.rest.length < n)
    (hk : ∀ buf c, StepsTo .trailer { l with buf := l.buf ++ buf } c (k (buf, c))) :
    StepsTo .blocks l c (parBlocks n c >>= k) := by
  induction n generalizing l c k with
  | zero => exact absurd hn (Nat.not_lt_zero _)
  | succ n ihn =>
    obtain ⟨p, bs⟩ := c
    obtain ⟨rest, rfl⟩ | ⟨b, rest, hb, rfl⟩ | ⟨hfail, hdecode⟩ := parBlocks_cases bs
    · rw [parBlocks_terminator]
      have hend := hk [] ⟨p + 1, rest⟩
      rw [List.append_nil] at hend
      exact StepsTo.word (i := .contTerm) (g := id) rfl rfl (fun _ => rfl) (by decide) hend
    · rw [parBlocks_subBlock_bind hb, Nat.add_comm b.length 1]
      refine StepsTo.word (i := .contSubblock b) (g := fun l => { l with buf := l.buf ++ b }) ?_ rfl (fun _ => rfl)
        (by decide) (ihn ?_ fun buf c => ?_)
      · exact Bool.and_eq_true_iff.2 ⟨decide_eq_true hb.1, decide_eq_true hb.2⟩
      · simp only [List.length_append, length_subBlock] at hn ⊢
        omega
      · have hend := hk (b ++ buf) c
        rwa [← List.append_assoc] at hend
    · rw [hfail]
      exact .illegal (by decide) hdecode

theorem StepsTo.trailer : StepsTo .trailer l c (parExpect [0x3B] c >>= fun c => .ok (l, c.pos)) := by
  obtain ⟨p, bs⟩ := c
  obtain ⟨rest, rfl⟩ | ⟨hfail, hdecode⟩ := parExpect_cases [0x3B] bs p
  · rw [parExpect_append]
    intro s hs
    have hstep : step s = exec .contTrailer (s.setInq []) :=
      step_of_word (i := .contTrailer) (c := ⟨p, rest⟩) hs rfl rfl
    have hpos : s.par.pos = p := (if_neg (by rw [hs.next]; decide)).symm.trans hs.start
    have hcommit := hstep.trans (exec_atField rfl hs.paused hs.next)
    rw [State.setInq_par, hs.loc, hpos] at hcommit
    exact ⟨1, run_succ_of_step hcommit 0⟩
  · rw [hfail]
    exact .illegal (by decide) (hdecode _)

/-- The fields in byte order: at each, the parse's reader and the step agree, and the locals are those read so far. -/
theorem stepsTo_parParse (l : ParLocals) (cont : List Byte) : StepsTo .sig l ⟨0, cont⟩ (parParse cont) := by
  refine StepsTo.sig (fun _ => ?_) cont
  refine .dim .contLsw (fun v l => { l with lsw := v }) (fun _ => rfl) rfl (fun _ _ => rfl) fun lsw _ => ?_
  refine .dim .contLsh (fun v l => { l with lsh := v }) (fun _ => rfl) rfl (fun _ _ => rfl) fun lsh _ => ?_
  refine .expect .contSflags rfl rfl (fun _ => rfl) fun _ => ?_
  refine .expect .contBg rfl rfl (fun _ => rfl) fun _ => ?_
  refine .expect .contAspect rfl rfl (fun _ => rfl) fun _ => ?_
  refine .table fun pal _ => ?_
  refine .expect .contSep rfl rfl (fun _ => rfl) fun _ => ?_
  refine .expect .contLeft rfl rfl (fun _ => rfl) fun _ => ?_
  refine .expect .contTop rfl rfl (fun _ => rfl) fun _ => ?_
  refine .dim .contIw (fun v l => { l with iw := v }) (fun _ => rfl) rfl (fun _ _ => rfl) fun iw _ => ?_
  refine .dim .contIh (fun v l => { l with ih := v }) (fun _ => rfl) rfl (fun _ _ => rfl) fun ih _ => ?_
  refine .expect .contIflags rfl rfl (fun _ => rfl) fun _ => ?_
  refine .expect .contMincode rfl rfl (fun _ => rfl) fun _ => ?_
  refine .blocks (Nat.lt_succ_self _) fun buf _ => ?_
  exact .trailer

/-- Settles O41: from the signature on the steps read what `PAR.RUN` reads, field by field, and end as it does. -/
theorem fieldByFieldParseIsParRun : Obligations.FieldByFieldParseIsParRun := by
  intro s t cont hp hsig hq ht
  obtain ⟨-, rfl⟩ := execParRun_next.1 ht
  rw [parRun_eq_parEnd]
  exact stepsTo_parParse s.par.loc cont s ⟨hp, hsig, rfl, if_pos hsig, hq⟩

end Sys2Proof.Machine
end

section
/-! PROOFS. `PAR.RUN` as a whole (45_parser.md R236, R237, R245, R246, R248): it ends in one of two ways, and what it
accepts is a container of the layout. -/

namespace Sys2Proof.Machine

variable {s t : State} {cont extra : List Byte} {l : ParLocals} {pos : Nat}

/-! ### The two ends of a run (R236) -/

theorem exec_parRun (hp : s.paused = false) (cont : List Byte) : exec (.parRun cont) s = .next (parRun cont s) :=
  execParRun_next.2 ⟨hp, rfl⟩

theorem parParse_error_le (h : parParse cont = .error pos) : pos ≤ cont.length := by
  have hparse := parParse_parseOf cont
  rwa [h] at hparse

/-- What is accepted is a container of the layout and bytes behind it. -/
theorem parParse_ok (h : parParse cont = .ok (l, pos)) :
    l.pal.length = 256 ∧ ∃ blocks extra, LegalBlocks blocks ∧ l.buf = blocks.flatten ∧
      cont = containerOf l.lsw l.lsh l.iw l.ih l.pal blocks ++ extra ∧
      pos = (containerOf l.lsw l.lsh l.iw l.ih l.pal blocks).length := by
  have hparse := parParse_parseOf cont
  rwa [h] at hparse

theorem parParse_ok_le (h : parParse cont = .ok (l, pos)) : pos ≤ cont.length := by
  obtain ⟨-, blocks, extra, -, -, rfl, rfl⟩ := parParse_ok h
  rw [List.length_append]
  exact Nat.le_add_right _ _

/-- More bytes behind an accepted container change nothing (R245). -/
theorem parParse_append (h : parParse cont = .ok (l, pos)) (extra : List Byte) :
    parParse (cont ++ extra) = .ok (l, pos) := by
  obtain ⟨hpal, blocks, rest, hb, hbuf, rfl, rfl⟩ := parParse_ok h
  rw [List.append_assoc, parParse_containerOf _ _ _ _ _ hpal hb, ← hbuf]

/-- A run that ends `DONE` has committed a complete parse. -/
theorem parRun_done (h : exec (.parRun cont) s = .next t) (hdone : t.par.phase = .done) :
    s.paused = false ∧ ∃ l pos, parParse cont = .ok (l, pos) ∧ t = parCommit l pos s := by
  obtain ⟨hp, rfl⟩ := execParRun_next.1 h
  cases hparse : parParse cont with
  | ok r => exact ⟨hp, r.1, r.2, rfl, parRun_ok hparse s⟩
  | error pos => rw [parRun_error hparse] at hdone; exact nomatch hdone

/-- Settles O36: a complete parse is committed, a failed one raises and keeps the shared registers. -/
theorem parserEndsDoneOrFail : Obligations.ParserEndsDoneOrFail := by
  intro s cont hp
  refine ⟨_, exec_parRun hp cont, parRun_only cont s, ?_⟩
  cases hparse : parParse cont with
  | ok r => rw [parRun_ok hparse]; exact ⟨parParse_ok_le hparse, .inl ⟨rfl, rfl, rfl⟩⟩
  | error pos => rw [parRun_error hparse]; exact ⟨parParse_error_le hparse, .inr ⟨rfl, rfl, rfl⟩⟩

/-- Settles O39: the parse of the longer bytes is the same parse. -/
theorem bytesAfterTheTrailerAreIgnored : Obligations.BytesAfterTheTrailerAreIgnored := by
  intro s t cont extra h hdone
  obtain ⟨hp, l, pos, hparse, rfl⟩ := parRun_done h hdone
  rw [exec_parRun hp, parRun_ok (parParse_append hparse extra)]

/-- Settles O40: were the cut container accepted, the whole one would be accepted with the same `R_POS`, which lies
behind the cut. -/
theorem truncatedContainersFail : Obligations.TruncatedContainersFail := by
  intro s t cont n h hdone hn
  obtain ⟨hp, l, pos, hparse, rfl⟩ := parRun_done h hdone
  have hcut : (cont.take n).length ≤ n := List.length_take_le n cont
  refine ⟨_, exec_parRun hp _, ?_⟩
  cases htake : parParse (cont.take n) with
  | error p => rw [parRun_error htake]; exact ⟨rfl, rfl, (parParse_error_le htake).trans hcut⟩
  | ok r =>
    have hsame := parParse_append htake (cont.drop n)
    rw [List.take_append_drop, hparse] at hsame
    cases hsame
    exact absurd hn (Nat.not_lt.2 ((parParse_ok_le htake).trans hcut))

/-! ### The bytes of an accepted container (R238 to R244) -/

section
variable (lsw lsh iw ih : Dim) (blocks : List (List Byte)) (extra : List Byte) {pal : List RGB}

/-- The layout's parts: screen, colour table, image, sub-blocks, terminator and trailer. -/
theorem containerOf_parts (pal : List RGB) : containerOf lsw lsh iw ih pal blocks ++ extra =
    [0x47, 0x49, 0x46, 0x38, 0x39, 0x61, lo8 lsw, hi8 lsw, lo8 lsh, hi8 lsh, 0xF7, 0x00, 0x00] ++
      (pal.flatMap RGB.bytes ++ ([0x2C, 0x00, 0x00, 0x00, 0x00, lo8 iw, hi8 iw, lo8 ih, hi8 ih, 0x00, 0x08] ++
        (blocks.flatMap subBlock ++ ([0x00, 0x3B] ++ extra)))) := containerOf_append lsw lsh iw ih pal blocks extra

theorem containerOf_drop_table (hpal : pal.length = 256) : (containerOf lsw lsh iw ih pal blocks ++ extra).drop 781 =
    [0x2C, 0x00, 0x00, 0x00, 0x00, lo8 iw, hi8 iw, lo8 ih, hi8 ih, 0x00, 0x08] ++
      (blocks.flatMap subBlock ++ ([0x00, 0x3B] ++ extra)) := by
  have h768 : (pal.flatMap RGB.bytes).length = 768 := by rw [length_flatMap_bytes, hpal]
  rw [containerOf_parts, show 781 = 13 + 768 from rfl, ← List.drop_drop]
  exact List.drop_left' h768

theorem containerOf_drop_blocks (hpal : pal.length = 256) :
    (containerOf lsw lsh iw ih pal blocks ++ extra).drop ((containerOf lsw lsh iw ih pal blocks).length - 2) =
      [0x00, 0x3B] ++ extra := by
  have hlen : (containerOf lsw lsh iw ih pal blocks).length - 2 = 781 + (11 + (blocks.flatMap subBlock).length) := by
    rw [length_containerOf, hpal]
    omega
  rw [hlen, ← List.drop_drop, containerOf_drop_table lsw lsh iw ih blocks extra hpal, ← List.drop_drop]
  exact List.drop_left

end

theorem byteAt_of_drop {m j : Nat} {bs : List Byte} {b : Byte} (h : cont.drop m = bs) (hj : bs[j]? = some b) :
    ByteAt cont (m + j) b := by
  rw [ByteAt, ← List.getElem?_drop, h, hj]

/-- A whole colour table written from the first entry on is what the palette then holds. -/
theorem toList_palWrite (pal : Palette) {cs : List RGB} (h : cs.length = 256) : (palWrite pal 0 cs).toList = cs := by
  refine List.ext_getElem (by simp [h]) fun i hi _ => ?_
  rw [Vector.length_toList] at hi
  have := getElem?_eq_palWrite pal h i hi
  rw [List.getElem?_eq_getElem (by omega)] at this
  exact (Option.some.inj this).symm

/-- A byte of the colour table, behind the 13 bytes of the screen. -/
theorem byteAt_entry {pal : List RGB} {tail : List Byte} (h : cont.drop 13 = pal.flatMap RGB.bytes ++ tail) {i j : Nat}
    {c : RGB} {b : Byte} (hc : pal[i]? = some c) (hj : j < 3) (hb : c.bytes[j]? = some b) :
    ByteAt cont (13 + (3 * i + j)) b := by
  obtain ⟨hi, -⟩ := List.getElem?_eq_some_iff.1 hc
  refine byteAt_of_drop h ?_
  rw [List.getElem?_append_left (by rw [length_flatMap_bytes]; omega), getElem?_flatMap_bytes _ _ hj, hc]
  exact hb

/-- Settles O37: the accepted bytes are a container of the layout with the locals as its fields, and the commit writes
the locals. -/
theorem acceptedContainersHaveTheFixedBytes : Obligations.AcceptedContainersHaveTheFixedBytes := by
  intro s t cont h hdone
  obtain ⟨-, l, pos, hparse, rfl⟩ := parRun_done h hdone
  obtain ⟨hpal, blocks, extra, hb, hbuf, rfl, rfl⟩ := parParse_ok hparse
  have hscreen := containerOf_parts l.lsw l.lsh l.iw l.ih blocks extra l.pal
  have himage := containerOf_drop_table l.lsw l.lsh l.iw l.ih blocks extra hpal
  have hend := containerOf_drop_blocks l.lsw l.lsh l.iw l.ih blocks extra hpal
  have htable := congrArg (List.drop 13) hscreen
  have hlen := length_containerOf l.lsw l.lsh l.iw l.ih l.pal blocks
  have hlast : (containerOf l.lsw l.lsh l.iw l.ih l.pal blocks).length - 1 =
      (containerOf l.lsw l.lsh l.iw l.ih l.pal blocks).length - 2 + 1 := by omega
  have hentry := getElem?_eq_palWrite s.shared.pal hpal
  refine ⟨congrArg (List.take 6) hscreen, congrArg (fun k => (k.drop 10).take 3) hscreen,
    congrArg (List.take 5) himage, ?flags, byteAt_of_drop (j := 0) hend rfl, ?last, congrArg (·[6]?) hscreen,
    congrArg (·[7]?) hscreen, congrArg (·[8]?) hscreen, congrArg (·[9]?) hscreen,
    byteAt_of_drop (j := 5) himage rfl, byteAt_of_drop (j := 6) himage rfl, byteAt_of_drop (j := 7) himage rfl,
    byteAt_of_drop (j := 8) himage rfl, ?entries, blocks, hb, hbuf, ?layout⟩
  case flags =>
    rw [show 790 = 781 + 9 from rfl, ← List.drop_drop, himage]
    rfl
  case last =>
    show ByteAt _ ((containerOf l.lsw l.lsh l.iw l.ih l.pal blocks).length - 1) 0x3B
    rw [hlast]
    exact byteAt_of_drop hend rfl
  case entries =>
    intro i hi
    refine ⟨byteAt_entry (j := 0) htable (hentry i hi) (by decide) rfl, ?_, ?_⟩
    · rw [show 14 + 3 * i = 13 + (3 * i + 1) by omega]
      exact byteAt_entry htable (hentry i hi) (by decide) rfl
    · rw [show 15 + 3 * i = 13 + (3 * i + 2) by omega]
      exact byteAt_entry htable (hentry i hi) (by decide) rfl
  case layout =>
    show List.take (containerOf l.lsw l.lsh l.iw l.ih l.pal blocks).length _ =
      containerOf l.lsw l.lsh l.iw l.ih (palWrite s.shared.pal 0 l.pal).toList blocks
    rw [List.take_left, toList_palWrite s.shared.pal hpal]

/-! ### Serializing what was parsed (R248) -/

/-- The container depends on the two dimensions, the 256 colours and the packed bytes only. -/
theorem serContainer_congr {r r' : Shared} (hiw : r'.iw = r.iw) (hih : r'.ih = r.ih) (hpbuf : r'.pbuf = r.pbuf)
    (hpal : serEntries r' = serEntries r) : serContainer r' = serContainer r := by
  rw [serContainer_eq, serContainer_eq, hiw, hih, hpbuf, hpal]

/-- Settles O35: the parse gives back the dimensions and the packed bytes, and as palette the 256 colours written, so
that the second run writes the same container. -/
theorem secondSerializationIsTheSame : Obligations.SecondSerializationIsTheSame := by
  intro s hp hn hw
  obtain ⟨t, u, ht, hu, hdone, -, -, hiw, hih, -, -, hpbuf, hplen, hpal⟩ := parserInvertsTheSerializer s hp hn hw
  have hout : t = s.setSer ⟨.done, .none, serContainer s.shared⟩ := by
    cases (exec_serRun_fits hp hn hw).symm.trans ht
    rfl
  obtain ⟨htp, hrun⟩ := execParRun_next.1 hu
  have hup : u.paused = false := by rw [← hrun, parRun_only]; exact htp
  have huw : ReadableBySer u := hrun ▸ (parRun_record t.ser.out t).1 (hrun.symm ▸ hdone)
  have hentries : serEntries u.shared = serEntries s.shared := by
    refine List.ext_getElem? fun i => ?_
    obtain hi | hi := Nat.lt_or_ge i 256
    · rw [serEntries_getElem? hi, serEntries_getElem? hi, hplen, if_pos hi, hpal i hi]
    · rw [List.getElem?_eq_none (by rw [length_serEntries hplen.le]; exact hi),
        List.getElem?_eq_none (by rw [length_serEntries hn]; exact hi)]
  refine ⟨t, u, _, ht, hu, exec_serRun_fits hup hplen.le huw, ?_⟩
  rw [hout]
  exact serContainer_congr hiw hih hpbuf hentries

end Sys2Proof.Machine
end

section
/-! PROOFS. Control: what the pause and the resume change, and what they refuse (46_pipeline_control.md R276, R277). -/

namespace Sys2Proof.Machine

variable {s t : State} {i : Instr}

/-- What each operation's transition hangs on: all but the two control operations and `DECODE`, which makes the test
itself, test the pause before anything else (10_state.md R37). -/
theorem exec_cases (i : Instr) (s : State) :
    i = .ctlResume ∨ i = .ctlCancel ∨ (∃ cont, i = .runDecode cont) ∨
      ∃ cs t, exec i s = whenEnabled (running s :: cs) t := by
  cases i with
  | ctlResume => exact .inl rfl
  | ctlCancel => exact .inr (.inl rfl)
  | runDecode cont => exact .inr (.inr (.inl ⟨cont, rfl⟩))
  | _ => exact .inr (.inr (.inr ⟨_, _, rfl⟩))

theorem exec_runDecode_paused (hp : s.paused = true) (cont : List Byte) :
    exec (.runDecode cont) s = .refused .paused := if_pos hp

theorem exec_of_paused (hp : s.paused = true) (hresume : i ≠ .ctlResume) (hcancel : i ≠ .ctlCancel) :
    exec i s = .refused .paused := by
  rcases exec_cases i s with h | h | ⟨cont, rfl⟩ | ⟨cs, t, h⟩
  · exact absurd h hresume
  · exact absurd h hcancel
  · exact exec_runDecode_paused hp cont
  · rw [h]; exact whenEnabled_stop (by rw [running_fst, hp]; rfl)

theorem exec_ctlPause (hp : s.paused = false) : exec .ctlPause s = .next (s.setPaused true) :=
  execCtlPause_next.2 ⟨hp, rfl⟩

theorem exec_ctlResume (hp : s.paused = true) : exec .ctlResume s = .next (s.setPaused false) :=
  execCtlResume_next.2 ⟨hp, rfl⟩

theorem exec_ctlResume_refused (hp : s.paused = false) : exec .ctlResume s = .refused .notPaused := by
  show execCtlResume s = _
  rw [execCtlResume, hp, whenEnabled_refused]

/-- The pause bit was clear before the pause, so clearing it gives the state back. -/
theorem setPaused_setPaused_false (hp : s.paused = false) (b : Bool) : (s.setPaused b).setPaused false = s := by
  show s.setPaused false = s
  rw [← hp]; rfl

/-- Settles O43: `CTL.PAUSE` writes one bit, and that bit fails the first condition of every other operation. -/
theorem pauseOnlySetsThePauseBit : Obligations.PauseOnlySetsThePauseBit :=
  ⟨fun _ hp => ⟨⟨[], rfl⟩, exec_ctlPause hp⟩, fun _ _ hp hresume hcancel => exec_of_paused hp hresume hcancel⟩

/-- Settles O44: the state behind the pause and the resume is the state before them. -/
theorem resumeRestoresTheStateBeforeThePause : Obligations.ResumeRestoresTheStateBeforeThePause := by
  refine ⟨fun s hp => ⟨⟨[], rfl⟩, exec_ctlResume hp⟩, fun s is hp => ⟨exec_ctlResume_refused hp, ?_⟩⟩
  have hresume : exec .ctlResume (s.setPaused true) = .next s := by
    rw [exec_ctlResume rfl, setPaused_setPaused_false hp]
  rw [runAll_cons, exec_ctlPause hp, follow_next, runAll_cons, hresume, follow_next]

end Sys2Proof.Machine
end

section
/-! PROOFS. A decode run starts from its `DEC.INIT` (46_pipeline_control.md R281): of the state before it only the pause
counts. -/

namespace Sys2Proof.Machine

variable {s s' t : State} {c : Code} {codes : List Code}

theorem decEffect_setDec (r : DecEffect) (s s' : State) :
    decEffect r (s'.setDec s.dec) = s'.setDec (decEffect r s).dec := by
  cases r <;> rfl

/-- `DEC.CODE` in another state with the same unit DEC. -/
theorem exec_decCode_setDec (h : exec (.decCode c) s = .next t) (hp : s'.paused = false) :
    exec (.decCode c) (s'.setDec s.dec) = .next (s'.setDec t.dec) := by
  obtain ⟨-, ha, rfl⟩ := execDecCode_next.1 h
  exact execDecCode_next.2 ⟨hp, ha, decEffect_setDec _ s s'⟩

theorem exec_decEos_setDec (h : exec .decEos s = .next t) (hp : s'.paused = false) :
    exec .decEos (s'.setDec s.dec) = .next (s'.setDec t.dec) := by
  obtain ⟨-, ha, rfl⟩ := execDecEos_next.1 h
  exact execDecEos_next.2 ⟨hp, ha, decEffect_setDec _ s s'⟩

theorem decCodes_setDec (h : decCodes codes s = .next t) (hp : s'.paused = false) :
    decCodes codes (s'.setDec s.dec) = .next (s'.setDec t.dec) := by
  induction codes generalizing s with
  | nil => exact exec_decEos_setDec h hp
  | cons c codes ih =>
    rw [decCodes] at h ⊢
    obtain ⟨u, hcode, hrest⟩ := follow_eq_next.1 h
    rw [exec_decCode_setDec hcode hp, follow_next, State.setDec_dec]
    split at hrest
    case isTrue hend =>
      cases hrest
      exact if_pos hend
    case isFalse hgo => rw [if_neg hgo, ih hrest]

/-- Settles O22: behind `DEC.INIT` the two states have the same unit DEC, which is all that the codes act on. -/
theorem decodeRunsAreRestartable : Obligations.DecodeRunsAreRestartable := by
  intro s s' t codes hp hp' h
  rw [decRun_eq hp] at h
  exact ⟨s'.setDec t.dec, (decRun_eq hp').trans (decCodes_setDec h hp'), rfl, rfl⟩

end Sys2Proof.Machine
end

section
/-! PROOFS. `ENCODE` is its expansion (46_pipeline_control.md R260, R282): along the run ENC is as after its own operations,
PCK as after pushing what stands on `ENC_OUT`, and `PBUF` is `BYTE_OUT`. -/

namespace Sys2Proof.Machine

variable {s r u : State} {e f : Enc} {is : List Instr} {i : Instr} {ps : List Pair} {iw ih : Dim} {pal : List RGB}
  {x : List Byte}

/-! ### The units' parts -/

/-- Pushing pairs as they are emitted is `PCK.PUSH` of each, and appends to `PBUF` what it appends to `BYTE_OUT`. -/
theorem pushPairs_eq (hps : ∀ x ∈ ps, Pair.Fits x) (hrun : u.pck.phase = .run) (hbuf : u.shared.pbuf = u.pck.out) :
    ∃ p, pushPairs ps u = (u.setPck p).setShared { u.shared with pbuf := p.out } ∧ p.phase = .run ∧
      ∀ s : State, s.paused = false →
        runAll (ps.map fun x => .pckPush x.code x.width) (s.setPck u.pck) = .next (s.setPck p) := by
  induction ps generalizing u with
  | nil => exact ⟨u.pck, by rw [← hbuf]; rfl, hrun, fun _ _ => rfl⟩
  | cons x ps ih =>
    obtain ⟨⟨-, h9, h12⟩, hps⟩ := List.forall_mem_cons.1 hps
    have hphase := (pckPush_phase x.code x.width u.pck).trans hrun
    obtain ⟨p, hpush, hp, hrest⟩ := ih (u := packedOut (pckPush x.code x.width u.pck) u) hps hphase
      (congrArg (· ++ (pckPush x.code x.width u.pck).2) hbuf)
    refine ⟨p, hpush, hp, fun s hs => ?_⟩
    rw [List.map_cons, runAll_cons, exec_pckPush (s := s.setPck u.pck) hs hrun h9 h12, follow_next]
    exact hrest s hs

/-- A symbol in a phase that takes one raises no error and leaves ENC in `RUN`. -/
theorem encSymbol_emits (h : EncSound e) (ho : e.phase = .first ∨ e.phase = .run) (k : Byte) :
    ∃ f ps, encSymbol k e = .ok (f, ps) ∧ f.phase = .run ∧ EncSound { f with out := e.out ++ ps } ∧
      ∀ p ∈ ps, Pair.Fits p := by
  have hsound := encSymbol_sound (s := State.reset.setEnc e) h k
  obtain ⟨f, ps, hsym, hf⟩ : ∃ f ps, encSymbol k e = .ok (f, ps) ∧ f.phase = .run := by
    rcases ho with ho | ho
    · exact ⟨_, _, encSymbol_first ho k, rfl⟩
    · obtain ⟨f, ps, hsym, hf, -⟩ := encSymbol_run ho (h.run ho) k
      exact ⟨f, ps, hsym, hf⟩
  rw [State.setEnc_enc, hsym, encEffect_ok] at hsound
  exact ⟨f, ps, hsym, hf, hsound⟩

theorem exec_encSym_setEnc (hp : s.paused = false) (ho : e.phase = .first ∨ e.phase = .run) {k : Byte}
    (h : encSymbol k e = .ok (f, ps)) :
    exec (.encSym k) (s.setEnc e) = .next (s.setEnc { f with out := e.out ++ ps }) := by
  rw [exec_encSym (s := s.setEnc e) hp ho, State.setEnc_enc, h, encEffect_ok]
  rfl

/-- One round of the symbol loop, with no error raised. -/
theorem encodeSymbols_cons {k : Byte} (h : encSymbol k u.enc = .ok (f, ps))
    (hrun : (pushPairs ps (u.setEnc { f with out := u.enc.out ++ ps })).enc.phase = .run) (x : List Byte) :
    encodeSymbols (k :: x) u = encodeSymbols x (pushPairs ps (u.setEnc { f with out := u.enc.out ++ ps })) := by
  simp only [encodeSymbols, h, encEffect_ok]
  exact if_neg (by rw [hrun]; decide)

/-! ### The run -/

/-- In an `ENCODE` issued in `s` that set up the state `r`, `u` is a state in which ENC has done the operations `is` and
PCK has taken every pair on `ENC_OUT`. -/
structure Encoding (s r : State) (is : List Instr) (u : State) : Prop where
  enc     : runAll is s = .next (s.setEnc u.enc)
  pck     : runAll (.pckInit :: u.enc.out.map fun x => .pckPush x.code x.width) s = .next (s.setPck u.pck)
  packing : u.pck.phase = .run
  only    : u = ((r.setEnc u.enc).setPck u.pck).setShared { r.shared with pbuf := u.pck.out }

theorem encodeReady_encoding (hp : s.paused = false) (iw ih : Dim) (pal : List RGB) :
    Encoding s (encodeReady iw ih pal s) [.encInit] (encodeReady iw ih pal s) where
  enc     := by rw [runAll_cons, exec_encInit hp]; rfl
  pck     := by
    show runAll [.pckInit] s = _
    rw [runAll_cons, exec_pckInit hp]; rfl
  packing := rfl
  only    := rfl

/-- An operation of ENC that emits pairs, each pushed. -/
theorem Encoding.emit (h : Encoding s r is u) (hp : s.paused = false)
    (hi : exec i (s.setEnc u.enc) = .next (s.setEnc e)) (hout : e.out = u.enc.out ++ ps)
    (hps : ∀ x ∈ ps, Pair.Fits x) :
    Encoding s r (is ++ [i]) (pushPairs ps (u.setEnc e)) ∧ (pushPairs ps (u.setEnc e)).enc = e := by
  have hbuf : (u.setEnc e).shared.pbuf = u.pck.out := by rw [h.only]; rfl
  obtain ⟨p, hpush, hrun, hpck⟩ := pushPairs_eq (u := u.setEnc e) hps h.packing hbuf
  rw [hpush]
  refine ⟨⟨?enc, ?pck, hrun, ?only⟩, rfl⟩
  case enc => rw [runAll_append, h.enc, follow_next, runAll_cons, hi]; rfl
  case pck =>
    show runAll (.pckInit :: e.out.map _) s = _
    rw [hout, List.map_append, ← List.cons_append, runAll_append, h.pck]
    exact hpck s hp
  case only => rw [h.only]; rfl

/-- The symbol loop takes all of the input. -/
theorem Encoding.symbols (h : Encoding s r is u) (hp : s.paused = false) (hs : EncSound u.enc)
    (ho : u.enc.phase = .first ∨ u.enc.phase = .run) (hx : x = [] → u.enc.phase = .run) :
    Encoding s r (is ++ x.map .encSym) (encodeSymbols x u) ∧ EncSound (encodeSymbols x u).enc ∧
      (encodeSymbols x u).enc.phase = .run := by
  induction x generalizing is u with
  | nil => rw [List.map_nil, List.append_nil]; exact ⟨h, hs, hx rfl⟩
  | cons k x ih =>
    obtain ⟨f, ps, hsym, hf, hsound, hps⟩ := encSymbol_emits hs ho k
    obtain ⟨hnext, henc⟩ := h.emit hp (exec_encSym_setEnc hp ho hsym) rfl hps
    have hrun : (pushPairs ps (u.setEnc { f with out := u.enc.out ++ ps })).enc.phase = .run := by rw [henc]; exact hf
    rw [encodeSymbols_cons hsym hrun, List.map_cons, List.append_cons is (.encSym k) (x.map .encSym)]
    exact ih hnext (by rw [henc]; exact hsound) (.inr hrun) fun _ => hrun

/-- Where `ENCODE` of a non-empty input ends, with ENC and PCK at the end of their runs. -/
def encodeDone (iw ih : Dim) (pal : List RGB) (s : State) (e : Enc) (p : Pck) : State :=
  let r := encodeReady iw ih pal s
  let t := ((r.setEnc e).setPck p).setShared { r.shared with pbuf := p.out }
  (t.setSer ⟨.done, .none, serContainer t.shared⟩).setComp ⟨.done, .none⟩

/-- `PCK.FLUSH` and `SER.RUN` on what the pushes left. -/
theorem Encoding.finish (h : Encoding s (encodeReady iw ih pal s) is u) (hp : s.paused = false) (hn : pal.length ≤ 256) :
    ∃ p, pckRun u.enc.out s = .next (s.setPck p) ∧ encodeFinish u = encodeDone iw ih pal s u.enc p := by
  have hflush := exec_pckFlush (s := s.setPck u.pck) hp h.packing
  refine ⟨{ (pckFlush u.pck).1 with out := u.pck.out ++ (pckFlush u.pck).2 }, ?run, ?state⟩
  case run =>
    rw [pckRun, ← List.cons_append, runAll_append, h.pck, follow_next, runAll_cons, hflush]
    rfl
  case state =>
    have hplen : (packedOut (pckFlush u.pck) u).shared.plen ≤ 256 := by rw [h.only]; exact hn
    rw [encodeFinish, serRun_fits hplen]
    rw [h.only]
    rfl

/-- `ENCODE` with a legal palette sets up the registers first. -/
theorem encodeRun_legal (x : List Byte) (hn : pal.length ≤ 256) (s : State) :
    encodeRun iw ih pal x s =
      let u := encodeSymbols x (encodeReady iw ih pal s)
      if u.enc.phase = .fail then raise .comp u.enc.err u
      else
        let v := encEffect (encFinish u.enc) u
        if v.1.enc.phase = .fail then raise .comp v.1.enc.err v.1 else encodeFinish (pushPairs v.2 v.1) :=
  if_neg (Nat.not_lt.2 hn)

theorem encodeRun_eq (hp : s.paused = false) (hn : pal.length ≤ 256) (hx : x ≠ []) :
    ∃ e p, encRun x s = .next (s.setEnc e) ∧ pckRun e.out s = .next (s.setPck p) ∧
      encodeRun iw ih pal x s = encodeDone iw ih pal s e p := by
  obtain ⟨hsyms, hsound, hrun⟩ := (encodeReady_encoding hp iw ih pal).symbols (x := x) hp encStart_sound (.inl rfl)
    fun h => absurd h hx
  have hfits := (encFinish_sound (s := encodeSymbols x (encodeReady iw ih pal s)) hsound).2
  rw [encodeRun_legal x hn]
  generalize encodeSymbols x (encodeReady iw ih pal s) = u at hsyms hsound hrun hfits
  rw [encFinish_run hrun, encEffect_ok] at hfits
  obtain ⟨hend, henc⟩ := hsyms.emit hp (exec_encEnd_run (s := s.setEnc u.enc) hp hrun) rfl hfits
  obtain ⟨p, hpck, hdone⟩ := hend.finish hp hn
  rw [henc] at hpck hdone
  refine ⟨_, p, ?enc, hpck, ?state⟩
  case enc => rw [encRun, ← henc]; exact hend.enc
  case state =>
    simp only [hrun, encFinish_run hrun, encEffect_ok]
    exact hdone

/-! ### The empty input -/

/-- With no symbol `ENC.END` raises, and ENCODE with it. -/
theorem encodeRun_nil (hn : pal.length ≤ 256) (s : State) :
    encodeRun iw ih pal [] s = raise .comp .invalidInput (raise .enc .invalidInput (encodeReady iw ih pal s)) :=
  encodeRun_legal [] hn s

/-- Settles O45: the two errors are raised on the state that the operands have set up. -/
theorem encodeOfEmptyInputIsInvalidInput : Obligations.EncodeOfEmptyInputIsInvalidInput := by
  intro s iw ih pal hp hn
  exact ⟨_, execRunEncode_next.2 ⟨hp, encodeRun_nil hn s⟩, rfl, rfl, rfl, rfl, rfl, rfl, rfl, rfl, rfl, rfl, rfl, rfl⟩

/-! ### The whole composite -/

theorem exec_runEncode (hp : s.paused = false) (hn : pal.length ≤ 256) (hx : x ≠ []) :
    ∃ e p, encRun x s = .next (s.setEnc e) ∧ pckRun e.out s = .next (s.setPck p) ∧
      exec (.runEncode iw ih pal x) s = .next (encodeDone iw ih pal s e p) := by
  obtain ⟨e, p, henc, hpck, hrun⟩ := encodeRun_eq hp hn hx
  exact ⟨e, p, henc, hpck, execRunEncode_next.2 ⟨hp, hrun⟩⟩

/-- The operand's entries stand at the start of the palette, behind them those that were there. -/
theorem palWrite_zero_getElem (pal : Palette) (cs : List RGB) (i : Nat) (hi : i < 256) :
    some (palWrite pal 0 cs)[i] = if i < cs.length then cs[i]? else some pal[i] := by
  rw [palWrite_getElem, if_neg (Nat.not_lt_zero i), Nat.sub_zero]
  split
  case isTrue h => rw [List.getElem?_eq_getElem h, Option.getD_some]
  case isFalse h => rw [List.getElem?_eq_none (Nat.le_of_not_lt h), Option.getD_none]

/-- `SER.RUN` after `ENCODE` is enabled and writes the same container again. -/
theorem exec_serRun_encodeDone (hp : s.paused = false) (hn : pal.length ≤ 256) (e : Enc) (p : Pck) :
    exec .serRun (encodeDone iw ih pal s e p) = .next (encodeDone iw ih pal s e p) :=
  exec_serRun_fits (s := encodeDone iw ih pal s e p) hp hn (encodeReady_readable iw ih hn s)

/-- Settles O46: the state where `ENCODE` ends is written out. -/
theorem encodeIsItsExpansion : Obligations.EncodeIsItsExpansion := by
  intro s iw ih pal x hp hn hx
  obtain ⟨e, p, henc, hpck, hrun⟩ := exec_runEncode (iw := iw) (ih := ih) hp hn hx
  exact ⟨_, _, _, hrun, rfl, henc, rfl, hpck, rfl, rfl, rfl, rfl, rfl, rfl, rfl,
    palWrite_zero_getElem s.shared.pal pal, exec_serRun_encodeDone hp hn e p, rfl, rfl, rfl, rfl, rfl, rfl⟩

end Sys2Proof.Machine
end

section
/-! PROOFS. `DECODE` is its expansion and always ends (46_pipeline_control.md R265 to R267): every round of the pull loop
takes nine bits at least, and the loop writes UNP and DEC only. -/

namespace Sys2Proof.Machine

variable {s t u : State} {i : Instr} {d : Dec} {c : Code} {w : Width} {bytes rest cont : List Byte} {pos : Nat}

/-! ### The feeds of a round -/

/-- Feeding moves bits from the bytes to UNP. -/
theorem feedUntil_bits (h : feedUntil w bytes s = .next (u, rest)) :
    u.unp.cnt.toNat + 8 * rest.length = s.unp.cnt.toNat + 8 * bytes.length := by
  induction bytes generalizing s with
  | nil => cases h; rfl
  | cons b bytes ih =>
    rw [feedUntil] at h
    split at h
    · obtain ⟨v, hv, hrest⟩ := follow_eq_next.1 h
      obtain ⟨-, -, hcnt, rfl⟩ := execUnpFeed_next.1 hv
      have hfed : (unpFeed b s.unp).cnt.toNat = s.unp.cnt.toNat + 8 := by rw [unpFeed_cnt, BitVec.toNat_ofNat]; omega
      rw [ih hrest, List.length_cons, State.setUnp_unp, hfed]
      omega
    · cases h; rfl

theorem feedUntil_only (h : feedUntil w bytes s = .next (u, rest)) : u = s.setUnp u.unp := by
  induction bytes generalizing s with
  | nil => cases h; rfl
  | cons b bytes ih =>
    rw [feedUntil] at h
    split at h
    · obtain ⟨v, hv, hrest⟩ := follow_eq_next.1 h
      obtain ⟨-, -, -, rfl⟩ := execUnpFeed_next.1 hv
      exact ih (s := s.setUnp (unpFeed b s.unp)) hrest
    · cases h; rfl

theorem feedUntil_dec (h : feedUntil w bytes s = .next (u, rest)) : u.dec = s.dec := by
  rw [feedUntil_only h]; rfl

theorem unpPull_cnt_toNat {u : Unp} (hw : w.toNat ≤ u.cnt.toNat) :
    (unpPull w u).cnt.toNat = u.cnt.toNat - w.toNat := by
  rw [unpPull_cnt hw, BitVec.toNat_ofNat]
  omega

/-! ### The bound on the rounds (R267) -/

/-- `UNP.PULL` at DEC's width and `DEC.CODE` of what it gives, where they are enabled. -/
def pullCode (s : State) : State :=
  decEffect (decCode (unpCode s.dec.width s.unp) s.dec) (s.setUnp (unpPull s.dec.width s.unp))

theorem pullCode_only (s : State) :
    pullCode s = (s.setUnp (unpPull s.dec.width s.unp)).setDec (pullCode s).dec := decEffect_only _ _

theorem pullCode_sound (hd : DecSound s.dec) (ha : DecAwaits s) : DecSound (pullCode s).dec :=
  decEffect_sound (decCode_sound hd ha.ne_fail _) _

/-- A round of the pull loop ends the loop, or goes on behind a code that ended no run. -/
theorem decodeLoop_succ (n : Nat) (bytes : List Byte) (s : State) :
    (∃ t, decodeLoop (n + 1) bytes s = some t) ∨
      (feedBytes bytes s).1.dec.width.toNat ≤ (feedBytes bytes s).1.unp.cnt.toNat ∧
      (pullCode (feedBytes bytes s).1).dec.phase ≠ .fail ∧ (pullCode (feedBytes bytes s).1).dec.phase ≠ .done ∧
      decodeLoop (n + 1) bytes s = decodeLoop n (feedBytes bytes s).2 (pullCode (feedBytes bytes s).1) := by
  rw [decodeLoop]
  by_cases hlow : (feedBytes bytes s).1.unp.cnt.toNat < (feedBytes bytes s).1.dec.width.toNat
  · exact .inl ⟨_, if_pos hlow⟩
  by_cases hfail : (pullCode (feedBytes bytes s).1).dec.phase = .fail
  · exact .inl ⟨_, (if_neg hlow).trans (if_pos hfail)⟩
  by_cases hdone : (pullCode (feedBytes bytes s).1).dec.phase = .done
  · exact .inl ⟨_, (if_neg hlow).trans ((if_neg hfail).trans (if_pos hdone))⟩
  exact .inr ⟨Nat.le_of_not_lt hlow, hfail, hdone, (if_neg hlow).trans ((if_neg hfail).trans (if_neg hdone))⟩

/-- More rounds than the bits held and to be fed have nines are enough. -/
theorem decodeLoop_isSome (n : Nat) (hp : s.paused = false) (hu : s.unp.phase = .run) (hd : DecSound s.dec)
    (ha : DecAwaits s) (hbits : s.unp.cnt.toNat + 8 * bytes.length < 9 * n) : ∃ t, decodeLoop n bytes s = some t := by
  induction n generalizing bytes s with
  | zero => omega
  | succ n ih =>
    obtain ⟨h9, h12⟩ := hd.legal_width ha
    obtain ⟨hfeed, honly, hrun⟩ := feedBytes_feedUntil bytes s hp hu h12
    have hkept := feedUntil_bits hfeed
    have hdec : (feedBytes bytes s).1.dec = s.dec := feedUntil_dec hfeed
    have hpaused : (feedBytes bytes s).1.paused = false := by rw [honly]; exact hp
    have hloop := decodeLoop_succ n bytes s
    generalize feedBytes bytes s = r at hkept hdec hpaused hrun hloop
    rcases hloop with hend | ⟨henough, hfail, hdone, hnext⟩
    · exact hend
    · rw [← hdec] at hd h9
      have ha' : DecAwaits r.1 := by rwa [DecAwaits, hdec]
      have hcnt : (pullCode r.1).unp.cnt.toNat = r.1.unp.cnt.toNat - r.1.dec.width.toNat := by
        rw [pullCode_only]; exact unpPull_cnt_toNat henough
      rw [hnext]
      exact ih (by rw [pullCode_only]; exact hpaused) (by rw [pullCode_only]; exact hrun) (pullCode_sound hd ha')
        (decCode_awaits _ _ hfail hdone ha') (by omega)

theorem decodeRun_isSome (hp : s.paused = false) (cont : List Byte) : ∃ t, decodeRun cont s = some t := by
  simp only [decodeRun]
  split
  case isTrue => exact ⟨_, rfl⟩
  case isFalse =>
    refine decodeLoop_isSome _ ((parRun_paused cont _).trans hp) rfl decStart_sound (.inl rfl) ?_
    show 0 + 8 * _ < 9 * (_ + 1)
    omega

/-! ### The loop writes UNP and DEC, and does not see the composite's status -/

theorem PullLoop.only (h : PullLoop bytes s t) : t = (s.setUnp t.unp).setDec t.dec := by
  induction h with
  | exhausted hf _ he =>
    obtain ⟨-, -, rfl⟩ := execDecEos_next.1 he
    rw [decEffect_only, feedUntil_only hf]
    rfl
  | ended hf hp _ hc _ =>
    obtain ⟨-, -, -, -, rfl⟩ := execUnpPull_next.1 hp
    obtain ⟨-, -, rfl⟩ := execDecCode_next.1 hc
    rw [decEffect_only, feedUntil_only hf]
    rfl
  | more hf hp _ hc _ _ _ ih =>
    obtain ⟨-, -, -, -, rfl⟩ := execUnpPull_next.1 hp
    obtain ⟨-, -, rfl⟩ := execDecCode_next.1 hc
    rw [decEffect_only, feedUntil_only hf] at ih
    exact ih

theorem PullLoop.par (h : PullLoop bytes s t) : t.par = s.par := by rw [h.only]; rfl

theorem PullLoop.shared (h : PullLoop bytes s t) : t.shared = s.shared := by rw [h.only]; rfl

theorem decEffect_setComp (r : DecEffect) (s : State) (k : Comp) :
    decEffect r (s.setComp k) = (decEffect r s).setComp k := by
  cases r <;> rfl

theorem exec_decCode_setComp (h : exec (.decCode c) s = .next t) (k : Comp) :
    exec (.decCode c) (s.setComp k) = .next (t.setComp k) := by
  obtain ⟨hp, ha, rfl⟩ := execDecCode_next.1 h
  exact execDecCode_next.2 ⟨hp, ha, decEffect_setComp _ s k⟩

theorem exec_decEos_setComp (h : exec .decEos s = .next t) (k : Comp) :
    exec .decEos (s.setComp k) = .next (t.setComp k) := by
  obtain ⟨hp, ha, rfl⟩ := execDecEos_next.1 h
  exact execDecEos_next.2 ⟨hp, ha, decEffect_setComp _ s k⟩

theorem exec_unpPull_setComp (h : exec (.unpPull w) s = .next t) (k : Comp) :
    exec (.unpPull w) (s.setComp k) = .next (t.setComp k) := by
  obtain ⟨hp, hrun, hw, hcnt, rfl⟩ := execUnpPull_next.1 h
  exact execUnpPull_next.2 ⟨hp, hrun, hw, hcnt, rfl⟩

theorem feedUntil_setComp (h : feedUntil w bytes s = .next (u, rest)) (k : Comp) :
    feedUntil w bytes (s.setComp k) = .next (u.setComp k, rest) := by
  induction bytes generalizing s with
  | nil => cases h; rfl
  | cons b bytes ih =>
    rw [feedUntil] at h ⊢
    split at h
    case isTrue hlow =>
      obtain ⟨v, hv, hrest⟩ := follow_eq_next.1 h
      obtain ⟨hp, hrun, hcnt, rfl⟩ := execUnpFeed_next.1 hv
      rw [if_pos (by exact hlow), exec_unpFeed (s := s.setComp k) hp hrun hcnt, follow_next]
      exact ih hrest
    case isFalse henough => cases h; exact if_neg henough

theorem PullLoop.setComp (h : PullLoop bytes s t) (k : Comp) : PullLoop bytes (s.setComp k) (t.setComp k) := by
  induction h with
  | exhausted hf hlow he => exact .exhausted (feedUntil_setComp hf k) hlow (exec_decEos_setComp he k)
  | ended hf hp hout hc hend =>
    exact .ended (feedUntil_setComp hf k) (exec_unpPull_setComp hp k) hout (exec_decCode_setComp hc k) hend
  | more hf hp hout hc hdone hfail _ ih =>
    exact .more (feedUntil_setComp hf k) (exec_unpPull_setComp hp k) hout (exec_decCode_setComp hc k) hdone hfail ih

theorem parRun_setComp (cont : List Byte) (s : State) (k : Comp) :
    parRun cont (s.setComp k) = (parRun cont s).setComp k := by
  cases h : parParse cont with
  | ok r => rw [parRun_ok h, parRun_ok h]; rfl
  | error pos => rw [parRun_error h, parRun_error h]; rfl

/-! ### The errors of a run (R267) -/

/-- A decoder in a run completes an operation without an error, or raises one of the two kinds of 46_pipeline_control.md
R267. -/
def DecEffect.Legal : DecEffect → Prop
  | .ok d => d.err = .none
  | .error x => x = .invalidInput ∨ x = .decodeError

theorem decReset_err (d : Dec) : (decReset d).err = d.err := by
  unfold decReset; split <;> rfl

theorem decTail_legal (h : DecRunning d) (he : d.err = .none) (p : Phrase) : (decTail p d).Legal := by
  rw [decTail_eq p h.high]
  exact (decReset_err _).trans he

theorem decData_legal (h : DecRunning d) (he : d.err = .none) (c : Code) : (decData c d).Legal := by
  unfold decData
  split
  · exact decTail_legal h he _
  · split
    · exact decTail_legal h he _
    · exact .inr rfl

theorem decCode_legal (h : DecSound d) (ha : d.Awaits) (c : Code) : (decCode c d).Legal := by
  have he := h.err_none (not_or.1 ha.ongoing).2
  unfold decCode
  split
  · exact he
  split
  · exact he
  split
  · rcases ha with ha | ha | ha <;> simp only [decRoot, ha]
    · exact he
    · exact he
    · exact decData_legal (h.run ha) he _
  · rcases ha with ha | ha | ha <;> simp only [decDyn, ha]
    · exact .inr rfl
    · exact .inr rfl
    · exact decData_legal (h.run ha) he _

theorem decEos_legal (ha : d.Awaits) : (decEos d).Legal := by
  rcases ha with ha | ha
  · rw [decEos_start ha]; exact .inl rfl
  · rw [decEos_after_code ha]; exact .inr rfl

theorem decEffect_legal {r : DecEffect} (h : r.Legal) (s : State) :
    (decEffect r s).dec.err = .none ∨ (decEffect r s).dec.err = .invalidInput ∨
      (decEffect r s).dec.err = .decodeError := by
  cases r with
  | ok d => exact .inl h
  | error x => exact .inr h

/-- Where the pull loop ends DEC is sound and, if it has an error, it is one of the two kinds. -/
theorem PullLoop.errors (h : PullLoop bytes s t) (hd : DecSound s.dec) :
    DecSound t.dec ∧ (t.dec.err = .none ∨ t.dec.err = .invalidInput ∨ t.dec.err = .decodeError) := by
  induction h with
  | exhausted hf _ he =>
    obtain ⟨-, ha, rfl⟩ := execDecEos_next.1 he
    exact ⟨decEffect_sound (decEos_sound (feedUntil_dec hf ▸ hd)) _, decEffect_legal (decEos_legal ha) _⟩
  | ended hf hp _ hc _ =>
    obtain ⟨-, -, -, -, rfl⟩ := execUnpPull_next.1 hp
    obtain ⟨-, ha, rfl⟩ := execDecCode_next.1 hc
    rw [← feedUntil_dec hf] at hd
    exact ⟨decEffect_sound (decCode_sound hd ha.ne_fail _) _, decEffect_legal (decCode_legal hd ha _) _⟩
  | more hf hp _ hc _ _ _ ih =>
    obtain ⟨-, -, -, -, rfl⟩ := execUnpPull_next.1 hp
    obtain ⟨-, ha, rfl⟩ := execDecCode_next.1 hc
    rw [← feedUntil_dec hf] at hd
    exact ih (decEffect_sound (decCode_sound hd ha.ne_fail _) _)

/-- The composite's status from a decoder whose run is over. -/
theorem decodeStatus_cases (hd : DecSound d) (hend : d.phase = .done ∨ d.phase = .fail)
    (herr : d.err = .none ∨ d.err = .invalidInput ∨ d.err = .decodeError) :
    decodeStatus d = ⟨.done, .none⟩ ∨ decodeStatus d = ⟨.fail, .decodeError⟩ ∨
      decodeStatus d = ⟨.fail, .invalidInput⟩ := by
  unfold decodeStatus
  rcases hend with hend | hend
  · exact .inl (if_pos hend)
  · have hne := hd.err.1 hend
    rcases herr with herr | herr | herr
    · exact absurd herr hne
    · simp [hend, herr]
    · simp [hend, herr]

theorem decodeStatus_done : (decodeStatus d).phase = .done ↔ d.phase = .done := by
  unfold decodeStatus; split <;> simp [*]

/-! ### The whole composite -/

theorem exec_runDecode_rejected (hp : s.paused = false) (h : parParse cont = .error pos) :
    exec (.runDecode cont) s = .next ((parRun cont s).setComp ⟨.fail, .decodeError⟩) := by
  refine execRunDecode_next.2 ⟨hp, ?_⟩
  simp only [decodeRun, compStart, parRun_error h]
  rfl

/-- `DECODE` of a container that the parser takes. -/
theorem exec_runDecode_accepted (hp : s.paused = false) (h : (parRun cont s).par.phase = .done) :
    ∃ w, PullLoop (parRun cont s).shared.pbuf (((parRun cont s).setUnp unpStart).setDec decStart) w ∧
      exec (.runDecode cont) s = .next (w.setComp (decodeStatus w.dec)) := by
  obtain ⟨t, ht⟩ := decodeRun_isSome hp cont
  have hcases := decodeRun_cases hp ht
  rw [decodeReady, compStart, parRun_setComp] at hcases
  rcases hcases with ⟨hfail, -⟩ | ⟨w, hw, rfl⟩
  · exact nomatch h.symm.trans hfail
  · have hloop := hw.setComp (parRun cont s).comp
    exact ⟨_, hloop, execRunDecode_next.2 ⟨hp, ht⟩⟩

/-- A refused operation is no fault, and `DECODE` ends. -/
theorem exec_ne_fault (i : Instr) (s : State) (f : Fault) : exec i s ≠ .fault f := by
  rcases exec_cases i s with rfl | rfl | ⟨cont, rfl⟩ | ⟨cs, t, h⟩
  · exact whenEnabled_ne_fault _ _ f
  · exact whenEnabled_ne_fault _ _ f
  · cases hp : s.paused with
    | true => rw [exec_runDecode_paused hp]; nofun
    | false =>
      obtain ⟨t, ht⟩ := decodeRun_isSome hp cont
      have hexec : exec (.runDecode cont) s = .next t := execRunDecode_next.2 ⟨hp, ht⟩
      rw [hexec]; nofun
  · rw [h]; exact whenEnabled_ne_fault _ _ f

/-- Settles O47, by whether the parser takes the container. -/
theorem decodeAlwaysEnds : Obligations.DecodeAlwaysEnds := by
  refine ⟨fun s cont hp => ?_, fun s i f => exec_ne_fault i s f⟩
  cases hparse : parParse cont with
  | error pos =>
    have hexec := exec_runDecode_rejected hp hparse
    have hpar : (parRun cont s).par.phase = .fail := by rw [parRun_error hparse]; rfl
    obtain ⟨henc, -, hpck, -, hser, -, -, -, hpaused, hinq⟩ := exec_keepsOthers hexec
    refine ⟨_, _, hexec, exec_parRun hp cont, rfl, rfl, .inr (.inl rfl), by simp [hpar], henc rfl, hpck rfl, hser rfl,
      hpaused rfl, hinq, fun _ => ⟨?_, ?_, rfl⟩, fun hdone => nomatch hpar.symm.trans hdone⟩ <;>
      rw [parRun_only] <;> rfl
  | ok r =>
    have hpar : (parRun cont s).par.phase = .done := by rw [parRun_ok hparse]; rfl
    obtain ⟨w, hw, hexec⟩ := exec_runDecode_accepted hp hpar
    obtain ⟨hsound, herr⟩ := hw.errors decStart_sound
    obtain ⟨henc, -, hpck, -, hser, -, -, -, hpaused, hinq⟩ := exec_keepsOthers hexec
    have hup : (parRun cont s).paused = false := (parRun_paused cont s).trans hp
    refine ⟨_, _, hexec, exec_parRun hp cont, hw.par, hw.shared, decodeStatus_cases hsound hw.ends herr, ?done, henc rfl,
      hpck rfl, hser rfl, hpaused rfl, hinq, fun hfail => (nomatch hpar.symm.trans hfail),
      fun _ => ⟨_, _, w, exec_unpInit hup, exec_decInit hup, hw, rfl⟩⟩
    case done => rw [State.setComp_comp, decodeStatus_done, State.setComp_dec]; exact (and_iff_right hpar).symm

/-! ### A stream without a code -/

/-- With fewer bits than a code takes the loop ends at once. -/
theorem PullLoop.few (h : PullLoop bytes s t) (hbits : s.unp.cnt.toNat + 8 * bytes.length < s.dec.width.toNat) :
    ∃ u, exec .decEos (s.setUnp u) = .next t := by
  cases h with
  | exhausted hf _ he => rw [feedUntil_only hf] at he; exact ⟨_, he⟩
  | ended hf hp | more hf hp =>
    obtain ⟨-, -, -, hw, -⟩ := execUnpPull_next.1 hp
    rw [feedUntil_dec hf] at hw
    have := feedUntil_bits hf
    omega

/-- Settles O48: eight bits are no code, so the loop is `DEC.EOS` on the unit that `DEC.INIT` leaves. -/
theorem decodeOfNoCodeIsInvalidInput : Obligations.DecodeOfNoCodeIsInvalidInput := by
  intro s p cont hp hpar hdone hshort
  obtain ⟨-, rfl⟩ := execParRun_next.1 hpar
  obtain ⟨w, hw, hexec⟩ := exec_runDecode_accepted hp hdone
  have hbits : unpStart.cnt.toNat + 8 * (parRun cont s).shared.pbuf.length < decStart.width.toNat := by
    show 0 + 8 * _ < 9
    omega
  obtain ⟨u, heos⟩ := hw.few hbits
  obtain ⟨-, -, rfl⟩ := execDecEos_next.1 heos
  exact ⟨_, hexec, rfl, rfl, rfl, rfl⟩

end Sys2Proof.Machine
end

section
/-! PROOFS. `DECODE` of what `ENCODE` wrote (46_pipeline_control.md R270): the decoder pulls each code at the width at which
it was pushed, END apart, whose width may already have grown (70_reset_and_hazards.md R334). -/

namespace Sys2Proof.Machine

variable {s t : State} {e f : Enc} {d d' d'' : Dec} {w : Width} {n v : Nat} {ps qs : List Pair} {p : Pck}
  {bytes : List Byte} {cs : List Code} {x y : List Byte} {k : Byte} {iw ih : Dim} {pal : List RGB}

/-! ### The widths of the two units -/

/-- DEC in a run reads these pairs one after another, each at its own width, and goes on. -/
inductive DecChain : Dec → List Pair → Dec → Prop
  | nil {d : Dec} : DecChain d [] d
  | cons {x : Pair} {ps : List Pair} {d d' d'' : Dec} (width : x.width = d.width) (code : decCode x.code d = .ok d')
      (awaits : d'.Awaits) (rest : DecChain d' ps d'') : DecChain d (x :: ps) d''

theorem DecChain.append (h : DecChain d ps d') (h' : DecChain d' qs d'') : DecChain d (ps ++ qs) d'' := by
  induction h with
  | nil => exact h'
  | cons width code awaits _ ih => exact .cons width code awaits (ih h')

/-- While DEC lacks the pending phrase its width is ENC's: both are least for the same number (10_state.md R41). -/
theorem DecBehind.width_eq (h : DecBehind e d) (he : EncRunning e) (hd : DecSound d) : e.width = d.width := by
  cases h with
  | fresh hphase hnext =>
    obtain ⟨h258, hwidth, -⟩ := hd.fresh (.inr hphase)
    have hleast : LeastWidth 258 e.width := by
      have := he.width
      rwa [← hnext, h258] at this
    rw [hwidth]
    exact hleast.unique leastWidth_first.1
  | entry hphase hnext =>
    have hr := hd.run hphase
    have hleast := he.width
    rw [← hnext, next_succ hr.high] at hleast
    exact hleast.unique hr.width

/-- Level with ENC, DEC already has the width for one entry more. -/
theorem DecLevel.width_eq (h : DecLevel e d) (he : EncRunning e) (hd : DecSound d) :
    d.width = growWidth (e.next.toNat + 1) e.width := by
  have hleast := (hd.run h.phase).width
  have hhigh := he.high
  rw [h.next] at hleast
  exact hleast.unique (growWidth_least he.width (by omega))

/-- The number behind the next code needs one bit more exactly where the next code is a power of two (R334). -/
theorem growWidth_succ_toNat (h : LeastWidth n w) (hn : n ≤ 4095) :
    (growWidth (n + 1) w).toNat = if n = 512 ∨ n = 1024 ∨ n = 2048 then w.toNat + 1 else w.toNat := by
  obtain ⟨h9, h12, hle, hmin⟩ := h
  have hgrows : (2 ^ w.toNat < n + 1 ∧ w.toNat < Config.wMax) ↔ (n = 512 ∨ n = 1024 ∨ n = 2048) := by
    have hmin9 := hmin 9
    have hmin10 := hmin 10
    have hmin11 := hmin 11
    show _ ∧ w.toNat < 12 ↔ _
    generalize w.toNat = b at *
    obtain rfl | rfl | rfl | rfl : b = 9 ∨ b = 10 ∨ b = 11 ∨ b = 12 := by omega
    all_goals omega
  rw [growWidth]
  simp only [hgrows]
  split
  · bv_omega
  · rfl

/-! ### The encoder's pairs, read at the decoder's widths -/

/-- The pending phrase's pair. -/
theorem DecBehind.chain_pending (h : DecBehind e d) (he : EncRunning e) (hd : DecSound d) :
    ∃ d', DecChain d [⟨encCode e.dict e.w, e.width⟩] d' ∧ DecLevel e d' ∧ DecSound d' ∧ d'.idx = d.idx ++ e.w := by
  obtain ⟨d', hcode, hlevel, hidx⟩ := h.decCode_pending he hd
  have hsound := decCode_sound hd (not_or.1 h.awaits.ongoing).2 (encCode e.dict e.w)
  rw [hcode] at hsound
  exact ⟨d', .cons (h.width_eq he hd) hcode hlevel.awaits .nil, hlevel, hsound, hidx⟩

/-- The pairs that a symbol emits leave DEC behind ENC as before (40_encoder.md R133 to R136). -/
theorem DecBehind.symbol (h : DecBehind e d) (hrun : e.phase = .run) (he : EncRunning e) (hd : DecSound d) (k : Byte) :
    ∃ f ps d', encSymbol k e = .ok (f, ps) ∧ f.phase = .run ∧ DecChain d ps d' ∧ DecSound d' ∧
      (∀ out, DecBehind { f with out := out } d') ∧ d'.idx ++ f.w = d.idx ++ e.w ++ [k] := by
  cases hk : encHas e.dict (e.w ++ [k])
  case true =>
    exact ⟨_, _, d, encSymbol_hit hrun hk, hrun, .nil, hd, h.extend he.w_ne_nil k, (List.append_assoc ..).symm⟩
  case false =>
    obtain ⟨d', hchain, hlevel, hd', hidx⟩ := h.chain_pending he hd
    rw [encSymbol_miss hrun hk, encMiss_eq k he.high, ← hidx]
    by_cases hfull : (encAssign k e).next.toNat = 4096
    · have hwidth : (encAssign k e).width = d'.width :=
        (encAssign_width he.high k).trans (hlevel.width_eq he hd').symm
      rw [encReset_full hfull]
      exact ⟨_, _, _, rfl, hrun, hchain.append (.cons hwidth (decCode_clear d') (.inr (.inl rfl)) .nil),
        decClear_sound hd' (by simp [hlevel.phase]), fun _ => .fresh rfl rfl rfl rfl, rfl⟩
    · rw [encReset_not_full hfull]
      exact ⟨_, _, d', rfl, hrun, hchain, hd', hlevel.behind_assign k, rfl⟩

/-- ENC within a run has taken `y`, and DEC comes from its start to `d` on the pairs emitted, each at its own width. -/
structure DecTracks (y : List Byte) (e : Enc) (d : Dec) : Prop where
  enc    : EncSound e
  phase  : e.phase = .run
  dec    : DecSound d
  behind : DecBehind e d
  input  : d.idx ++ e.w = y
  chain  : DecChain decStart e.out d

/-- The first symbol of a run. -/
theorem exec_encSym_start_tracks (hp : s.paused = false) (k : Byte) :
    ∃ e, exec (.encSym k) (s.setEnc encStart) = .next (s.setEnc e) ∧ DecTracks [k] e decFresh := by
  obtain ⟨f, ps, hsym, hf, hsound, -⟩ := encSymbol_emits encStart_sound (.inl rfl) k
  cases (encSymbol_first (e := encStart) rfl k).symm.trans hsym
  exact ⟨_, exec_encSym_setEnc hp (.inl rfl) hsym, hsound, hf, decClear_sound decStart_sound nofun, .fresh rfl rfl rfl rfl,
    rfl, .cons rfl (decCode_clear decStart) (.inr (.inl rfl)) .nil⟩

/-- A further symbol of a run. -/
theorem DecTracks.exec_encSym (h : DecTracks y e d) (hp : s.paused = false) (k : Byte) :
    ∃ e' d', exec (.encSym k) (s.setEnc e) = .next (s.setEnc e') ∧ DecTracks (y ++ [k]) e' d' := by
  obtain ⟨f, ps, d', hsym, hf, hchain, hd', hbehind, hinput⟩ :=
    h.behind.symbol h.phase (h.enc.run h.phase) h.dec k
  obtain ⟨_, _, hemits, -, hsound, -⟩ := encSymbol_emits h.enc (.inr h.phase) k
  cases hsym.symm.trans hemits
  exact ⟨_, d', exec_encSym_setEnc hp (.inr h.phase) hsym, hsound, hf, hd', hbehind _, by rw [hinput, h.input],
    h.chain.append hchain⟩

theorem DecTracks.runAll_encSym (h : DecTracks y e d) (hp : s.paused = false) (x : List Byte) :
    ∃ e' d', runAll (x.map .encSym) (s.setEnc e) = .next (s.setEnc e') ∧ DecTracks (y ++ x) e' d' := by
  induction x generalizing y e d with
  | nil => exact ⟨e, d, rfl, by rwa [List.append_nil]⟩
  | cons k x ih =>
    obtain ⟨e₁, d₁, hexec, h₁⟩ := h.exec_encSym hp k
    obtain ⟨e₂, d₂, hrest, h₂⟩ := ih h₁
    exact ⟨e₂, d₂, by rw [List.map_cons, runAll_cons, hexec, follow_next, hrest], by rwa [List.append_assoc] at h₂⟩

/-- ENC has ended a run on `x`, and `d` is DEC when it has read `ps`, all the pairs but END, which was emitted at the width
`w`. -/
structure DecBeforeEnd (x : List Byte) (e : Enc) (ps : List Pair) (w : Width) (d : Dec) : Prop where
  out   : e.out = ps ++ [⟨257, w⟩]
  fits  : ∀ p ∈ e.out, Pair.Fits p
  chain : DecChain decStart ps d
  phase : d.phase = .run
  idx   : d.idx = x
  high  : e.next.toNat ≤ 4095
  least : LeastWidth e.next.toNat w
  width : d.width = growWidth (e.next.toNat + 1) w

/-- `ENC.END` behind a symbol: DEC reads the pending phrase's pair and awaits END. -/
theorem DecTracks.beforeEnd (h : DecTracks x e d) :
    ∃ d', DecBeforeEnd x { e with
      phase := .done, out := e.out ++ [⟨encCode e.dict e.w, e.width⟩, ⟨257, e.width⟩] }
      (e.out ++ [⟨encCode e.dict e.w, e.width⟩]) e.width d' := by
  have he := h.enc.run h.phase
  have hfits := (encFinish_sound (s := State.reset.setEnc e) h.enc).1.fits
  obtain ⟨d', hchain, hlevel, hd', hidx⟩ := h.behind.chain_pending he h.dec
  rw [State.setEnc_enc, encFinish_run h.phase, encEffect_ok] at hfits
  exact ⟨d', by simp, hfits, h.chain.append hchain, hlevel.phase, hidx.trans h.input,
    he.high, he.width, hlevel.width_eq he hd'⟩

theorem encRun_beforeEnd (hp : s.paused = false) (hx : x ≠ []) :
    ∃ e ps w d, encRun x s = .next (s.setEnc e) ∧ DecBeforeEnd x e ps w d := by
  obtain ⟨k, x, rfl⟩ := List.exists_cons_of_ne_nil hx
  obtain ⟨e₁, hfirst, h₁⟩ := exec_encSym_start_tracks hp k
  obtain ⟨e, d, hrest, h⟩ := h₁.runAll_encSym hp x
  obtain ⟨d', hend⟩ := h.beforeEnd
  refine ⟨_, _, _, d', ?_, hend⟩
  rw [encRun, runAll_cons, exec_encInit hp, follow_next, List.map_cons, List.cons_append, runAll_cons, hfirst, follow_next,
    runAll_append, hrest, follow_next, runAll_cons, exec_encEnd_run (s := s.setEnc e) hp h.phase]
  rfl

/-! ### The pull loop on the packed pairs -/

/-- A round of the pull loop on bytes whose lowest code was pushed at DEC's width: this code is pulled and decoded. -/
theorem PullLoop.round {z : Pair} (h : PullLoop bytes s t) (hp : s.paused = false) (hz : Pair.Fits z)
    (hw : z.width = s.dec.width)
    (hu : Unpacking s.unp bytes cs (z.code.toNat + 2 ^ z.width.toNat * v) (z.width.toNat + n)) :
    ∃ u rest, Unpacking u rest (cs ++ [z.code]) v n ∧
      u.cnt.toNat + 8 * rest.length + z.width.toNat = s.unp.cnt.toNat + 8 * bytes.length ∧
      let r := decEffect (decCode z.code s.dec) (s.setUnp u)
      if r.dec.phase = .done ∨ r.dec.phase = .fail then r = t else PullLoop rest r t := by
  obtain ⟨c, w⟩ := z
  obtain rfl : w = s.dec.width := hw
  obtain ⟨hfit, h9, h12⟩ := hz
  obtain ⟨u, rest, hfeed, hfed, hle⟩ := feedUntil_unpacking hp h12 (Nat.le_add_right _ _) hu
  replace hle : s.dec.width.toNat ≤ u.cnt.toNat := hle
  have hpulled := hfed.pull hfit h12 hle
  have hbits : (unpPull s.dec.width u).cnt.toNat + 8 * rest.length + s.dec.width.toNat =
      s.unp.cnt.toNat + 8 * bytes.length := by
    have hkept := feedUntil_bits hfeed
    rw [State.setUnp_unp] at hkept
    rw [unpPull_cnt_toNat hle]
    omega
  have hcode {c' : Code} (hout : (unpPull s.dec.width u).out = u.out ++ [c']) : c' = c := by
    rw [hpulled.out, hfed.out] at hout
    exact (List.singleton_inj.1 (List.append_cancel_left hout)).symm
  refine ⟨_, rest, hpulled, hbits, ?_⟩
  cases h with
  | exhausted hf hlow _ =>
    cases hfeed.symm.trans hf
    exact absurd hlow (Nat.not_lt.2 hle)
  | ended hf hpull hout hc hend =>
    cases hfeed.symm.trans hf
    obtain ⟨-, -, -, -, rfl⟩ := execUnpPull_next.1 hpull
    obtain rfl := hcode hout
    obtain ⟨-, -, rfl⟩ := execDecCode_next.1 hc
    exact (if_pos hend).mpr rfl
  | more hf hpull hout hc hdone hfail hrest =>
    cases hfeed.symm.trans hf
    obtain ⟨-, -, -, -, rfl⟩ := execUnpPull_next.1 hpull
    obtain rfl := hcode hout
    obtain ⟨-, -, rfl⟩ := execDecCode_next.1 hc
    exact (if_neg (not_or.2 ⟨hdone, hfail⟩)).mpr hrest

/-- The pull loop follows DEC along the pairs it reads at its own widths. -/
theorem PullLoop.chain (h : PullLoop bytes s t) (hp : s.paused = false) (hps : ∀ p ∈ ps, Pair.Fits p)
    (hchain : DecChain s.dec ps d) (hu : Unpacking s.unp bytes cs (streamValue (ps ++ qs)) (bitLength (ps ++ qs))) :
    ∃ u rest cs', PullLoop rest ((s.setUnp u).setDec d) t ∧ Unpacking u rest cs' (streamValue qs) (bitLength qs) ∧
      u.cnt.toNat + 8 * rest.length + bitLength ps = s.unp.cnt.toNat + 8 * bytes.length := by
  induction ps generalizing s bytes cs with
  | nil => cases hchain; exact ⟨s.unp, bytes, cs, h, hu, rfl⟩
  | cons z ps ih =>
    cases hchain with
    | @cons _ _ _ d' _ hwidth hcode hawaits hrest =>
      obtain ⟨hz, hps⟩ := List.forall_mem_cons.1 hps
      have hlen (rs : List Pair) : bitLength (z :: rs) = z.width.toNat + bitLength rs := List.sum_cons
      rw [List.cons_append, hlen] at hu
      obtain ⟨u, rest, hu', hbits, hnext⟩ := h.round hp hz hwidth hu
      simp only [hcode, decEffect_ok, State.setDec_dec, if_neg hawaits.ongoing] at hnext
      obtain ⟨u', rest', cs', hloop, hu'', hbits'⟩ := ih hnext hp hps hrest hu'
      rw [State.setDec_unp, State.setUnp_unp] at hbits'
      exact ⟨u', rest', cs', hloop, hu'', by rw [hlen]; omega⟩

/-- With END left, and zeros up to DEC's width, DEC ends `DONE`. -/
theorem PullLoop.last_enough (h : PullLoop bytes s t) (hp : s.paused = false) (h9 : 9 ≤ s.dec.width.toNat)
    (h12 : s.dec.width.toNat ≤ 12) (hu : Unpacking s.unp bytes cs 257 n)
    (henough : s.dec.width.toNat ≤ s.unp.cnt.toNat + 8 * bytes.length) : t.dec = { s.dec with phase := .done } := by
  have hend : Unpacking s.unp bytes cs ((257 : Code).toNat + 2 ^ s.dec.width.toNat * 0) (s.dec.width.toNat + 0) :=
    { hu with bits := henough }
  obtain ⟨u, rest, -, -, hnext⟩ := h.round (z := ⟨257, s.dec.width⟩) hp (fits_of_small (by decide) h9 h12) rfl hend
  rw [decCode_end, decEnd, decEffect_ok] at hnext
  rw [← (if_pos (.inl rfl)).mp hnext]
  rfl

/-- With too few bits left for its width DEC ends in `DecodeError`. -/
theorem PullLoop.last_short (h : PullLoop bytes s t) (hrun : s.dec.phase = .run)
    (hshort : s.unp.cnt.toNat + 8 * bytes.length < s.dec.width.toNat) :
    t.dec = { s.dec with err := .decodeError, phase := .fail } := by
  obtain ⟨u, heos⟩ := h.few hshort
  obtain ⟨-, -, rfl⟩ := execDecEos_next.1 heos
  rw [State.setUnp_dec, decEos_after_code (.inr hrun)]
  rfl

/-- The END-width hazard (70_reset_and_hazards.md R334): no bit is padded, and DEC's width has grown where END stands. -/
def EndHazard (e : Enc) : Prop := bitLength e.out % 8 = 0 ∧ (e.next = 512 ∨ e.next = 1024 ∨ e.next = 2048)

/-- The bits left behind the other pairs, END's and the padding, are enough for DEC's width but under the hazard. -/
theorem DecBeforeEnd.enough_iff {r : Nat} (h : DecBeforeEnd x e ps w d)
    (hr : r + bitLength ps = 8 * ((bitLength e.out + 7) / 8)) : d.width.toNat ≤ r ↔ ¬ EndHazard e := by
  have hbits : bitLength e.out = bitLength ps + w.toNat := by rw [h.out]; simp [bitLength]
  have hpower : (e.next = 512 ∨ e.next = 1024 ∨ e.next = 2048) ↔
      (e.next.toNat = 512 ∨ e.next.toNat = 1024 ∨ e.next.toNat = 2048) := by bv_omega
  rw [EndHazard, hpower, h.width, growWidth_succ_toNat h.least h.high]
  split <;> omega

/-- The pull loop on the packed bytes of a run ends after all of the input, `DONE` but under the hazard. -/
theorem PullLoop.packed (h : PullLoop bytes ((s.setUnp unpStart).setDec decStart) t) (hp : s.paused = false)
    (he : DecBeforeEnd x e ps w d) (hlen : bytes.length = (bitLength e.out + 7) / 8)
    (hvalue : bytesValue bytes = streamValue e.out) :
    t.dec.idx = x ∧ (EndHazard e ∧ decodeStatus t.dec = ⟨.fail, .decodeError⟩ ∨
      ¬ EndHazard e ∧ decodeStatus t.dec = ⟨.done, .none⟩) := by
  have hstart : Unpacking unpStart bytes [] (streamValue e.out) (bitLength e.out) :=
    hvalue ▸ unpStart_unpacking (by omega)
  have hfits := he.fits
  rw [he.out] at hstart hfits
  obtain ⟨u, rest, cs, hloop, hu, hbits⟩ := h.chain hp (fun p hp => hfits p (List.mem_append_left _ hp)) he.chain hstart
  replace hbits : u.cnt.toNat + 8 * rest.length + bitLength ps = 0 + 8 * bytes.length := hbits
  obtain ⟨h9, h12, -⟩ := growWidth_least he.least (Nat.succ_le_succ he.high)
  rw [← he.width] at h9 h12
  have henough := he.enough_iff (r := u.cnt.toNat + 8 * rest.length) (by omega)
  by_cases hhazard : EndHazard e
  · have hlast := hloop.last_short he.phase (Nat.lt_of_not_le fun hle => henough.1 hle hhazard)
    rw [hlast]
    exact ⟨he.idx, .inl ⟨hhazard, rfl⟩⟩
  · have hlast := hloop.last_enough hp h9 h12 hu (henough.2 hhazard)
    rw [hlast]
    exact ⟨he.idx, .inr ⟨hhazard, rfl⟩⟩

/-! ### The round trip -/

/-- The parser takes the container that `ENCODE` wrote, and gives back the registers it was laid out from. -/
theorem parRun_encodeDone (hp : s.paused = false) (hn : pal.length ≤ 256) (e : Enc) (p : Pck) :
    let t := encodeDone iw ih pal s e p
    let r := parRun t.ser.out t
    r.par.phase = .done ∧ r.shared.iw = iw ∧ r.shared.ih = ih ∧ r.shared.pbuf = p.out ∧
      ∀ (i : Nat) (h : i < 256), some r.shared.pal[i] = if i < pal.length then pal[i]? else some ⟨0, 0, 0⟩ := by
  obtain ⟨t, u, hser, hpar, hdone, -, -, hiw, hih, -, -, hpbuf, -, hpal⟩ :=
    parserInvertsTheSerializer (encodeDone iw ih pal s e p) hp hn (encodeReady_readable iw ih hn s)
  cases (exec_serRun_encodeDone hp hn e p).symm.trans hser
  obtain ⟨-, rfl⟩ := execParRun_next.1 hpar
  refine ⟨hdone, hiw, hih, hpbuf, fun i hi => ?_⟩
  have hfirst := palWrite_zero_getElem s.shared.pal pal i hi
  rw [hpal i hi]
  split
  case isTrue h => rw [if_pos (by exact h)] at hfirst ⊢; exact hfirst
  case isFalse h => rw [if_neg (by exact h)]

/-- Settles O49: PCK's bytes are the integer of ENC's pairs, the parser gives them back, and the pull loop reads the pairs
at the widths at which they were pushed, up to END. -/
theorem decodeOfEncodeGivesTheInput : Obligations.DecodeOfEncodeGivesTheInput := by
  intro s iw ih pal x hp hn hx
  obtain ⟨e, p, henc, hpck, hencode⟩ := exec_runEncode (iw := iw) (ih := ih) hp hn hx
  obtain ⟨e', ps, w, d, henc', he⟩ := encRun_beforeEnd hp hx
  obtain rfl : e' = e := congrArg State.enc (Host.Outcome.next.inj (henc'.symm.trans henc))
  obtain ⟨p', hpck', -, hlen, hvalue⟩ := pckRun_eq (s := s) e'.out hp he.fits
  obtain rfl : p' = p := congrArg State.pck (Host.Outcome.next.inj (hpck'.symm.trans hpck))
  obtain ⟨hdone, hiw, hih, hpbuf, hpal⟩ := parRun_encodeDone (iw := iw) (ih := ih) hp hn e' p'
  obtain ⟨u, hloop, hdecode⟩ := exec_runDecode_accepted (s := encodeDone iw ih pal s e' p') hp hdone
  rw [hpbuf] at hloop
  obtain ⟨hidx, hstatus⟩ := hloop.packed ((parRun_paused _ _).trans hp) he hlen hvalue
  have hshared := hloop.shared
  rw [State.setDec_shared, State.setUnp_shared] at hshared
  rw [← hshared] at hiw hih hpal
  exact ⟨_, _, hencode, hdecode, hidx, hiw, hih, hpal, hstatus⟩

end Sys2Proof.Machine
end

section
/-! PROOFS. The status registers: their numbers (60_exceptions.md R291), every unit idle at reset and after a cancel
(70_reset_and_hazards.md R330), the phases that refuse the data operations, and the ways out of `FAIL` (R301). -/

namespace Sys2Proof.Machine

variable {s t : State} {i : Instr}

/-- Settles O58: the numbers as `Flags` gives them. -/
theorem statusNumbers : Obligations.StatusNumbers := ⟨rfl, rfl, rfl, rfl, rfl, rfl⟩

/-! ### Reset and cancel -/

theorem reset_allIdle : AllIdle State.reset := ⟨rfl, rfl, rfl, rfl, rfl, rfl, rfl, rfl, rfl, rfl, rfl, rfl, rfl⟩

theorem clearAll_allIdle (s : State) : AllIdle (clearAll s) :=
  ⟨rfl, rfl, rfl, rfl, rfl, rfl, rfl, rfl, rfl, rfl, rfl, rfl, rfl⟩

/-- Settles O1: the cancel and the reset input both clear all but the queue, which has lost the reset input by then. -/
theorem resetAndCancelLeaveEveryUnitIdle : Obligations.ResetAndCancelLeaveEveryUnitIdle :=
  ⟨reset_allIdle, fun s => ⟨clearAll s, execCtlCancel_next.2 rfl, clearAll_allIdle s, rfl⟩,
    fun s q hq => ⟨clearAll (s.setInq q), step_of_inq_cons hq, clearAll_allIdle _, rfl⟩⟩

/-! ### The phases that enable no data operation -/

theorem encOpen_false (h : s.enc.phase = .idle ∨ s.enc.phase = .done ∨ s.enc.phase = .fail) : (encOpen s).1 = false := by
  rcases h with h | h | h <;> simp [h]

theorem decOpen_false (h : s.dec.phase = .idle ∨ s.dec.phase = .done ∨ s.dec.phase = .fail) : (decOpen s).1 = false := by
  rcases h with h | h | h <;> simp [h]

theorem pckOpen_false (h : s.pck.phase = .idle ∨ s.pck.phase = .done) : (pckOpen s).1 = false := by
  rcases h with h | h <;> simp [h]

theorem unpOpen_false (h : s.unp.phase = .idle) : (unpOpen s).1 = false := by simp [h]

/-- While not paused, the condition behind the pause test is the one that can refuse the operation. -/
theorem whenEnabled_running_stop (hp : s.paused = false) {x : Bool × Refusal} {cs : List (Bool × Refusal)}
    (hx : x.1 = false) : whenEnabled (running s :: x :: cs) t = .refused x.2 := by
  rw [whenEnabled_pass (running_true hp), whenEnabled_stop hx]

/-- Settles O2: behind the pause test each data operation asks first for its unit's phase. -/
theorem idleEnablesNoDataOperation : Obligations.IdleEnablesNoDataOperation := by
  intro s k b c w hp
  refine ⟨fun h => ?enc, fun h => ?dec, fun h => ?pck, fun h => ?unp⟩
  case enc =>
    have hstop := encOpen_false h
    exact ⟨whenEnabled_running_stop hp hstop, whenEnabled_running_stop hp hstop⟩
  case dec =>
    have hstop := decOpen_false h
    have hcode : exec (.decCode c) s = .refused .wrongPhase := whenEnabled_running_stop hp hstop
    exact ⟨hcode, whenEnabled_running_stop hp hstop, (codeWordsActAsTheirDecCode s c).trans hcode⟩
  case pck =>
    have hstop := pckOpen_false h
    exact ⟨whenEnabled_running_stop hp hstop, whenEnabled_running_stop hp hstop⟩
  case unp =>
    have hstop := unpOpen_false h
    exact ⟨whenEnabled_running_stop hp hstop, whenEnabled_running_stop hp hstop⟩

/-! ### The ways out of `FAIL`

An operation that takes a unit out of `FAIL` writes the unit, so its row of the access table names it (10_state.md R39); of
these operations the data operations are not enabled in `FAIL`, and the fields before the trailer keep the phase. -/

/-- Every container field but the trailer, which commits the parse, leaves `R_PHASE` alone (45_parser.md R236). -/
theorem field_keeps_phase (hi : isField i = true) (hne : i ≠ .contTrailer) (ht : exec i s = .next t) :
    t.par.phase = s.par.phase := by
  cases i with
  | contTrailer => exact absurd rfl hne
  | contSig | contLsw | contLsh | contSflags | contBg | contAspect | contGct | contSep | contLeft | contTop | contIw
  | contIh | contIflags | contMincode | contSubblock | contTerm => rw [← (whenEnabled_eq_next.1 ht).2]; rfl
  | _ => exact nomatch hi

theorem enc_leaves_fail (ht : exec i s = .next t) (hfail : s.enc.phase = .fail) (hout : t.enc.phase ≠ .fail) :
    i = .encInit ∨ (∃ iw ih pal x, i = .runEncode iw ih pal x) ∨ i = .ctlCancel := by
  have hw : writesEnc i ≠ false := fun hw => hout (by rw [(exec_keepsOthers ht).enc hw, hfail])
  cases i with
  | encInit => exact .inl rfl
  | runEncode iw ih pal x => exact .inr (.inl ⟨iw, ih, pal, x, rfl⟩)
  | ctlCancel => exact .inr (.inr rfl)
  | encSym k => obtain ⟨-, hopen, -⟩ := execEncSym_next.1 ht; simp [hfail] at hopen
  | encEnd => obtain ⟨-, hopen, -⟩ := execEncEnd_next.1 ht; simp [hfail] at hopen
  | _ => exact absurd rfl hw

theorem dec_leaves_fail (ht : exec i s = .next t) (hfail : s.dec.phase = .fail) (hout : t.dec.phase ≠ .fail) :
    i = .decInit ∨ (∃ cont, i = .runDecode cont) ∨ i = .ctlCancel := by
  have hw : writesDec i ≠ false := fun hw => hout (by rw [(exec_keepsOthers ht).dec hw, hfail])
  cases i with
  | decInit => exact .inl rfl
  | runDecode cont => exact .inr (.inl ⟨cont, rfl⟩)
  | ctlCancel => exact .inr (.inr rfl)
  | decCode c => obtain ⟨-, hopen, -⟩ := execDecCode_next.1 ht; exact absurd hfail hopen.ne_fail
  | decEos => obtain ⟨-, hopen, -⟩ := execDecEos_next.1 ht; exact absurd hfail hopen.ne_fail
  | codeClear => obtain ⟨-, hopen, -⟩ := execCodeClear_next.1 ht; exact absurd hfail hopen.ne_fail
  | codeEnd => obtain ⟨-, hopen, -⟩ := execCodeEnd_next.1 ht; exact absurd hfail hopen.ne_fail
  | codeRoot k => obtain ⟨-, hopen, -⟩ := execCodeRoot_next.1 ht; exact absurd hfail hopen.ne_fail
  | codeDyn c => obtain ⟨-, hopen, -⟩ := execCodeDyn_next.1 ht; exact absurd hfail hopen.ne_fail
  | _ => exact absurd rfl hw

theorem ser_leaves_fail (ht : exec i s = .next t) (hfail : s.ser.phase = .fail) (hout : t.ser.phase ≠ .fail) :
    i = .serRun ∨ (∃ iw ih pal x, i = .runEncode iw ih pal x) ∨ i = .ctlCancel := by
  have hw : writesSer i ≠ false := fun hw => hout (by rw [(exec_keepsOthers ht).ser hw, hfail])
  cases i with
  | serRun => exact .inl rfl
  | runEncode iw ih pal x => exact .inr (.inl ⟨iw, ih, pal, x, rfl⟩)
  | ctlCancel => exact .inr (.inr rfl)
  | _ => exact absurd rfl hw

theorem writesPar_cases (hw : writesPar i = true) :
    isField i = true ∨ (∃ cont, i = .parRun cont) ∨ (∃ cont, i = .runDecode cont) ∨ i = .ctlCancel := by
  unfold writesPar at hw
  split at hw
  case h_1 cont => exact .inr (.inl ⟨cont, rfl⟩)
  case h_2 cont => exact .inr (.inr (.inl ⟨cont, rfl⟩))
  case h_3 => exact .inr (.inr (.inr rfl))
  case h_4 => exact .inl ((Bool.or_false _).symm.trans hw)

theorem par_leaves_fail (ht : exec i s = .next t) (hfail : s.par.phase = .fail) (hout : t.par.phase ≠ .fail) :
    (∃ cont, i = .parRun cont) ∨ (∃ cont, i = .runDecode cont) ∨ i = .contTrailer ∨ i = .ctlCancel := by
  have hw : writesPar i ≠ false := fun hw => hout (by rw [(exec_keepsOthers ht).par hw, hfail])
  rcases writesPar_cases (Bool.eq_true_of_not_eq_false hw) with hfield | hrun | hdecode | hcancel
  · by_cases htrailer : i = .contTrailer
    · exact .inr (.inr (.inl htrailer))
    · exact absurd ((field_keeps_phase hfield htrailer ht).trans hfail) hout
  · exact .inl hrun
  · exact .inr (.inl hdecode)
  · exact .inr (.inr (.inr hcancel))

theorem comp_leaves_fail (ht : exec i s = .next t) (hfail : s.comp.phase = .fail) (hout : t.comp.phase ≠ .fail) :
    (∃ iw ih pal x, i = .runEncode iw ih pal x) ∨ (∃ cont, i = .runDecode cont) ∨ i = .ctlCancel := by
  have hw : writesComp i ≠ false := fun hw => hout (by rw [(exec_keepsOthers ht).comp hw, hfail])
  cases i with
  | runEncode iw ih pal x => exact .inl ⟨iw, ih, pal, x, rfl⟩
  | runDecode cont => exact .inr (.inl ⟨cont, rfl⟩)
  | ctlCancel => exact .inr (.inr rfl)
  | _ => exact absurd rfl hw

/-- Settles O51: unit by unit, from the access table. -/
theorem failIsLeftOnlyByANewRun : Obligations.FailIsLeftOnlyByANewRun := fun _ _ _ ht =>
  ⟨enc_leaves_fail ht, dec_leaves_fail ht, ser_leaves_fail ht, par_leaves_fail ht, comp_leaves_fail ht⟩

end Sys2Proof.Machine
end
